-- ==== Sys2Proof/Word.lean ====
section
/-! DEFINITION. The two word types of the block: the 4-bit symbol (00_scope.md R8, SYM_W of R6) and the
8-bit byte of a datagram (00_scope.md R8). Every value is unsigned (00_scope.md R7). -/

namespace Sys2Proof

/-- `Nib`: a symbol or nibble, 0..15 (00_scope.md R8, 30_encoding.md R70). -/
abbrev Nib := BitVec 4

/-- `Byte`: 0..255 (00_scope.md R8). -/
abbrev Byte := BitVec 8

end Sys2Proof
end

