-- ==== Sys2Proof/Machine/Nibbles.lean ====
section
/-! DEFINITION. The pseudocode primitives over nibble lists (00_scope.md R8, R9) and the packing of nibbles into bytes
(44_gateway_packing.md R230, R231). -/

namespace Sys2Proof.Machine

/-- `be(l)`: the value of a nibble list, most significant nibble first (00_scope.md R9, 20_memory.md R55, R56). -/
def be (l : List Nib) : Nat := l.foldl (fun v n => 16 * v + n.toNat) 0

/-- `nib_k(v)`: the `k` nibbles of `v mod 16^k`, most significant first (00_scope.md R9). -/
def nibs : Nat → Nat → List Nib
  | 0, _ => []
  | k + 1, v => nibs k (v / 16) ++ [BitVec.ofNat 4 v]

/-- `l[i..j]`: elements `i` through `j-1`, empty when `j <= i` (00_scope.md R8). -/
def slice {α : Type} (l : List α) (i j : Nat) : List α := (l.drop i).take (j - i)

/-- PACK, nibblesToBytes: two nibbles a byte, high nibble first, a trailing zero pad when the count is odd
(44_gateway_packing.md R230). -/
def pack : List Nib → List Byte
  | [] => []
  | [a] => [a.setWidth 8 <<< 4]
  | a :: b :: l => (a.setWidth 8 <<< 4 ||| b.setWidth 8) :: pack l

/-- UNPACK, bytesToNibbles: bits 7:4 of each byte, then bits 3:0 (44_gateway_packing.md R231). -/
def unpack : List Byte → List Nib
  | [] => []
  | b :: l => (b >>> 4).setWidth 4 :: b.setWidth 4 :: unpack l

end Sys2Proof.Machine
end

