-- ==== Sys2Proof/Syntax.lean ====
section
/-! DEFINITION. The operations of the block as syntax: one constructor of Instr per row of spec/opcode_table.json
(30_encoding.md R92 to R98), and the operand forms they take (00_scope.md R10). -/

namespace Sys2Proof

/-- The record `{type, code, args}` of a Frame (10_state.md R34) and of a candidate frame (R35). Which records are
Frames is the predicate `Machine.validFrame`. -/
structure Frame where
  type : Nib
  code : Nib
  args : List Nib
  deriving DecidableEq, Repr

/-- How an operation writes a frame operand: as a record, or as a call of a constructor of 40_frame_codec.md
R113 to R118. A numeric field is any natural number: one that does not fit is refused when the operand is
evaluated (R111), not truncated. -/
inductive FrameOp where
  /-- the record itself -/
  | raw (f : Frame)
  /-- `mkData(dstPort, srcPort, payload, code)` (R113); `code` is 0 where the call leaves it out -/
  | mkData (dstPort srcPort : Nat) (payload : List Nib) (code : Nat)
  /-- `mkCtl(opcode, args)` (R114) -/
  | mkCtl (opcode : Nat) (args : List Nib)
  /-- `mkStatus(code, port, rxDepth, errorFlags)` (R115) -/
  | mkStatus (code port rxDepth errorFlags : Nat)
  /-- `mkStatusExt(code, port, rxDepth, errorFlags, localIp, gatewayPort)` (R116) -/
  | mkStatusExt (code port rxDepth errorFlags localIp gatewayPort : Nat)
  /-- `mkIPv4(code, dstIp, dstUdpPort, srcIp, srcUdpPort, inner)` (R117) -/
  | mkIPv4 (code dstIp dstUdpPort srcIp srcUdpPort : Nat) (inner : Frame)
  /-- `mkIPv4Ctl(code, dstIp, srcIp, context)` (R118) -/
  | mkIPv4Ctl (code dstIp srcIp : Nat) (context : List Nib)
  deriving DecidableEq, Repr

/-- The selector of READ (43_queue_and_control.md R208). -/
inductive Selector where
  | parsed
  | errors
  | emitted
  | drops
  | queueDepth
  | errorFlags
  deriving DecidableEq, Repr

/-- What the host may perform between a tick's PSTEP and its ESTEP: an ENQ, a RESET or a READ, as an action of the commit
callback `A(c)` (43_queue_and_control.md R211; the callback is a launch field, Config.callback) or beside it (R213). -/
inductive HostAct where
  | enq (f : Option FrameOp)
  | reset
  | read (sel : Selector)
  deriving DecidableEq, Repr

/-- Why a list of bytes is no operation record (the model's own carrier, log 2). -/
inductive Reject where
  /-- the bytes end inside a record -/
  | truncated
  /-- byte 1 names no format -/
  | badFormat
  /-- a parser or emitter key outside its table -/
  | badKey
  /-- byte 0 names no port operation -/
  | badPort
  /-- a symbol outside 0..15 (60_exceptions.md R266) -/
  | symbolRange
  /-- a list element's marker is neither 0 nor 1 -/
  | badMarker
  /-- the tag of an operand form, a selector or a host action names none -/
  | badTag
  /-- the args of a frame_header row are longer than 255 nibbles -/
  | frameTooLong
  deriving DecidableEq, Repr

/-- The operations of the block. The first four groups are the rows with a key, the last the port operations. -/
inductive Instr where
  -- frame_header rows (30_encoding.md R92): the decode of a frame with that header
  | dctlNop (args : List Nib)
  | dctlPortUnreachable (args : List Nib)
  | dctlMalformedFrame (args : List Nib)
  | dctlBlockBusy (args : List Nib)
  | dctlEchoRequest (args : List Nib)
  | dctlEchoReply (args : List Nib)
  | dctlModeq (args : List Nib)
  | dctlReset (args : List Nib)
  | dctlSetport (args : List Nib)
  | dctlStatusReply (args : List Nib)
  | dctlHostUnreachable (args : List Nib)
  | dctlNetworkError (args : List Nib)
  | dctlTargetBusy (args : List Nib)
  | frameData (code : Nib) (args : List Nib)
  | frameDataControl (code : Nib) (args : List Nib)
  | frameStatus (code : Nib) (args : List Nib)
  | frameIpv4 (code : Nib) (args : List Nib)
  | frameIpv4Control (code : Nib) (args : List Nib)
  | frameReservedType (type code : Nib) (args : List Nib)
  -- parser_step rows (30_encoding.md R93): one transition of PSTEP
  | pstepIdleSof
  | pstepIdleNoise (y : Nib)
  | pstepType (y : Nib)
  | pstepCode (y : Nib)
  | pstepLenHi (y : Nib)
  | pstepLenLo (y : Nib)
  | pstepArgs (y : Nib)
  | pstepEofOk
  | pstepEofDecodeFail
  | pstepEofBad (y : Nib)
  | pstepErrResync
  | pstepErrAbsorb (y : Nib)
  -- emitter_step rows (30_encoding.md R94): one transition of ESTEP
  | estepIdleEmpty
  | estepIdleStart
  | estepOutSym
  | estepOutEnd
  -- port_operation rows (30_encoding.md R97)
  | pstep (y : Nib)
  | estep
  /-- `TICK y` (00_scope.md R10). `acts` is what the host performs in this tick beside the callback, after it and before
  the ESTEP (43_queue_and_control.md R208, R213; log 6): none in the TICK of R210. -/
  | tick (y : Nib) (acts : List HostAct)
  | enq (f : Option FrameOp)
  | reset
  | read (sel : Selector)
  | encode (f : FrameOp)
  | decode (t c : Nib) (a : List Nib)
  | decodeSym (s : List Nib)
  | pack (x : List Nib)
  | unpack (b : List Byte)
  | txdg (f : FrameOp)
  | rxdg (b : List Byte)
  deriving DecidableEq, Repr

end Sys2Proof
end

