-- ==== Sys2Proof/Config.lean ====
section
/-! DEFINITION. What is fixed for a run and what the spec leaves OPEN (00_scope.md R6, 70_reset_and_hazards.md R283):
the launch fields CTR_W (log 4) and A, the commit callback's actions (log 6), plain values carried in State.cfg, and the
map IPV4CTL_OPCODE, which no rule of the block reads (log 5). -/

namespace Sys2Proof

/-- The launch fields (70_reset_and_hazards.md R283), fixed for the run: no operation changes them. -/
structure Config where
  /-- CTR_W, the width in bits of each event counter: OPEN (00_scope.md R6, 92_eei_decisions.md D9). -/
  ctrW : Nat
  /-- `A`, the host's actions on a committed frame (43_queue_and_control.md R211), as a table: the first entry of a frame
  gives its actions, and a frame without an entry has none (log 6). -/
  callback : List (Frame × List HostAct)
  deriving DecidableEq, Repr

/-- DESIGN CHOICE (log 4, log 6), unsafe where a claim reads it: State.reset carries the spec's "suggested default 32"
(00_scope.md R6) and a callback without actions. Statements range over every `ctrW` and every `callback`. -/
def Config.suggested : Config := { ctrW := 32, callback := [] }

/-- The IPv4ControlFrame opcode names the source gives without numbers (91_not_in_source.md N3). -/
inductive Ipv4CtlName where
  | echoRequest
  | echoReply
  | modeq
  | parameterProblem
  deriving DecidableEq, Repr

/-- IPV4CTL_OPCODE (00_scope.md R6, 93_implementation_defined.md I5): an open map from names to 4-bit codes.
A free value (log 5): it has no body, so nothing can be proved of a number in it. -/
opaque Config.ipv4CtlOpcode : Ipv4CtlName → Nib

end Sys2Proof
end

