-- ==== Sys2Proof/Machine/State.lean ====
section
/-! DEFINITION. The state of the block (10_state.md R20, R22) as plain data, its reset value, the outputs and events of
an operation, and the reasons a step can stop. The fields cfg, phase, ops, out and events are the model's own (log 1, 3,
4, 6, 7). -/

namespace Sys2Proof.Machine

/-- `pstate`, named for the symbol it expects next (10_state.md R23). -/
inductive PState where
  | idle
  | type
  | code
  | lenHi
  | lenLo
  | args
  | expectEof
  | error
  deriving DecidableEq, Repr

/-- `estate` (10_state.md R26). -/
inductive EState where
  | idle
  | outputting
  deriving DecidableEq, Repr

/-- Where the host stands in the tick order PSTEP, callback, ESTEP (43_queue_and_control.md R210, R213; log 7). -/
inductive TickPhase where
  /-- no TICK was performed yet: the host owes the order only from the first one (70_reset_and_hazards.md R284) -/
  | unstarted
  /-- a tick's ESTEP is done and the next tick's PSTEP is due -/
  | between
  /-- a tick's PSTEP is done and its ESTEP is due -/
  | inside
  deriving DecidableEq, Repr

/-- The DecodeError reasons (60_exceptions.md R252). -/
inductive DecodeReason where
  | noSof
  | noEof
  | lenMismatch
  | tooLong
  | unknownType
  | dataShort
  | statusShort
  | statusSig
  | ipv4Short
  | ipv4InnerType
  | ipv4InnerLen
  | ipv4InnerInvalid
  | ipv4CtlShort
  deriving DecidableEq, Repr

/-- The DatagramError reasons (44_gateway_packing.md R235). -/
inductive DatagramReason where
  | short
  | len
  | pad
  deriving DecidableEq, Repr

/-- The events an operation raises (60_exceptions.md R252). Nothing in the block stores or reads them (R253). -/
inductive Event where
  /-- code 1: a non-zero symbol in EXPECT_EOF -/
  | feNoEof
  /-- code 2: the symbol 0 in EXPECT_EOF, and decode fails -/
  | feDecode (r : DecodeReason)
  /-- code 3: LEN outside 0..255; no run reaches it -/
  | feLenRange
  /-- code 4: args read exceed `pexp`; no run reaches it -/
  | feArgsOverrun
  /-- code 5: ENQ of a candidate with more than 255 args -/
  | ovTooLong
  /-- code 6: ENQ with a full queue -/
  | ovQueueFull
  /-- code 7: ENCODE of a candidate with more than 255 args -/
  | encodeTooLong (n : Nat)
  /-- code 8: a DECODE, DECODESYM or RXDG check fails -/
  | decodeError (r : DecodeReason)
  /-- code 9: an RXDG length or pad check fails -/
  | datagramError (r : DatagramReason)
  deriving DecidableEq, Repr

/-- What an operation drives on the block's output ports (10_state.md R36). -/
inductive PortOut where
  /-- PSTEP: `commit` and `ferr` -/
  | pstep (commit : Option Frame) (ferr : Bool)
  /-- ESTEP: `rx_sym` and `edone` -/
  | estep (rxSym : Nib) (edone : Bool)
  /-- ENQ: `enq_ok` -/
  | enqOk (ok : Bool)
  /-- READ: the selected `rd_` port -/
  | read (sel : Selector) (value : Nat)
  /-- a codec or gateway function answers symbols -/
  | symbols (l : List Nib)
  /-- a gateway function answers bytes -/
  | bytes (l : List Byte)
  /-- a codec or gateway function answers a frame -/
  | frame (f : Frame)
  /-- a codec or gateway function answers an error (events 7, 8, 9) -/
  | error (e : Event)
  deriving DecidableEq, Repr

/-- Why a step stops although the rules make the case unreachable (60_exceptions.md R265). -/
inductive Fault where
  /-- Raised by ESTEP, ESTEP_IDLE_START and TICK when the frame at the head of `Q` has more than 255 args
  ("emitter encode failure", 42_emitter.md R181, 60_exceptions.md R266). Safe: no run reaches it (10_state.md R41). -/
  | emitterEncodeFailure
  /-- Raised by PSTEP, TICK, PSTEP_LEN_LO, PSTEP_EOF_OK and PSTEP_EOF_DECODE_FAIL when `pbuf` lacks an index the rule
  reads (41_parser.md R156, R158). The model's own (log 10). Safe: 10_state.md R39 rules it out. -/
  | parserBufferIndex
  deriving DecidableEq, Repr

/-- Why an operation has no meaning here. -/
inductive Refusal where
  /-- Raised by an arm of exec that has no meaning yet. Safe: nothing is claimed of it. -/
  | notModelled (mnemonic : String)
  /-- Raised by step when the host's bytes are no operation record, a symbol outside 0..15 among them
  (60_exceptions.md R266, log 2). Safe: such an operation has no step. -/
  | undecodable (r : Reject)
  /-- Raised by ENQ and TICK for a candidate that violates validArgs for a reason other than length
  (43_queue_and_control.md R203). Safe: the spec refuses it too. -/
  | malformedCandidate
  /-- Raised by a frame operand written as a constructor call with a field that does not fit its width
  (40_frame_codec.md R111). Safe: the spec refuses it too. -/
  | fieldDoesNotFit
  /-- Raised by a constructor call whose payload is longer than the constructor's rule allows
  (40_frame_codec.md R113, R114, R117, R118). Safe: the constructor has no result there. -/
  | payloadTooLong
  /-- Raised by `mkIPv4` when the inner record is not a Frame of TYPE 0 or 1 (40_frame_codec.md R117, log 12).
  Safe: the constructor has no result there. -/
  | innerNotEncapsulable
  /-- Raised by a parser_step or emitter_step row whose condition the state does not meet (30_encoding.md R93, R94,
  log 8). Safe: the row names no step of the block in that state. -/
  | rowNotSelected (mnemonic : String)
  /-- Raised by PSTEP, ESTEP, their rows and TICK out of the tick order (60_exceptions.md R266 "no move", D25, log 7).
  Unsafe if a host does perform them so: the spec says that this row errs toward proving. -/
  | outOfTickOrder
  /-- Raised by TXDG of a record of more than 255 args, which has no encoding to pack: the operand of TXDG is a Frame
  (44_gateway_packing.md R233, log 11). Safe: TXDG has no result there. -/
  | noEncoding
  deriving DecidableEq, Repr

/-- The block's state (10_state.md R22), then the model's own fields. -/
structure State where
  /-- parser state (10_state.md R23) -/
  pstate : PState
  /-- pending buffer: TYPE, CODE, LEN_HI, LEN_LO, args read so far (10_state.md R24) -/
  pbuf : List Nib
  /-- expectedLength (10_state.md R25) -/
  pexp : BitVec 8
  /-- emitter state (10_state.md R26) -/
  estate : EState
  /-- the frame in flight, encoded (10_state.md R27) -/
  esyms : List Nib
  /-- index of the next symbol to emit (10_state.md R28) -/
  epos : BitVec 9
  /-- `Q`, the outbound queue, head first (10_state.md R29) -/
  queue : List Frame
  /-- CTR_W bits (10_state.md R30) -/
  framesParsed : Nat
  /-- CTR_W bits (10_state.md R30) -/
  framingErrors : Nat
  /-- CTR_W bits (10_state.md R30) -/
  framesEmitted : Nat
  /-- CTR_W bits (10_state.md R30) -/
  overflowDrops : Nat
  /-- error flags: bit 0 RX_OVERFLOW, bit 1 TX_FRAMING_ERR (10_state.md R32) -/
  eflags : BitVec 4
  /-- the launch fields, fixed for the run (70_reset_and_hazards.md R283, log 4, log 6) -/
  cfg : Config
  /-- where the host stands in the tick order (log 7) -/
  phase : TickPhase
  /-- the host's operations not yet performed, as records (log 1) -/
  ops : List Byte
  /-- what the last operation drove on the output ports, in order (log 3) -/
  out : List PortOut
  /-- the events the last operation raised, in order (log 3) -/
  events : List Event
  deriving DecidableEq, Repr

/-- The state after power-on, the RESET state (70_reset_and_hazards.md R280, R281; 10_state.md R22). -/
def State.reset : State where
  pstate := .idle
  pbuf := []
  pexp := 0
  estate := .idle
  esyms := []
  epos := 0
  queue := []
  framesParsed := 0
  framingErrors := 0
  framesEmitted := 0
  overflowDrops := 0
  eflags := 0
  cfg := Config.suggested
  phase := .unstarted
  ops := []
  out := []
  events := []

end Sys2Proof.Machine
end

