-- ==== Sys2Proof/Machine/Params.lean ====
section
/-! DEFINITION. The parameters of 00_scope.md R6 whose values the spec gives, and the numeric codes of the states and
events (30_encoding.md R95, R96; 60_exceptions.md R252). -/

namespace Sys2Proof.Machine

/-- SOF (00_scope.md R6, 30_encoding.md R72). -/
def sof : Nib := 15

/-- EOF (00_scope.md R6, 30_encoding.md R72). -/
def eof : Nib := 0

/-- MAX_ARGS (00_scope.md R6). -/
def maxArgs : Nat := 255

/-- QUEUE_CAP (00_scope.md R6). -/
def queueCap : Nat := 64

/-- STATUS_SIG (00_scope.md R6). -/
def statusSig : Nib := 10

/-- The `pstate` encoding (30_encoding.md R95). -/
def pstateCode : PState → BitVec 3
  | .idle => 0
  | .type => 1
  | .code => 2
  | .lenHi => 3
  | .lenLo => 4
  | .args => 5
  | .expectEof => 6
  | .error => 7

/-- The `estate` encoding (30_encoding.md R96). -/
def estateCode : EState → BitVec 1
  | .idle => 0
  | .outputting => 1

/-- The event codes (60_exceptions.md R252). -/
def eventCode : Event → Nat
  | .feNoEof => 1
  | .feDecode _ => 2
  | .feLenRange => 3
  | .feArgsOverrun => 4
  | .ovTooLong => 5
  | .ovQueueFull => 6
  | .encodeTooLong _ => 7
  | .decodeError _ => 8
  | .datagramError _ => 9

end Sys2Proof.Machine
end

