-- ==== Sys2Proof/Machine/Codec.lean ====
section
/-! DEFINITION. The frame encoder and decoder, the constructors and the field views (40_frame_codec.md), and the datagram
functions of the gateway (44_gateway_packing.md section 2). All are pure. -/

namespace Sys2Proof.Machine

/-! ## Encode -/

/-- The symbols of a record: SOF, TYPE, CODE, LEN_HI, LEN_LO, args, EOF (30_encoding.md R71, 40_frame_codec.md R112). -/
def frameSymbols (f : Frame) : List Nib :=
  [sof, f.type, f.code] ++ nibs 2 f.args.length ++ f.args ++ [eof]

/-- `encode(f)` (40_frame_codec.md R112); more than 255 args is `EncodeTooLong` with the length (R119). -/
def encodeFrame (f : Frame) : Except Nat (List Nib) :=
  if f.args.length ≤ maxArgs then .ok (frameSymbols f) else .error f.args.length

/-! ## Decode -/

/-- The check of TYPE 0: at least 8 args; CODE is not checked (40_frame_codec.md R121). -/
def checkData (a : List Nib) : Option DecodeReason :=
  if a.length < 8 then some .dataShort else none

/-- The checks of TYPE 2, in order (40_frame_codec.md R123). -/
def checkStatus (a : List Nib) : Option DecodeReason :=
  if a.length < 7 then some .statusShort
  else if a.getD 0 0 ≠ statusSig then some .statusSig
  else none

/-- `validArgs` of an inner frame, whose TYPE is 0 or 1 when this is asked (40_frame_codec.md R124 check 4, R120). -/
def innerValid (t : Nib) (a : List Nib) : Bool :=
  a.length ≤ maxArgs && (t != 0 || (checkData a).isNone)

/-- The checks of TYPE 3, in order (40_frame_codec.md R124). -/
def checkIPv4 (a : List Nib) : Option DecodeReason :=
  if a.length < 28 then some .ipv4Short
  else if 1 < (a.getD 24 0).toNat then some .ipv4InnerType
  else if be (slice a 26 28) ≠ a.length - 28 then some .ipv4InnerLen
  else if !innerValid (a.getD 24 0) (a.drop 28) then some .ipv4InnerInvalid
  else none

/-- The check of TYPE 4 (40_frame_codec.md R125). -/
def checkIPv4Ctl (a : List Nib) : Option DecodeReason :=
  if a.length < 16 then some .ipv4CtlShort else none

/-- The checks of a TYPE, apart from the length bound 255 (40_frame_codec.md R121 to R126). -/
def checkType (t : Nib) (a : List Nib) : Option DecodeReason :=
  match t.toNat with
  | 0 => checkData a
  | 1 => none
  | 2 => checkStatus a
  | 3 => checkIPv4 a
  | 4 => checkIPv4Ctl a
  | _ => some .unknownType

/-- `decode(t, c, a)` (40_frame_codec.md R127): the operands as a Frame, or the first failing check (R130). -/
def decodeFrame (t c : Nib) (a : List Nib) : Except DecodeReason Frame :=
  if maxArgs < a.length then .error .tooLong
  else
    match checkType t a with
    | some r => .error r
    | none => .ok ⟨t, c, a⟩

/-- `validArgs(t, c, a)`: decode succeeds (40_frame_codec.md R120). -/
def validArgs (t c : Nib) (a : List Nib) : Bool := (decodeFrame t c a).isOk

/-- A Frame is a record that satisfies `validArgs` (10_state.md R34). -/
def validFrame (f : Frame) : Bool := validArgs f.type f.code f.args

/-- `validArgsIgnoringLength(f)`: what a candidate frame must satisfy (10_state.md R35, 43_queue_and_control.md R205). -/
def validCandidate (f : Frame) : Bool := (checkType f.type f.args).isNone

/-- `decodeSymbols(s)`: the envelope checks, then decode (40_frame_codec.md R128). -/
def decodeSymbols (s : List Nib) : Except DecodeReason Frame :=
  if s.length = 0 ∨ s.getD 0 0 ≠ sof then .error .noSof
  else if s.length < 6 ∨ s.getD (s.length - 1) 0 ≠ eof then .error .noEof
  else if s.length ≠ 6 + be (slice s 3 5) then .error .lenMismatch
  else decodeFrame (s.getD 1 0) (s.getD 2 0) (slice s 5 (s.length - 1))

/-! ## Constructors -/

/-- The value fits a field of `k` nibbles (40_frame_codec.md R111). -/
def fits (k v : Nat) : Bool := v < 16 ^ k

/-- `mkData` (40_frame_codec.md R113). -/
def mkData (dstPort srcPort : Nat) (payload : List Nib) (code : Nat) : Except Refusal Frame :=
  if !(fits 4 dstPort && fits 4 srcPort && fits 1 code) then .error .fieldDoesNotFit
  else if 247 < payload.length then .error .payloadTooLong
  else .ok ⟨0, .ofNat 4 code, nibs 4 dstPort ++ nibs 4 srcPort ++ payload⟩

/-- `mkCtl` (40_frame_codec.md R114). -/
def mkCtl (opcode : Nat) (args : List Nib) : Except Refusal Frame :=
  if !fits 1 opcode then .error .fieldDoesNotFit
  else if 255 < args.length then .error .payloadTooLong
  else .ok ⟨1, .ofNat 4 opcode, args⟩

/-- `mkStatus` (40_frame_codec.md R115). -/
def mkStatus (code port rxDepth errorFlags : Nat) : Except Refusal Frame :=
  if !(fits 1 code && fits 4 port && fits 1 rxDepth && fits 1 errorFlags) then .error .fieldDoesNotFit
  else .ok ⟨2, .ofNat 4 code, [statusSig] ++ nibs 4 port ++ [.ofNat 4 rxDepth, .ofNat 4 errorFlags]⟩

/-- `mkStatusExt`: 20 args, the last written 0 (40_frame_codec.md R116). -/
def mkStatusExt (code port rxDepth errorFlags localIp gatewayPort : Nat) : Except Refusal Frame :=
  if !(fits 1 code && fits 4 port && fits 1 rxDepth && fits 1 errorFlags && fits 8 localIp && fits 4 gatewayPort) then
    .error .fieldDoesNotFit
  else
    .ok ⟨2, .ofNat 4 code, [statusSig] ++ nibs 4 port ++ [.ofNat 4 rxDepth, .ofNat 4 errorFlags]
      ++ nibs 8 localIp ++ nibs 4 gatewayPort ++ [0]⟩

/-- `mkIPv4` (40_frame_codec.md R117). The inner operand is a Frame of TYPE 0 or 1 with at most 227 args. -/
def mkIPv4 (code dstIp dstUdpPort srcIp srcUdpPort : Nat) (inner : Frame) : Except Refusal Frame :=
  if !(fits 1 code && fits 8 dstIp && fits 4 dstUdpPort && fits 8 srcIp && fits 4 srcUdpPort) then
    .error .fieldDoesNotFit
  else if !(inner.type.toNat ≤ 1 && validFrame inner) then .error .innerNotEncapsulable
  else if 227 < inner.args.length then .error .payloadTooLong
  else
    .ok ⟨3, .ofNat 4 code, nibs 8 dstIp ++ nibs 4 dstUdpPort ++ nibs 8 srcIp ++ nibs 4 srcUdpPort
      ++ [inner.type, inner.code] ++ nibs 2 inner.args.length ++ inner.args⟩

/-- `mkIPv4Ctl` (40_frame_codec.md R118). -/
def mkIPv4Ctl (code dstIp srcIp : Nat) (context : List Nib) : Except Refusal Frame :=
  if !(fits 1 code && fits 8 dstIp && fits 8 srcIp) then .error .fieldDoesNotFit
  else if 239 < context.length then .error .payloadTooLong
  else .ok ⟨4, .ofNat 4 code, nibs 8 dstIp ++ nibs 8 srcIp ++ context⟩

/-! ## Views (40_frame_codec.md R113 to R118) -/

/-- DataFrame `dstPort(f)` (R113). -/
def dataDstPort (f : Frame) : Nat := be (slice f.args 0 4)
/-- DataFrame `srcPort(f)` (R113). -/
def dataSrcPort (f : Frame) : Nat := be (slice f.args 4 8)
/-- DataFrame `payload(f)` (R113). -/
def dataPayload (f : Frame) : List Nib := f.args.drop 8
/-- DataControlFrame `opcode(f)` (R114). -/
def ctlOpcode (f : Frame) : Nib := f.code
/-- DataControlFrame `ctlArgs(f)` (R114). -/
def ctlArgs (f : Frame) : List Nib := f.args
/-- StatusFrame `signature(f)` (R115). -/
def statusSignature (f : Frame) : Nib := f.args.getD 0 0
/-- StatusFrame `port(f)` (R115). -/
def statusPort (f : Frame) : Nat := be (slice f.args 1 5)
/-- StatusFrame `rxDepth(f)` (R115). -/
def statusRxDepth (f : Frame) : Nib := f.args.getD 5 0
/-- StatusFrame `errorFlags(f)` (R115). -/
def statusErrorFlags (f : Frame) : Nib := f.args.getD 6 0
/-- StatusFrame `localIp(f)`, defined when there are at least 19 args (R116). -/
def statusLocalIp (f : Frame) : Option Nat := if 19 ≤ f.args.length then some (be (slice f.args 7 15)) else none
/-- StatusFrame `gatewayPort(f)`, defined when there are at least 19 args (R116). -/
def statusGatewayPort (f : Frame) : Option Nat := if 19 ≤ f.args.length then some (be (slice f.args 15 19)) else none
/-- IPv4Frame `dstIp` (R117). -/
def ipv4DstIp (f : Frame) : Nat := be (slice f.args 0 8)
/-- IPv4Frame `dstUdpPort` (R117). -/
def ipv4DstUdpPort (f : Frame) : Nat := be (slice f.args 8 12)
/-- IPv4Frame `srcIp` (R117). -/
def ipv4SrcIp (f : Frame) : Nat := be (slice f.args 12 20)
/-- IPv4Frame `srcUdpPort` (R117). -/
def ipv4SrcUdpPort (f : Frame) : Nat := be (slice f.args 20 24)
/-- IPv4Frame `inner` (R117). -/
def ipv4Inner (f : Frame) : Frame := ⟨f.args.getD 24 0, f.args.getD 25 0, f.args.drop 28⟩
/-- IPv4ControlFrame `dstIp` (R118). -/
def ipv4CtlDstIp (f : Frame) : Nat := be (slice f.args 0 8)
/-- IPv4ControlFrame `srcIp` (R118). -/
def ipv4CtlSrcIp (f : Frame) : Nat := be (slice f.args 8 16)
/-- IPv4ControlFrame `context` (R118). -/
def ipv4CtlContext (f : Frame) : List Nib := f.args.drop 16

/-! ## Datagrams -/

/-- TXDG: the packed symbols of a frame (44_gateway_packing.md R233). A record of more than 255 args is no operand of it:
it has no encoding to pack (40_frame_codec.md R119, log 11). -/
def txDatagram (f : Frame) : Except Refusal (List Byte) :=
  match encodeFrame f with
  | .ok syms => .ok (pack syms)
  | .error _ => .error .noEncoding

/-- RXDG: one datagram checked and decoded; the failing check as the event it raises (44_gateway_packing.md R234, R235). -/
def rxDatagram (b : List Byte) : Except Event Frame :=
  let x := unpack b
  let n := 6 + be (slice x 3 5)
  if x.length < 6 then .error (.datagramError .short)
  else if x.getD 0 0 ≠ sof then .error (.decodeError .noSof)
  else if x.length ≠ n + n % 2 then .error (.datagramError .len)
  else if n % 2 = 1 ∧ x.getD n 0 ≠ 0 then .error (.datagramError .pad)
  else (decodeSymbols (slice x 0 n)).mapError .decodeError

end Sys2Proof.Machine
end

