-- ==== Sys2Proof/Machine/Flags.lean ====
section
/-! DEFINITION. The status registers: the four event counters and the error flags (10_state.md R30 to R33), how events
change them (41_parser.md R163, R164; 42_emitter.md R185; 43_queue_and_control.md R201, R202) and how READ sees them
(R208). Nothing else writes them (R209). -/

namespace Sys2Proof.Machine

/-- A counter's increment: it wraps modulo `2^CTR_W` (10_state.md R30). -/
def ctrInc (width n : Nat) : Nat := (n + 1) % 2 ^ width

/-- RX_OVERFLOW, bit 0 (10_state.md R32; bit 0 is the least significant, 00_scope.md R7). -/
def rxOverflow : BitVec 4 := 0b0001

/-- TX_FRAMING_ERR, bit 1 (10_state.md R32). -/
def txFramingErr : BitVec 4 := 0b0010

/-- `eflags` as software sees it: the reserved bits 3:2 are hardwired to 0 (10_state.md R33, 43_queue_and_control.md R208). -/
def readFlags (flags : BitVec 4) : BitVec 4 := flags &&& 0b0011

/-- Setting a sticky bit; the reserved bits discard writes (10_state.md R32, R33). -/
def setFlag (bit flags : BitVec 4) : BitVec 4 := (flags ||| bit) &&& 0b0011

/-- A frame was committed (41_parser.md R163). -/
def State.countParsed (s : State) : State := { s with framesParsed := ctrInc s.cfg.ctrW s.framesParsed }

/-- A step raised `ferr` (41_parser.md R164). -/
def State.countFramingError (s : State) : State :=
  { s with framingErrors := ctrInc s.cfg.ctrW s.framingErrors, eflags := setFlag txFramingErr s.eflags }

/-- A frame was fully emitted (42_emitter.md R185). -/
def State.countEmitted (s : State) : State := { s with framesEmitted := ctrInc s.cfg.ctrW s.framesEmitted }

/-- ENQ rejected a frame (43_queue_and_control.md R201, R202). -/
def State.countDrop (s : State) : State :=
  { s with overflowDrops := ctrInc s.cfg.ctrW s.overflowDrops, eflags := setFlag rxOverflow s.eflags }

/-- What READ answers (43_queue_and_control.md R208; the depth is no register, 10_state.md R31). -/
def State.selected (s : State) : Selector → Nat
  | .parsed => s.framesParsed
  | .errors => s.framingErrors
  | .emitted => s.framesEmitted
  | .drops => s.overflowDrops
  | .queueDepth => s.queue.length
  | .errorFlags => (readFlags s.eflags).toNat

end Sys2Proof.Machine
end

