-- ==== Sys2Proof/Machine/Ops.lean ====
section
/-! DEFINITION. The named operations every meaning is built from: outputs and events of an operation, register updates,
the queue primitives (20_memory.md R54), the entry into the parser's ERROR state and the exit from it (60_exceptions.md
R254, R255; the block has no other exception, R250), RESET, and the sequencing and the tick order of operations. -/

namespace Sys2Proof.Machine

/-- What a meaning answers. -/
abbrev Result := Host.Outcome State Fault Refusal

/-- One operation after another: the first fault or refusal ends both (60_exceptions.md R265). -/
def andThen (r : Result) (k : State → Result) : Result :=
  match r with
  | .next s => k s
  | .fault f => .fault f
  | .refused x => .refused x

/-! ## Outputs and events (log 3) -/

/-- An operation begins: no output is driven and no event raised yet (70_reset_and_hazards.md R281, 60_exceptions.md R258). -/
def State.begin (s : State) : State := { s with out := [], events := [] }

/-- Drives an output port for the current operation. -/
def State.drive (o : PortOut) (s : State) : State := { s with out := s.out ++ [o] }

/-- `raise`: records an event and does not stop the operation (00_scope.md R9). -/
def State.raise (e : Event) (s : State) : State := { s with events := s.events ++ [e] }

/-- A pure function's error result: event 7, 8 or 9, and the error on the function's port (60_exceptions.md R252). -/
def State.answerError (e : Event) (s : State) : State := (s.raise e).drive (.error e)

/-! ## The tick order (43_queue_and_control.md R210, R212, R213; 60_exceptions.md R266, D25; log 7) -/

/-- PSTEP opens a tick; inside one it is out of order. -/
def phaseAfterPstep : TickPhase → Option TickPhase
  | .unstarted => some .unstarted
  | .between => some .inside
  | .inside => none

/-- ESTEP closes a tick; between ticks it is out of order. -/
def phaseAfterEstep : TickPhase → Option TickPhase
  | .unstarted => some .unstarted
  | .between => none
  | .inside => some .between

/-- TICK is a PSTEP and an ESTEP in order; inside a tick it is out of order. -/
def phaseAfterTick : TickPhase → Option TickPhase
  | .unstarted => some .between
  | .between => some .between
  | .inside => none

def State.setPhase (p : TickPhase) (s : State) : State := { s with phase := p }

/-- An operation of the tick begins in the phase it leads to; out of the tick order it has no move. -/
def inOrder (phase : Option TickPhase) (k : State → Result) (s : State) : Result :=
  match phase with
  | some p => k (s.begin.setPhase p)
  | none => .refused .outOfTickOrder

/-! ## Parser registers -/

def State.setParser (p : PState) (buf : List Nib) (len : BitVec 8) (s : State) : State :=
  { s with pstate := p, pbuf := buf, pexp := len }

/-- Entering ERROR: `pstate <- ERROR`, `ferr <- 1`, one framing error counted, TX_FRAMING_ERR set, the event raised;
the buffer `buf` is the one the rule leaves, and nothing else changes (60_exceptions.md R254, 41_parser.md R164). -/
def State.enterError (e : Event) (buf : List Nib) (s : State) : State :=
  (((s.setParser .error buf s.pexp).countFramingError).raise e).drive (.pstep none true)

/-- Back to IDLE with an empty buffer (60_exceptions.md R255, 41_parser.md R158, R161). -/
def State.toIdle (s : State) : State := s.setParser .idle [] 0

/-- A step that commits nothing and raises no error: `commit = none`, `ferr = 0` (41_parser.md R150). -/
def State.quiet (s : State) : State := s.drive (.pstep none false)

/-- The commit of a frame: back to IDLE, `framesParsed` counted (41_parser.md R158, R163). -/
def State.commit (f : Frame) (s : State) : State := (s.toIdle.countParsed).drive (.pstep (some f) false)

/-! ## Emitter registers and the queue -/

def State.setEmitter (e : EState) (syms : List Nib) (pos : BitVec 9) (s : State) : State :=
  { s with estate := e, esyms := syms, epos := pos }

def State.setQueue (q : List Frame) (s : State) : State := { s with queue := q }

/-- `Q.push(f)` (20_memory.md R54). -/
def State.push (f : Frame) (s : State) : State := s.setQueue (s.queue ++ [f])

/-- A rejected ENQ: counted, the event raised, `enq_ok <- 0`, `Q` unchanged (43_queue_and_control.md R201, R202). -/
def State.drop (e : Event) (s : State) : State := ((s.countDrop).raise e).drive (.enqOk false)

/-! ## RESET -/

/-- RESET: every register of the block to its reset value (43_queue_and_control.md R206). The launch fields, the host's
operations and its place in the tick, and the record of the operation's outputs are not registers of the block. -/
def State.clear (s : State) : State :=
  { State.reset with cfg := s.cfg, phase := s.phase, ops := s.ops, out := s.out, events := s.events }

end Sys2Proof.Machine
end

