-- ==== Sys2Proof/Machine/FrameRows.lean ====
section
/-! DEFINITION. The frame_header rows: each is the decode of a frame with that header (the rule the row names,
40_frame_codec.md R121 to R126, through R127). The block does nothing else with a header: it acts on no opcode
(30_encoding.md R80, 43_queue_and_control.md R207; log 9). -/

namespace Sys2Proof.Machine

/-- DECODE as an operation: the Frame, or the first failing check as an error result (40_frame_codec.md R127). -/
def answerDecode (r : Except DecodeReason Frame) (s : State) : Result :=
  match r with
  | .ok f => .next (s.begin.drive (.frame f))
  | .error e => .next (s.begin.answerError (.decodeError e))

/-- A DataControlFrame of a CODE: decoded without a check beyond the length (40_frame_codec.md R122). -/
def decodeControl (code : Nib) (args : List Nib) (s : State) : Result := answerDecode (decodeFrame 1 code args) s

/-- DCTL_NOP, CODE 0x0 (30_encoding.md R80). -/
def execDctlNop (args : List Nib) (s : State) : Result := decodeControl 0 args s
/-- DCTL_PORT_UNREACHABLE, CODE 0x1 (30_encoding.md R80). -/
def execDctlPortUnreachable (args : List Nib) (s : State) : Result := decodeControl 1 args s
/-- DCTL_MALFORMED_FRAME, CODE 0x2 (30_encoding.md R80). -/
def execDctlMalformedFrame (args : List Nib) (s : State) : Result := decodeControl 2 args s
/-- DCTL_BLOCK_BUSY, CODE 0x3 (30_encoding.md R80). -/
def execDctlBlockBusy (args : List Nib) (s : State) : Result := decodeControl 3 args s
/-- DCTL_ECHO_REQUEST, CODE 0x4 (30_encoding.md R80). -/
def execDctlEchoRequest (args : List Nib) (s : State) : Result := decodeControl 4 args s
/-- DCTL_ECHO_REPLY, CODE 0x5 (30_encoding.md R80). -/
def execDctlEchoReply (args : List Nib) (s : State) : Result := decodeControl 5 args s
/-- DCTL_MODEQ, CODE 0x6 (30_encoding.md R80). -/
def execDctlModeq (args : List Nib) (s : State) : Result := decodeControl 6 args s
/-- DCTL_RESET, CODE 0x7: the block does not act on it (30_encoding.md R80, 43_queue_and_control.md R207). -/
def execDctlReset (args : List Nib) (s : State) : Result := decodeControl 7 args s
/-- DCTL_SETPORT, CODE 0x8 (30_encoding.md R80). -/
def execDctlSetport (args : List Nib) (s : State) : Result := decodeControl 8 args s
/-- DCTL_STATUS_REPLY, CODE 0x9 (30_encoding.md R80). -/
def execDctlStatusReply (args : List Nib) (s : State) : Result := decodeControl 9 args s
/-- DCTL_HOST_UNREACHABLE, CODE 0xA (30_encoding.md R80). -/
def execDctlHostUnreachable (args : List Nib) (s : State) : Result := decodeControl 10 args s
/-- DCTL_NETWORK_ERROR, CODE 0xB (30_encoding.md R80). -/
def execDctlNetworkError (args : List Nib) (s : State) : Result := decodeControl 11 args s
/-- DCTL_TARGET_BUSY, CODE 0xC (30_encoding.md R80). -/
def execDctlTargetBusy (args : List Nib) (s : State) : Result := decodeControl 12 args s

/-- FRAME_DATA (40_frame_codec.md R121). -/
def execFrameData (code : Nib) (args : List Nib) (s : State) : Result := answerDecode (decodeFrame 0 code args) s
/-- FRAME_DATACONTROL: any CODE, the unassigned 0xD to 0xF among them (40_frame_codec.md R122, 30_encoding.md R87). -/
def execFrameDataControl (code : Nib) (args : List Nib) (s : State) : Result := decodeControl code args s
/-- FRAME_STATUS (40_frame_codec.md R123). -/
def execFrameStatus (code : Nib) (args : List Nib) (s : State) : Result := answerDecode (decodeFrame 2 code args) s
/-- FRAME_IPV4 (40_frame_codec.md R124). -/
def execFrameIpv4 (code : Nib) (args : List Nib) (s : State) : Result := answerDecode (decodeFrame 3 code args) s
/-- FRAME_IPV4CONTROL (40_frame_codec.md R125). -/
def execFrameIpv4Control (code : Nib) (args : List Nib) (s : State) : Result := answerDecode (decodeFrame 4 code args) s
/-- FRAME_RESERVED_TYPE: TYPE 5 to 15 never decodes (40_frame_codec.md R126, 30_encoding.md R86). -/
def execFrameReservedType (type code : Nib) (args : List Nib) (s : State) : Result :=
  answerDecode (decodeFrame type code args) s

end Sys2Proof.Machine
end

