-- ==== Sys2Proof/Machine/Operands.lean ====
section
/-! DEFINITION. The operand forms: a frame written as a record or as a constructor call (40_frame_codec.md R111, R113 to
R118; 95_test_vectors.md writes operands so). A constructor outside its domain has no result: the operation is refused. -/

namespace Sys2Proof.Machine

/-- The frame an operand denotes, or why it denotes none. -/
def evalFrameOp : FrameOp → Except Refusal Frame
  | .raw f => .ok f
  | .mkData d s p c => mkData d s p c
  | .mkCtl o a => mkCtl o a
  | .mkStatus c p d e => mkStatus c p d e
  | .mkStatusExt c p d e ip gp => mkStatusExt c p d e ip gp
  | .mkIPv4 c di du si su f => mkIPv4 c di du si su f
  | .mkIPv4Ctl c di si x => mkIPv4Ctl c di si x

/-- An operation on the frame an operand denotes. -/
def withFrame (op : FrameOp) (k : Frame → Result) : Result :=
  match evalFrameOp op with
  | .ok f => k f
  | .error r => .refused r

/-- An operation on the operand of ENQ: none, or the candidate it denotes (10_state.md R35, R36). -/
def withCandidate (op : Option FrameOp) (k : Option Frame → Result) : Result :=
  match op with
  | none => k none
  | some op => withFrame op fun f => k (some f)

end Sys2Proof.Machine
end

