-- ==== Sys2Proof/Machine/CodecOps.lean ====
section
/-! DEFINITION. The codec functions as operations: ENCODE, DECODE, DECODESYM (40_frame_codec.md R112, R127, R128). They
read and write no state of the block (20_memory.md R61); the result is driven on the function's port (10_state.md R36). -/

namespace Sys2Proof.Machine

/-- ENCODE of the frame its operand denotes: its symbols, or EncodeTooLong (40_frame_codec.md R112, R119). -/
def execEncode (op : FrameOp) (s : State) : Result :=
  withFrame op fun f =>
    match encodeFrame f with
    | .ok syms => .next (s.begin.drive (.symbols syms))
    | .error n => .next (s.begin.answerError (.encodeTooLong n))

/-- DECODE (40_frame_codec.md R127). -/
def execDecode (t c : Nib) (a : List Nib) (s : State) : Result := answerDecode (decodeFrame t c a) s

/-- DECODESYM (40_frame_codec.md R128). -/
def execDecodeSym (l : List Nib) (s : State) : Result := answerDecode (decodeSymbols l) s

end Sys2Proof.Machine
end

