-- ==== Sys2Proof/Machine/Parser.lean ====
section
/-! DEFINITION. The symbol parser TxFramer (41_parser.md): one operation per transition (R151 to R162) with its counters
(R163, R164), the step that selects among them (R150, R165), and the meanings of the parser_step rows and of PSTEP. -/

namespace Sys2Proof.Machine

/-! ## Transitions -/

/-- IDLE, SOF: to TYPE with an empty buffer (41_parser.md R151). -/
def parserSof (s : State) : State := (s.setParser .type [] 0).quiet

/-- No register changes: noise in IDLE, or a symbol absorbed in ERROR (41_parser.md R152, R162). -/
def parserIgnore (s : State) : State := s.quiet

/-- A header nibble is appended verbatim and the parser advances to `next` (41_parser.md R153, R154, R155). -/
def parserAppend (next : PState) (y : Nib) (s : State) : State := (s.setParser next (s.pbuf ++ [y]) s.pexp).quiet

/-- LEN_LO: `e = (pbuf[2] << 4) | y` is the length to come (41_parser.md R156). The out-of-range branch is kept
although 4-bit symbols cannot take it (92_eei_decisions.md D2). -/
def parserLenLo (y : Nib) (s : State) : Result :=
  let buf := s.pbuf ++ [y]
  match buf[2]? with
  | none => .fault .parserBufferIndex
  | some hi =>
    let e := be [hi, y]
    if 255 < e then .next (s.enterError .feLenRange buf)
    else if e = 0 then .next ((s.setParser .expectEof buf 0).quiet)
    else .next ((s.setParser .args buf (.ofNat 8 e)).quiet)

/-- ARGS: the symbol is appended, and the args read so far, `len(pbuf) - 4`, are compared with `pexp` (41_parser.md
R157). The comparison is on `len(pbuf)` and `pexp + 4`, so that nothing is subtracted (log 10). -/
def parserArgs (y : Nib) (s : State) : State :=
  let buf := s.pbuf ++ [y]
  if buf.length = s.pexp.toNat + 4 then (s.setParser .expectEof buf s.pexp).quiet
  else if s.pexp.toNat + 4 < buf.length then s.enterError .feArgsOverrun buf
  else (s.setParser .args buf s.pexp).quiet

/-- `decode(pbuf[0], pbuf[1], pbuf[4..])` (41_parser.md R158, R159); none where `pbuf` has no index 1. -/
def decodeBuffer (buf : List Nib) : Option (Except DecodeReason Frame) :=
  match buf with
  | t :: c :: _ => some (decodeFrame t c (buf.drop 4))
  | _ => none

/-- EXPECT_EOF, symbol 0: the commit, or ERROR with `pbuf` and `pexp` kept (41_parser.md R158, R159). -/
def parserEof (s : State) : Result :=
  match decodeBuffer s.pbuf with
  | none => .fault .parserBufferIndex
  | some (.ok f) => .next (s.commit f)
  | some (.error r) => .next (s.enterError (.feDecode r) s.pbuf)

/-- EXPECT_EOF, another symbol: ERROR with `pbuf` and `pexp` kept (41_parser.md R160). -/
def parserEofBad (s : State) : State := s.enterError .feNoEof s.pbuf

/-- ERROR, symbol 0: back to IDLE (41_parser.md R161). -/
def parserResync (s : State) : State := s.toIdle.quiet

/-! ## The step -/

/-- One parser step on the symbol `y` (41_parser.md R150, R165). -/
def parserStep (y : Nib) (s : State) : Result :=
  match s.pstate with
  | .idle => if y = sof then .next (parserSof s) else .next (parserIgnore s)
  | .type => .next (parserAppend .code y s)
  | .code => .next (parserAppend .lenHi y s)
  | .lenHi => .next (parserAppend .lenLo y s)
  | .lenLo => parserLenLo y s
  | .args => .next (parserArgs y s)
  | .expectEof => if y = eof then parserEof s else .next (parserEofBad s)
  | .error => if y = eof then .next (parserResync s) else .next (parserIgnore s)

/-- The parser key of a step, `pstate_code << 4 | y` (30_encoding.md R93). -/
def parserKey (s : State) (y : Nib) : BitVec 8 :=
  ((pstateCode s.pstate).setWidth 8 <<< 4) ||| y.setWidth 8

/-- The parser_step row a step on `y` takes (30_encoding.md R93): the key's row, told apart by the decode result in
EXPECT_EOF. -/
def parserRow (s : State) (y : Nib) : Instr :=
  match s.pstate with
  | .idle => if y = sof then .pstepIdleSof else .pstepIdleNoise y
  | .type => .pstepType y
  | .code => .pstepCode y
  | .lenHi => .pstepLenHi y
  | .lenLo => .pstepLenLo y
  | .args => .pstepArgs y
  | .expectEof =>
    if y = eof then
      match decodeBuffer s.pbuf with
      | some (.error _) => .pstepEofDecodeFail
      | _ => .pstepEofOk
    else .pstepEofBad y
  | .error => if y = eof then .pstepErrResync else .pstepErrAbsorb y

/-! ## Meanings -/

/-- A keyed row runs where its condition holds; elsewhere it names no step of the block and is refused (log 8). -/
def whenRow (mnemonic : String) (condition : Bool) (r : Result) : Result :=
  if condition then r else .refused (.rowNotSelected mnemonic)

/-- PSTEP and its rows have their turn where the tick order admits a PSTEP (log 7). -/
def parserTurn (s : State) (k : State → Result) : Result := inOrder (phaseAfterPstep s.phase) k s

/-- PSTEP_IDLE_SOF (41_parser.md R151). -/
def execPstepIdleSof (s : State) : Result :=
  parserTurn s fun s => whenRow "PSTEP_IDLE_SOF" (s.pstate == .idle) (.next (parserSof s))

/-- PSTEP_IDLE_NOISE (41_parser.md R152). -/
def execPstepIdleNoise (y : Nib) (s : State) : Result :=
  parserTurn s fun s => whenRow "PSTEP_IDLE_NOISE" (s.pstate == .idle && y != sof) (.next (parserIgnore s))

/-- PSTEP_TYPE (41_parser.md R153). -/
def execPstepType (y : Nib) (s : State) : Result :=
  parserTurn s fun s => whenRow "PSTEP_TYPE" (s.pstate == .type) (.next (parserAppend .code y s))

/-- PSTEP_CODE (41_parser.md R154). -/
def execPstepCode (y : Nib) (s : State) : Result :=
  parserTurn s fun s => whenRow "PSTEP_CODE" (s.pstate == .code) (.next (parserAppend .lenHi y s))

/-- PSTEP_LEN_HI (41_parser.md R155). -/
def execPstepLenHi (y : Nib) (s : State) : Result :=
  parserTurn s fun s => whenRow "PSTEP_LEN_HI" (s.pstate == .lenHi) (.next (parserAppend .lenLo y s))

/-- PSTEP_LEN_LO (41_parser.md R156). -/
def execPstepLenLo (y : Nib) (s : State) : Result :=
  parserTurn s fun s => whenRow "PSTEP_LEN_LO" (s.pstate == .lenLo) (parserLenLo y s)

/-- PSTEP_ARGS (41_parser.md R157). -/
def execPstepArgs (y : Nib) (s : State) : Result :=
  parserTurn s fun s => whenRow "PSTEP_ARGS" (s.pstate == .args) (.next (parserArgs y s))

/-- The buffer decodes, or has no TYPE and CODE to decode (a fault, log 10). -/
def bufferDecodes (s : State) : Bool :=
  match decodeBuffer s.pbuf with
  | some (.error _) => false
  | _ => true

/-- The buffer's decode fails, or there is no TYPE and CODE to decode (a fault, log 10). -/
def bufferFails (s : State) : Bool :=
  match decodeBuffer s.pbuf with
  | some (.ok _) => false
  | _ => true

/-- PSTEP_EOF_OK (41_parser.md R158). -/
def execPstepEofOk (s : State) : Result :=
  parserTurn s fun s => whenRow "PSTEP_EOF_OK" (s.pstate == .expectEof && bufferDecodes s) (parserEof s)

/-- PSTEP_EOF_DECODE_FAIL (41_parser.md R159). -/
def execPstepEofDecodeFail (s : State) : Result :=
  parserTurn s fun s => whenRow "PSTEP_EOF_DECODE_FAIL" (s.pstate == .expectEof && bufferFails s) (parserEof s)

/-- PSTEP_EOF_BAD (41_parser.md R160). -/
def execPstepEofBad (y : Nib) (s : State) : Result :=
  parserTurn s fun s => whenRow "PSTEP_EOF_BAD" (s.pstate == .expectEof && y != eof) (.next (parserEofBad s))

/-- PSTEP_ERR_RESYNC (41_parser.md R161). -/
def execPstepErrResync (s : State) : Result :=
  parserTurn s fun s => whenRow "PSTEP_ERR_RESYNC" (s.pstate == .error) (.next (parserResync s))

/-- PSTEP_ERR_ABSORB (41_parser.md R162). -/
def execPstepErrAbsorb (y : Nib) (s : State) : Result :=
  parserTurn s fun s => whenRow "PSTEP_ERR_ABSORB" (s.pstate == .error && y != eof) (.next (parserIgnore s))

/-- PSTEP (41_parser.md R165). DESIGN CHOICE (log 6): a PSTEP that the host performs itself runs no callback, though it
commit a frame and the launch field has actions for it; the host then performs `A(c)` as operations of its own. Only TICK
performs `A(c)` (43_queue_and_control.md R210, R211). -/
def execPstep (y : Nib) (s : State) : Result := parserTurn s (parserStep y)

end Sys2Proof.Machine
end

