-- ==== Sys2Proof/Machine/Emitter.lean ====
section
/-! DEFINITION. The symbol emitter RxEmitter (42_emitter.md): one operation per transition (R181 to R184) with its counter
(R185), the step that selects among them (R180, R186), and the meanings of the emitter_step rows and of ESTEP. -/

namespace Sys2Proof.Machine

/-! ## Transitions -/

/-- IDLE with an empty queue: emit 0 (42_emitter.md R182). -/
def emitterIdle (s : State) : State := s.drive (.estep 0 false)

/-- IDLE with a queued frame: dequeue it, encode it whole, emit its first symbol (42_emitter.md R181). A frame that
cannot be encoded is a fault, never an emission (60_exceptions.md R266). -/
def emitterStart (f : Frame) (rest : List Frame) (s : State) : Result :=
  match encodeFrame f with
  | .error _ => .fault .emitterEncodeFailure
  | .ok syms =>
    .next (((s.setQueue rest).setEmitter .outputting syms 1).drive (.estep (syms.getD 0 0) false))

/-- OUTPUTTING with symbols left: emit `esyms[epos]` and advance (42_emitter.md R183). -/
def emitterSymbol (s : State) : State :=
  (s.setEmitter s.estate s.esyms (s.epos + 1)).drive (.estep (s.esyms.getD s.epos.toNat 0) false)

/-- OUTPUTTING with the frame exhausted: emit 0, back to IDLE, the frame counted (42_emitter.md R184, R185). -/
def emitterEnd (s : State) : State := ((s.setEmitter .idle [] 0).countEmitted).drive (.estep 0 true)

/-! ## The step -/

/-- There are symbols of the frame in flight left to emit: `epos < len(esyms)` (42_emitter.md R183). -/
def symbolsLeft (s : State) : Bool := s.epos.toNat < s.esyms.length

/-- One emitter step (42_emitter.md R180, R186). -/
def emitterStep (s : State) : Result :=
  match s.estate with
  | .idle =>
    match s.queue with
    | [] => .next (emitterIdle s)
    | f :: rest => emitterStart f rest s
  | .outputting => if symbolsLeft s then .next (emitterSymbol s) else .next (emitterEnd s)

/-- The emitter key of a step, `e << 2 | n << 1 | p` (30_encoding.md R94). -/
def emitterKey (s : State) : BitVec 8 :=
  ((estateCode s.estate).setWidth 8 <<< 2) |||
    ((BitVec.ofBool (!s.queue.isEmpty)).setWidth 8 <<< 1) ||| (BitVec.ofBool (symbolsLeft s)).setWidth 8

/-- The emitter_step row a step takes (30_encoding.md R94). -/
def emitterRow (s : State) : Instr :=
  match s.estate with
  | .idle => if s.queue.isEmpty then .estepIdleEmpty else .estepIdleStart
  | .outputting => if symbolsLeft s then .estepOutSym else .estepOutEnd

/-! ## Meanings -/

/-- ESTEP and its rows have their turn where the tick order admits an ESTEP (log 7). -/
def emitterTurn (s : State) (k : State → Result) : Result := inOrder (phaseAfterEstep s.phase) k s

/-- ESTEP_IDLE_EMPTY (42_emitter.md R182). -/
def execEstepIdleEmpty (s : State) : Result :=
  emitterTurn s fun s => whenRow "ESTEP_IDLE_EMPTY" (s.estate == .idle && s.queue.isEmpty) (.next (emitterIdle s))

/-- ESTEP_IDLE_START (42_emitter.md R181). -/
def execEstepIdleStart (s : State) : Result :=
  emitterTurn s fun s =>
    match s.queue with
    | [] => .refused (.rowNotSelected "ESTEP_IDLE_START")
    | f :: rest => whenRow "ESTEP_IDLE_START" (s.estate == .idle) (emitterStart f rest s)

/-- ESTEP_OUT_SYM (42_emitter.md R183). -/
def execEstepOutSym (s : State) : Result :=
  emitterTurn s fun s => whenRow "ESTEP_OUT_SYM" (s.estate == .outputting && symbolsLeft s) (.next (emitterSymbol s))

/-- ESTEP_OUT_END (42_emitter.md R184). -/
def execEstepOutEnd (s : State) : Result :=
  emitterTurn s fun s => whenRow "ESTEP_OUT_END" (s.estate == .outputting && !symbolsLeft s) (.next (emitterEnd s))

/-- ESTEP (42_emitter.md R186). -/
def execEstep (s : State) : Result := emitterTurn s emitterStep

end Sys2Proof.Machine
end

