-- ==== Sys2Proof/Machine/Control.lean ====
section
/-! DEFINITION. The queue, reset, counter and tick operations (43_queue_and_control.md): ENQ (R200 to R205), RESET (R206),
READ (R208) and TICK with its commit callback (R210, R211). -/

namespace Sys2Proof.Machine

/-- ENQ of none or a candidate, the checks in the order of 43_queue_and_control.md R205. A queue longer than its
capacity, which no run reaches (10_state.md R41), counts as full. -/
def enqueue (req : Option Frame) (s : State) : Result :=
  match req with
  | none => .next (s.drive (.enqOk false))
  | some f =>
    if !validCandidate f then .refused .malformedCandidate
    else if maxArgs < f.args.length then .next (s.drop .ovTooLong)
    else if queueCap ≤ s.queue.length then .next (s.drop .ovQueueFull)
    else .next ((s.push f).drive (.enqOk true))

/-- READ of one counter, the depth or the flags; no state is written (43_queue_and_control.md R208). -/
def readPort (sel : Selector) (s : State) : State := s.drive (.read sel (s.selected sel))

/-- One host action inside a tick (43_queue_and_control.md R211, R213). -/
def runAct (a : HostAct) (s : State) : Result :=
  match a with
  | .enq f => withCandidate f fun req => enqueue req s
  | .reset => .next s.clear
  | .read sel => .next (readPort sel s)

/-- Host actions in order (43_queue_and_control.md R211). -/
def runActs : List HostAct → State → Result
  | [], s => .next s
  | a :: acts, s => andThen (runAct a s) (runActs acts)

/-- `A(c)`: the actions the launch field gives a frame, none where it has no entry (43_queue_and_control.md R211, log 6). -/
def callbackOf (table : List (Frame × List HostAct)) (c : Frame) : List HostAct :=
  match table with
  | [] => []
  | entry :: rest => if entry.1 = c then entry.2 else callbackOf rest c

/-- The callback performs `A(c)` when the step just performed drove the frame `c` on `commit`, and nothing otherwise
(43_queue_and_control.md R211). -/
def runCallback (s : State) : Result :=
  match s.out.getLast? with
  | some (.pstep (some c) _) => runActs (callbackOf s.cfg.callback c) s
  | _ => .next s

/-- ENQ (43_queue_and_control.md R205). -/
def execEnq (f : Option FrameOp) (s : State) : Result := withCandidate f fun req => enqueue req s.begin

/-- RESET (43_queue_and_control.md R206). No output is driven. -/
def execReset (s : State) : Result := .next s.begin.clear

/-- READ (43_queue_and_control.md R208). -/
def execRead (sel : Selector) (s : State) : Result := .next (readPort sel s.begin)

/-- TICK: PSTEP on `y`, the callback actions if it commits, what else the host performs in the tick, ESTEP
(43_queue_and_control.md R210, R211, R213). -/
def execTick (y : Nib) (acts : List HostAct) (s : State) : Result :=
  inOrder (phaseAfterTick s.phase) (fun s =>
    andThen (parserStep y s) fun s => andThen (runCallback s) fun s => andThen (runActs acts s) emitterStep) s

end Sys2Proof.Machine
end

