-- ==== Sys2Proof/Machine/GatewayOps.lean ====
section
/-! DEFINITION. The gateway functions as operations: PACK, UNPACK, TXDG, RXDG (44_gateway_packing.md). They read and
write no state of the block (20_memory.md R61); the result is driven on the function's port (10_state.md R36). -/

namespace Sys2Proof.Machine

/-- PACK (44_gateway_packing.md R230). -/
def execPack (x : List Nib) (s : State) : Result := .next (s.begin.drive (.bytes (pack x)))

/-- UNPACK (44_gateway_packing.md R231). -/
def execUnpack (b : List Byte) (s : State) : Result := .next (s.begin.drive (.symbols (unpack b)))

/-- TXDG of the frame its operand denotes (44_gateway_packing.md R233). It raises no event (60_exceptions.md R252). -/
def execTxdg (op : FrameOp) (s : State) : Result :=
  withFrame op fun f =>
    match txDatagram f with
    | .ok b => .next (s.begin.drive (.bytes b))
    | .error r => .refused r

/-- RXDG (44_gateway_packing.md R234). -/
def execRxdg (b : List Byte) (s : State) : Result :=
  match rxDatagram b with
  | .ok f => .next (s.begin.drive (.frame f))
  | .error e => .next (s.begin.answerError e)

end Sys2Proof.Machine
end

