-- ==== Sys2Proof/Machine/Dispatch.lean ====
section
/-! DEFINITION. The dispatch: one arm per row of spec/opcode_table.json, each one call of that row's meaning. -/

namespace Sys2Proof.Machine

def exec (i : Instr) (s : State) : Host.Outcome State Fault Refusal :=
  match i with
  | .dctlNop args => Sys2Proof.Machine.execDctlNop args s
  | .dctlPortUnreachable args => Sys2Proof.Machine.execDctlPortUnreachable args s
  | .dctlMalformedFrame args => Sys2Proof.Machine.execDctlMalformedFrame args s
  | .dctlBlockBusy args => Sys2Proof.Machine.execDctlBlockBusy args s
  | .dctlEchoRequest args => Sys2Proof.Machine.execDctlEchoRequest args s
  | .dctlEchoReply args => Sys2Proof.Machine.execDctlEchoReply args s
  | .dctlModeq args => Sys2Proof.Machine.execDctlModeq args s
  | .dctlReset args => Sys2Proof.Machine.execDctlReset args s
  | .dctlSetport args => Sys2Proof.Machine.execDctlSetport args s
  | .dctlStatusReply args => Sys2Proof.Machine.execDctlStatusReply args s
  | .dctlHostUnreachable args => Sys2Proof.Machine.execDctlHostUnreachable args s
  | .dctlNetworkError args => Sys2Proof.Machine.execDctlNetworkError args s
  | .dctlTargetBusy args => Sys2Proof.Machine.execDctlTargetBusy args s
  | .frameData c args => Sys2Proof.Machine.execFrameData c args s
  | .frameDataControl c args => Sys2Proof.Machine.execFrameDataControl c args s
  | .frameStatus c args => Sys2Proof.Machine.execFrameStatus c args s
  | .frameIpv4 c args => Sys2Proof.Machine.execFrameIpv4 c args s
  | .frameIpv4Control c args => Sys2Proof.Machine.execFrameIpv4Control c args s
  | .frameReservedType t c args => Sys2Proof.Machine.execFrameReservedType t c args s
  | .pstepIdleSof => Sys2Proof.Machine.execPstepIdleSof s
  | .pstepIdleNoise y => Sys2Proof.Machine.execPstepIdleNoise y s
  | .pstepType y => Sys2Proof.Machine.execPstepType y s
  | .pstepCode y => Sys2Proof.Machine.execPstepCode y s
  | .pstepLenHi y => Sys2Proof.Machine.execPstepLenHi y s
  | .pstepLenLo y => Sys2Proof.Machine.execPstepLenLo y s
  | .pstepArgs y => Sys2Proof.Machine.execPstepArgs y s
  | .pstepEofOk => Sys2Proof.Machine.execPstepEofOk s
  | .pstepEofDecodeFail => Sys2Proof.Machine.execPstepEofDecodeFail s
  | .pstepEofBad y => Sys2Proof.Machine.execPstepEofBad y s
  | .pstepErrResync => Sys2Proof.Machine.execPstepErrResync s
  | .pstepErrAbsorb y => Sys2Proof.Machine.execPstepErrAbsorb y s
  | .estepIdleEmpty => Sys2Proof.Machine.execEstepIdleEmpty s
  | .estepIdleStart => Sys2Proof.Machine.execEstepIdleStart s
  | .estepOutSym => Sys2Proof.Machine.execEstepOutSym s
  | .estepOutEnd => Sys2Proof.Machine.execEstepOutEnd s
  | .pstep y => Sys2Proof.Machine.execPstep y s
  | .estep => Sys2Proof.Machine.execEstep s
  | .tick y acts => Sys2Proof.Machine.execTick y acts s
  | .enq f => Sys2Proof.Machine.execEnq f s
  | .reset => Sys2Proof.Machine.execReset s
  | .read sel => Sys2Proof.Machine.execRead sel s
  | .encode f => Sys2Proof.Machine.execEncode f s
  | .decode t c a => Sys2Proof.Machine.execDecode t c a s
  | .decodeSym l => Sys2Proof.Machine.execDecodeSym l s
  | .pack x => Sys2Proof.Machine.execPack x s
  | .unpack b => Sys2Proof.Machine.execUnpack b s
  | .txdg f => Sys2Proof.Machine.execTxdg f s
  | .rxdg b => Sys2Proof.Machine.execRxdg b s

end Sys2Proof.Machine
end

