-- ==== Sys2Proof/WellFormed.lean ====
section
/-! DEFINITION. Which terms of Instr are operations a record can carry: the operands of a keyed row lie in that row
and in no earlier one (30_encoding.md R92, R93: rows are tried in table order and the first match wins), the args of a
frame_header row are at most 255 nibbles, and the numeric fields of a constructor call fit the carrier (log 2). -/

namespace Sys2Proof

/-- The carrier's field bound: a numeric field travels in five bytes, more than any field of the spec holds (log 2). -/
def fieldBound : Nat := 2 ^ 40

/-- Every numeric field of the operand fits the carrier. -/
def FrameOp.wellFormed : FrameOp → Bool
  | .raw _ => true
  | .mkData d s _ c => d < fieldBound && s < fieldBound && c < fieldBound
  | .mkCtl o _ => o < fieldBound
  | .mkStatus c p d e => c < fieldBound && p < fieldBound && d < fieldBound && e < fieldBound
  | .mkStatusExt c p d e ip gp =>
    c < fieldBound && p < fieldBound && d < fieldBound && e < fieldBound && ip < fieldBound && gp < fieldBound
  | .mkIPv4 c di du si su _ =>
    c < fieldBound && di < fieldBound && du < fieldBound && si < fieldBound && su < fieldBound
  | .mkIPv4Ctl c di si _ => c < fieldBound && di < fieldBound && si < fieldBound

def HostAct.wellFormed : HostAct → Bool
  | .enq none => true
  | .enq (some f) => f.wellFormed
  | .reset => true
  | .read _ => true

/-- The args of a frame_header row: 0 to 255 nibbles (spec/opcode_table.json, 30_encoding.md R71). -/
def argsFit (args : List Nib) : Bool := args.length ≤ 255

def Instr.wellFormed : Instr → Bool
  | .dctlNop args => argsFit args
  | .dctlPortUnreachable args => argsFit args
  | .dctlMalformedFrame args => argsFit args
  | .dctlBlockBusy args => argsFit args
  | .dctlEchoRequest args => argsFit args
  | .dctlEchoReply args => argsFit args
  | .dctlModeq args => argsFit args
  | .dctlReset args => argsFit args
  | .dctlSetport args => argsFit args
  | .dctlStatusReply args => argsFit args
  | .dctlHostUnreachable args => argsFit args
  | .dctlNetworkError args => argsFit args
  | .dctlTargetBusy args => argsFit args
  | .frameData _ args => argsFit args
  -- CODE 0..12 belongs to the DCTL rows, which are tried first (30_encoding.md R92)
  | .frameDataControl code args => 13 ≤ code.toNat && argsFit args
  | .frameStatus _ args => argsFit args
  | .frameIpv4 _ args => argsFit args
  | .frameIpv4Control _ args => argsFit args
  | .frameReservedType type _ args => 5 ≤ type.toNat && argsFit args
  | .pstepIdleSof => true
  | .pstepIdleNoise y => y != 15
  | .pstepType _ => true
  | .pstepCode _ => true
  | .pstepLenHi _ => true
  | .pstepLenLo _ => true
  | .pstepArgs _ => true
  | .pstepEofOk => true
  | .pstepEofDecodeFail => true
  | .pstepEofBad y => y != 0
  | .pstepErrResync => true
  | .pstepErrAbsorb y => y != 0
  | .estepIdleEmpty => true
  | .estepIdleStart => true
  | .estepOutSym => true
  | .estepOutEnd => true
  | .pstep _ => true
  | .estep => true
  | .tick _ acts => acts.all HostAct.wellFormed
  | .enq none => true
  | .enq (some f) => f.wellFormed
  | .reset => true
  | .read _ => true
  | .encode f => f.wellFormed
  | .decode _ _ _ => true
  | .decodeSym _ => true
  | .pack _ => true
  | .unpack _ => true
  | .txdg f => f.wellFormed
  | .rxdg _ => true

end Sys2Proof
end

