-- ==== Sys2Proof/Decode.lean ====
section
/-! DEFINITION. The operation records the host presents, decoded and encoded. The spec gives keys for the frame_header,
parser_step and emitter_step rows (30_encoding.md R92 to R96) and no bit pattern for the port operations (R97); a record
(the model's own carrier, log 2) is one key byte, one format byte and the operands:

* byte 0: the key of the row, numbered as spec/opcode_table.json numbers it, or the port operation's number, in table order;
* byte 1: the format: 0 frame_header, 1 parser_step, 2 emitter_step, 3 port_operation;
* then the operands: a symbol is one byte 0..15; a list is a byte 1 before each element and a byte 0 at the end; a
  numeric field is five bytes, most significant first; an operand form, a selector and a host action begin with a tag.

The keys 0b110_0000 of PSTEP_EOF_OK and PSTEP_EOF_DECODE_FAIL are one key, told apart by the decode result (R93); in a
record bit 7, which no parser key has, is 1 for the second. -/

namespace Sys2Proof

/-- What reading a record answers: the value and the bytes after it, or why the bytes are no record. -/
abbrev Read (α : Type) := Except Reject (α × List Byte)

/-- Reads on after `r` with the value and the bytes it left. -/
def thenRead {α β : Type} (r : Read α) (k : α → List Byte → Read β) : Read β :=
  match r with
  | .error e => .error e
  | .ok (a, bs) => k a bs

/-! ## Operands -/

def readByte : List Byte → Read Byte
  | [] => .error .truncated
  | b :: rest => .ok (b, rest)

/-- A symbol: a byte 0..15. A byte outside that range is refused (60_exceptions.md R266). -/
def readNib : List Byte → Read Nib
  | [] => .error .truncated
  | b :: rest => if b.toNat < 16 then .ok (b.setWidth 4, rest) else .error .symbolRange

def readBytes : List Byte → Read (List Byte)
  | [] => .error .truncated
  | [m] => if m = 0 then .ok ([], []) else if m = 1 then .error .truncated else .error .badMarker
  | m :: b :: rest =>
    if m = 0 then .ok ([], b :: rest)
    else if m = 1 then thenRead (readBytes rest) fun l bs => .ok (b :: l, bs)
    else .error .badMarker

/-- The bytes as symbols, if each is 0..15. -/
def nibsOfBytes : List Byte → Except Reject (List Nib)
  | [] => .ok []
  | b :: bs => if b.toNat < 16 then (nibsOfBytes bs).map (b.setWidth 4 :: ·) else .error .symbolRange

def readNibs (bs : List Byte) : Read (List Nib) :=
  thenRead (readBytes bs) fun l rest =>
  (nibsOfBytes l).map fun x => (x, rest)

/-- A numeric field: five bytes, most significant first. -/
def readField : List Byte → Read Nat
  | b4 :: b3 :: b2 :: b1 :: b0 :: rest =>
    .ok ((((b4.toNat * 256 + b3.toNat) * 256 + b2.toNat) * 256 + b1.toNat) * 256 + b0.toNat, rest)
  | _ => .error .truncated

def readFrame (bs : List Byte) : Read Frame :=
  thenRead (readNib bs) fun t bs =>
  thenRead (readNib bs) fun c bs =>
  thenRead (readNibs bs) fun a bs =>
  .ok (⟨t, c, a⟩, bs)

def readMkData (bs : List Byte) : Read FrameOp :=
  thenRead (readField bs) fun d bs =>
  thenRead (readField bs) fun s bs =>
  thenRead (readNibs bs) fun p bs =>
  thenRead (readField bs) fun c bs =>
  .ok (.mkData d s p c, bs)

def readMkCtl (bs : List Byte) : Read FrameOp :=
  thenRead (readField bs) fun o bs =>
  thenRead (readNibs bs) fun a bs =>
  .ok (.mkCtl o a, bs)

def readMkStatus (bs : List Byte) : Read FrameOp :=
  thenRead (readField bs) fun c bs =>
  thenRead (readField bs) fun p bs =>
  thenRead (readField bs) fun d bs =>
  thenRead (readField bs) fun e bs =>
  .ok (.mkStatus c p d e, bs)

def readMkStatusExt (bs : List Byte) : Read FrameOp :=
  thenRead (readField bs) fun c bs =>
  thenRead (readField bs) fun p bs =>
  thenRead (readField bs) fun d bs =>
  thenRead (readField bs) fun e bs =>
  thenRead (readField bs) fun ip bs =>
  thenRead (readField bs) fun gp bs =>
  .ok (.mkStatusExt c p d e ip gp, bs)

def readMkIPv4 (bs : List Byte) : Read FrameOp :=
  thenRead (readField bs) fun c bs =>
  thenRead (readField bs) fun di bs =>
  thenRead (readField bs) fun du bs =>
  thenRead (readField bs) fun si bs =>
  thenRead (readField bs) fun su bs =>
  thenRead (readFrame bs) fun f bs =>
  .ok (.mkIPv4 c di du si su f, bs)

def readMkIPv4Ctl (bs : List Byte) : Read FrameOp :=
  thenRead (readField bs) fun c bs =>
  thenRead (readField bs) fun di bs =>
  thenRead (readField bs) fun si bs =>
  thenRead (readNibs bs) fun x bs =>
  .ok (.mkIPv4Ctl c di si x, bs)

/-- A frame operand: a tag 1..7 names its form. -/
def readFrameOp : List Byte → Read FrameOp
  | [] => .error .truncated
  | tag :: bs =>
    match tag.toNat with
    | 1 => thenRead (readFrame bs) fun x bs => .ok (.raw x, bs)
    | 2 => readMkData bs
    | 3 => readMkCtl bs
    | 4 => readMkStatus bs
    | 5 => readMkStatusExt bs
    | 6 => readMkIPv4 bs
    | 7 => readMkIPv4Ctl bs
    | _ => .error .badTag

/-- The operand of ENQ: a byte 0 presents no frame, any other byte begins a frame operand. -/
def readFrameOp? : List Byte → Read (Option FrameOp)
  | [] => .error .truncated
  | tag :: bs => if tag = 0 then .ok (none, bs) else thenRead (readFrameOp (tag :: bs)) fun f bs => .ok (some f, bs)

def readSelector : List Byte → Read Selector
  | [] => .error .truncated
  | tag :: bs =>
    match tag.toNat with
    | 0 => .ok (.parsed, bs)
    | 1 => .ok (.errors, bs)
    | 2 => .ok (.emitted, bs)
    | 3 => .ok (.drops, bs)
    | 4 => .ok (.queueDepth, bs)
    | 5 => .ok (.errorFlags, bs)
    | _ => .error .badTag

/-- One host action: tag 1 ENQ, 2 RESET, 3 READ. -/
def readAct : List Byte → Read HostAct
  | [] => .error .truncated
  | tag :: bs =>
    match tag.toNat with
    | 1 => thenRead (readFrameOp? bs) fun f bs => .ok (.enq f, bs)
    | 2 => .ok (.reset, bs)
    | 3 => thenRead (readSelector bs) fun x bs => .ok (.read x, bs)
    | _ => .error .badTag

/-- The host actions, ended by a byte 0. `fuel` bounds their number; the length of the bytes is enough. -/
def readActs : Nat → List Byte → Read (List HostAct)
  | 0, _ => .error .truncated
  | _ + 1, [] => .error .truncated
  | fuel + 1, tag :: bs =>
    if tag = 0 then .ok ([], bs)
    else
      thenRead (readAct (tag :: bs)) fun act bs =>
      thenRead (readActs fuel bs) fun acts bs =>
      .ok (act :: acts, bs)

/-! ## Rows -/

/-- The DataControl row of a CODE: the 13 opcodes of 30_encoding.md R80, else FRAME_DATACONTROL (R92). -/
def controlRow (code : Nib) (args : List Nib) : Instr :=
  match code.toNat with
  | 0 => .dctlNop args
  | 1 => .dctlPortUnreachable args
  | 2 => .dctlMalformedFrame args
  | 3 => .dctlBlockBusy args
  | 4 => .dctlEchoRequest args
  | 5 => .dctlEchoReply args
  | 6 => .dctlModeq args
  | 7 => .dctlReset args
  | 8 => .dctlSetport args
  | 9 => .dctlStatusReply args
  | 10 => .dctlHostUnreachable args
  | 11 => .dctlNetworkError args
  | 12 => .dctlTargetBusy args
  | _ => .frameDataControl code args

/-- The frame_header row of a frame: TYPE in key bits 7:4, CODE in 3:0, first match in table order (30_encoding.md R92). -/
def frameRow (type code : Nib) (args : List Nib) : Instr :=
  match type.toNat with
  | 0 => .frameData code args
  | 1 => controlRow code args
  | 2 => .frameStatus code args
  | 3 => .frameIpv4 code args
  | 4 => .frameIpv4Control code args
  | _ => .frameReservedType type code args

/-- The parser_step row of a key `pstate_code << 4 | y` (30_encoding.md R93, R95). Bit 7 is the record's own: with the
key 0b110_0000 it says that the decode fails. -/
def parserKeyRow (key : Byte) : Except Reject Instr :=
  let y : Nib := key.setWidth 4
  match (key >>> 4).toNat with
  | 0 => .ok (if y = 15 then .pstepIdleSof else .pstepIdleNoise y)
  | 1 => .ok (.pstepType y)
  | 2 => .ok (.pstepCode y)
  | 3 => .ok (.pstepLenHi y)
  | 4 => .ok (.pstepLenLo y)
  | 5 => .ok (.pstepArgs y)
  | 6 => .ok (if y = 0 then .pstepEofOk else .pstepEofBad y)
  | 7 => .ok (if y = 0 then .pstepErrResync else .pstepErrAbsorb y)
  | 14 => if y = 0 then .ok .pstepEofDecodeFail else .error .badKey
  | _ => .error .badKey

/-- The emitter_step row of a key `e << 2 | n << 1 | p`: 0b00x, 0b01x, 0b1x1, 0b1x0 (30_encoding.md R94, R96). -/
def emitterKeyRow (key : Byte) : Except Reject Instr :=
  match key.toNat with
  | 0 => .ok .estepIdleEmpty
  | 1 => .ok .estepIdleEmpty
  | 2 => .ok .estepIdleStart
  | 3 => .ok .estepIdleStart
  | 4 => .ok .estepOutEnd
  | 5 => .ok .estepOutSym
  | 6 => .ok .estepOutEnd
  | 7 => .ok .estepOutSym
  | _ => .error .badKey

def readTick (bs : List Byte) : Read Instr :=
  thenRead (readNib bs) fun y bs =>
  thenRead (readActs bs.length bs) fun acts bs =>
  .ok (.tick y acts, bs)

def readDecode (bs : List Byte) : Read Instr :=
  thenRead (readNib bs) fun t bs =>
  thenRead (readNib bs) fun c bs =>
  thenRead (readNibs bs) fun a bs =>
  .ok (.decode t c a, bs)

/-- The port operation of a number, in the order of spec/opcode_table.json (30_encoding.md R97; the numbers: log 2). -/
def readPortRow (key : Byte) (bs : List Byte) : Read Instr :=
  match key.toNat with
  | 0 => thenRead (readNib bs) fun x bs => .ok (.pstep x, bs)
  | 1 => .ok (.estep, bs)
  | 2 => readTick bs
  | 3 => thenRead (readFrameOp? bs) fun f bs => .ok (.enq f, bs)
  | 4 => .ok (.reset, bs)
  | 5 => thenRead (readSelector bs) fun x bs => .ok (.read x, bs)
  | 6 => thenRead (readFrameOp bs) fun x bs => .ok (.encode x, bs)
  | 7 => readDecode bs
  | 8 => thenRead (readNibs bs) fun x bs => .ok (.decodeSym x, bs)
  | 9 => thenRead (readNibs bs) fun x bs => .ok (.pack x, bs)
  | 10 => thenRead (readBytes bs) fun x bs => .ok (.unpack x, bs)
  | 11 => thenRead (readFrameOp bs) fun x bs => .ok (.txdg x, bs)
  | 12 => thenRead (readBytes bs) fun x bs => .ok (.rxdg x, bs)
  | _ => .error .badPort

/-- A frame_header record: TYPE and CODE from the key, then the args, at most 255 of them. -/
def readFrameRow (key : Byte) (bs : List Byte) : Read Instr :=
  thenRead (readNibs bs) fun args bs =>
  if argsFit args then .ok (frameRow ((key >>> 4).setWidth 4) (key.setWidth 4) args, bs) else .error .frameTooLong

/-- The operation at the head of the bytes and the bytes after it, or why they are no record. Total on any bytes. -/
def decode : List Byte → Read Instr
  | [] => .error .truncated
  | [_] => .error .truncated
  | key :: format :: bs =>
    match format.toNat with
    | 0 => readFrameRow key bs
    | 1 => (parserKeyRow key).map fun i => (i, bs)
    | 2 => (emitterKeyRow key).map fun i => (i, bs)
    | 3 => readPortRow key bs
    | _ => .error .badFormat

/-! ## The encoder -/

def encodeNib (n : Nib) : Byte := n.setWidth 8

def encodeBytes : List Byte → List Byte
  | [] => [0]
  | b :: l => 1 :: b :: encodeBytes l

def encodeNibs (l : List Nib) : List Byte := encodeBytes (l.map encodeNib)

def encodeField (n : Nat) : List Byte :=
  [.ofNat 8 (n / 4294967296), .ofNat 8 (n / 16777216), .ofNat 8 (n / 65536), .ofNat 8 (n / 256), .ofNat 8 n]

def encodeFrameRecord (f : Frame) : List Byte := encodeNib f.type :: encodeNib f.code :: encodeNibs f.args

def encodeFrameOp : FrameOp → List Byte
  | .raw f => 1 :: encodeFrameRecord f
  | .mkData d s p c => 2 :: (encodeField d ++ encodeField s ++ encodeNibs p ++ encodeField c)
  | .mkCtl o a => 3 :: (encodeField o ++ encodeNibs a)
  | .mkStatus c p d e => 4 :: (encodeField c ++ encodeField p ++ encodeField d ++ encodeField e)
  | .mkStatusExt c p d e ip gp =>
    5 :: (encodeField c ++ encodeField p ++ encodeField d ++ encodeField e ++ encodeField ip ++ encodeField gp)
  | .mkIPv4 c di du si su f =>
    6 :: (encodeField c ++ encodeField di ++ encodeField du ++ encodeField si ++ encodeField su ++ encodeFrameRecord f)
  | .mkIPv4Ctl c di si x => 7 :: (encodeField c ++ encodeField di ++ encodeField si ++ encodeNibs x)

def encodeFrameOp? : Option FrameOp → List Byte
  | none => [0]
  | some f => encodeFrameOp f

def encodeSelector : Selector → Byte
  | .parsed => 0
  | .errors => 1
  | .emitted => 2
  | .drops => 3
  | .queueDepth => 4
  | .errorFlags => 5

def encodeAct : HostAct → List Byte
  | .enq f => 1 :: encodeFrameOp? f
  | .reset => [2]
  | .read sel => [3, encodeSelector sel]

def encodeActs : List HostAct → List Byte
  | [] => [0]
  | a :: l => encodeAct a ++ encodeActs l

/-- The key byte `TYPE << 4 | CODE` or `pstate_code << 4 | y` (30_encoding.md R92, R93). -/
def keyOf (hi lo : Nib) : Byte := hi.setWidth 8 <<< 4 ||| lo.setWidth 8

def encodeHeader (type code : Nib) (args : List Nib) : List Byte := keyOf type code :: 0 :: encodeNibs args

/-- The record of an operation. -/
def encode : Instr → List Byte
  | .dctlNop args => encodeHeader 1 0 args
  | .dctlPortUnreachable args => encodeHeader 1 1 args
  | .dctlMalformedFrame args => encodeHeader 1 2 args
  | .dctlBlockBusy args => encodeHeader 1 3 args
  | .dctlEchoRequest args => encodeHeader 1 4 args
  | .dctlEchoReply args => encodeHeader 1 5 args
  | .dctlModeq args => encodeHeader 1 6 args
  | .dctlReset args => encodeHeader 1 7 args
  | .dctlSetport args => encodeHeader 1 8 args
  | .dctlStatusReply args => encodeHeader 1 9 args
  | .dctlHostUnreachable args => encodeHeader 1 10 args
  | .dctlNetworkError args => encodeHeader 1 11 args
  | .dctlTargetBusy args => encodeHeader 1 12 args
  | .frameData code args => encodeHeader 0 code args
  | .frameDataControl code args => encodeHeader 1 code args
  | .frameStatus code args => encodeHeader 2 code args
  | .frameIpv4 code args => encodeHeader 3 code args
  | .frameIpv4Control code args => encodeHeader 4 code args
  | .frameReservedType type code args => encodeHeader type code args
  | .pstepIdleSof => [keyOf 0 15, 1]
  | .pstepIdleNoise y => [keyOf 0 y, 1]
  | .pstepType y => [keyOf 1 y, 1]
  | .pstepCode y => [keyOf 2 y, 1]
  | .pstepLenHi y => [keyOf 3 y, 1]
  | .pstepLenLo y => [keyOf 4 y, 1]
  | .pstepArgs y => [keyOf 5 y, 1]
  | .pstepEofOk => [keyOf 6 0, 1]
  | .pstepEofDecodeFail => [keyOf 14 0, 1]
  | .pstepEofBad y => [keyOf 6 y, 1]
  | .pstepErrResync => [keyOf 7 0, 1]
  | .pstepErrAbsorb y => [keyOf 7 y, 1]
  | .estepIdleEmpty => [0, 2]
  | .estepIdleStart => [2, 2]
  | .estepOutSym => [5, 2]
  | .estepOutEnd => [4, 2]
  | .pstep y => [0, 3, encodeNib y]
  | .estep => [1, 3]
  | .tick y acts => 2 :: 3 :: encodeNib y :: encodeActs acts
  | .enq f => 3 :: 3 :: encodeFrameOp? f
  | .reset => [4, 3]
  | .read sel => [5, 3, encodeSelector sel]
  | .encode f => 6 :: 3 :: encodeFrameOp f
  | .decode t c a => 7 :: 3 :: encodeNib t :: encodeNib c :: encodeNibs a
  | .decodeSym s => 8 :: 3 :: encodeNibs s
  | .pack x => 9 :: 3 :: encodeNibs x
  | .unpack b => 10 :: 3 :: encodeBytes b
  | .txdg f => 11 :: 3 :: encodeFrameOp f
  | .rxdg b => 12 :: 3 :: encodeBytes b

/-! ## A table word -/

/-- The record of a word that spec/opcode_table.json gives a row. The table's words carry no format, and the three
formats' keys overlap as bytes; what tells them apart is the key's width: 3 bits for emitter_step (30_encoding.md R94),
7 for parser_step (R93), 8 for frame_header (R92), the format tried first in table order (log 13). Every bit above the
word is 0, so the args of a frame_header row are empty. A port operation's row has no bits, so no word names it. -/
def tableRecord (nbits w : Nat) : List Byte :=
  if nbits = 0 then []
  else if nbits ≤ 3 then [.ofNat 8 w, 2]
  else if nbits ≤ 7 then [.ofNat 8 w, 1]
  else [.ofNat 8 w, .ofNat 8 (w / 256), 0]

/-- The operation the decoder reads from a table word of `nbits` bits. -/
def decodeTableWord (nbits w : Nat) : Option Instr :=
  match decode (tableRecord nbits w) with
  | .ok (i, _) => some i
  | .error _ => none

end Sys2Proof
end

