-- ==== Sys2Proof/Machine/Fetch.lean ====
section
/-! DEFINITION. Where a step gets its operation. The block fetches nothing (20_memory.md R65): the host presents
operations, and the model holds those not yet performed as records in State.ops, oldest first (log 1). -/

namespace Sys2Proof.Machine

/-- What the host presents to a step. -/
inductive Fetched where
  /-- nothing: the block waits for the host's next operation (70_reset_and_hazards.md R282) -/
  | waiting
  /-- an operation, and the records after it -/
  | operation (i : Instr) (rest : List Byte)
  /-- bytes that are no record -/
  | bad (r : Reject)
  deriving DecidableEq, Repr

/-- The operation at the head of the host's records. -/
def fetch (s : State) : Fetched :=
  match s.ops with
  | [] => .waiting
  | bs =>
    match decode bs with
    | .ok (i, rest) => .operation i rest
    | .error r => .bad r

/-- The host's records after an operation was taken. -/
def State.setOps (bs : List Byte) (s : State) : State := { s with ops := bs }

/-- Nothing is presented: the block keeps all its state and drives no output (60_exceptions.md R264). -/
def await (s : State) : Result := .next s.begin

/-- The records with a table word's operation put first. -/
def placeWord (nbits w : Nat) (s : State) : State := s.setOps (tableRecord nbits w ++ s.ops)

end Sys2Proof.Machine
end

