-- ==== Sys2Proof/Machine/Step.lean ====
section
/-! DEFINITION. One step: the host's next operation is taken from State.ops and performed; where there is none the block
waits (70_reset_and_hazards.md R282); bytes that are no operation are refused (log 1, log 2). -/

namespace Sys2Proof.Machine

def step (s : State) : Host.Outcome State Fault Refusal :=
  match fetch s with
  | .waiting => await s
  | .operation i rest => exec i (s.setOps rest)
  | .bad r => .refused (.undecodable r)

/-- `s` with the operation of a table word put before the host's other operations, so that the next step performs it
(log 1, log 13). -/
def State.withFetchWord (s : State) (nbits w : Nat) : State := placeWord nbits w s

end Sys2Proof.Machine
end

