-- ==== Sys2Proof/Safety.lean ====
section
/-! DEFINITION. The terms in which claims speak: the invariants the spec states (10_state.md R39, R40, R41, R33), the
launch and end predicates (70_reset_and_hazards.md R283, R294), the host's duties (43_queue_and_control.md R213), the
classes of operations, and runs of operations with their outputs. -/

namespace Sys2Proof.Machine

/-! ## Invariants -/

/-- The parser invariant (10_state.md R39). -/
def ParserInv (s : State) : Prop :=
  match s.pstate with
  | .idle => s.pbuf = [] ∧ s.pexp = 0
  | .type => s.pbuf = [] ∧ s.pexp = 0
  | .code => s.pbuf.length = 1 ∧ s.pexp = 0
  | .lenHi => s.pbuf.length = 2 ∧ s.pexp = 0
  | .lenLo => s.pbuf.length = 3 ∧ s.pexp = 0
  | .args => 4 ≤ s.pbuf.length ∧ s.pbuf.length < 4 + s.pexp.toNat ∧ s.pexp.toNat = be (slice s.pbuf 2 4)
  | .expectEof => s.pbuf.length = 4 + s.pexp.toNat ∧ s.pexp.toNat = be (slice s.pbuf 2 4)
  | .error => s.pbuf.length = 4 + s.pexp.toNat ∧ s.pexp.toNat = be (slice s.pbuf 2 4)

/-- The queue invariant: at most 64 elements, each a Frame (10_state.md R41). -/
def QueueInv (s : State) : Prop := s.queue.length ≤ queueCap ∧ ∀ f ∈ s.queue, validFrame f = true

/-- The emitter invariant (10_state.md R40). -/
def EmitterInv (s : State) : Prop :=
  match s.estate with
  | .idle => s.esyms = [] ∧ s.epos = 0
  | .outputting =>
    (∃ f, validFrame f = true ∧ s.esyms = frameSymbols f) ∧ 1 ≤ s.epos.toNat ∧ s.epos.toNat ≤ s.esyms.length

/-- The status registers: the reserved bits of `eflags` are 0 (10_state.md R33), each counter is CTR_W bits (R30), and a
counter that is not 0 has its sticky bit set (R32). -/
def StatusInv (s : State) : Prop :=
  s.eflags &&& 0b1100 = 0 ∧
  s.framesParsed < 2 ^ s.cfg.ctrW ∧ s.framingErrors < 2 ^ s.cfg.ctrW ∧
  s.framesEmitted < 2 ^ s.cfg.ctrW ∧ s.overflowDrops < 2 ^ s.cfg.ctrW ∧
  (s.framingErrors ≠ 0 → s.eflags.getLsbD 1 = true) ∧ (s.overflowDrops ≠ 0 → s.eflags.getLsbD 0 = true)

/-- The invariants together. -/
def BlockInv (s : State) : Prop := ParserInv s ∧ EmitterInv s ∧ QueueInv s ∧ StatusInv s

/-- `Clean(s)`, the launch predicate (70_reset_and_hazards.md R283): every element of the block at its reset value,
whatever the launch fields, the host's operations and place in the tick, and the record of outputs. -/
def Clean (s : State) : Prop :=
  s = { State.reset with cfg := s.cfg, phase := s.phase, ops := s.ops, out := s.out, events := s.events }

/-- A run is launched from `s` with the counter width `w` and the callback `A` (70_reset_and_hazards.md R283), and no TICK
was performed yet (R284). `A` is asked about Frames only, since only a Frame is committed (41_parser.md R158, log 6). -/
def Launched (w : Nat) (A : Frame → List HostAct) (s : State) : Prop :=
  Clean s ∧ s.phase = .unstarted ∧ s.cfg.ctrW = w ∧ ∀ c, validFrame c = true → callbackOf s.cfg.callback c = A c

/-- Quiescence at the end of a run (70_reset_and_hazards.md R294). -/
def Quiescent (s : State) : Prop := s.pstate = .idle ∧ s.estate = .idle ∧ s.queue = []

/-! ## What an operation drives on the ports -/

/-- The frame an output carries on `commit`. -/
def committedFrame : PortOut → Option Frame
  | .pstep c _ => c
  | _ => none

/-- The frames the outputs of a run carry on `commit`, in order. -/
def commits (outs : List (List PortOut)) : List Frame := outs.flatten.filterMap committedFrame

/-- The symbol an output carries on `rx_sym`, with its `edone`. -/
def emittedSymbol : PortOut → Option (Nib × Bool)
  | .estep y done => some (y, done)
  | _ => none

/-- What the outputs of a run carry on `rx_sym` and `edone`, in order. -/
def emissions (outs : List (List PortOut)) : List (Nib × Bool) := outs.flatten.filterMap emittedSymbol

/-! ## Operations by what they may do -/

/-- READ and the pure functions (20_memory.md R61), and the frame_header rows, taken as decodes (log 9). -/
def readsOnly : Instr → Bool
  | .read _ | .encode _ | .decode _ _ _ | .decodeSym _ | .pack _ | .unpack _ | .txdg _ | .rxdg _
  | .dctlNop _ | .dctlPortUnreachable _ | .dctlMalformedFrame _ | .dctlBlockBusy _ | .dctlEchoRequest _
  | .dctlEchoReply _ | .dctlModeq _ | .dctlReset _ | .dctlSetport _ | .dctlStatusReply _ | .dctlHostUnreachable _
  | .dctlNetworkError _ | .dctlTargetBusy _ | .frameData _ _ | .frameDataControl _ _ | .frameStatus _ _
  | .frameIpv4 _ _ | .frameIpv4Control _ _ | .frameReservedType _ _ _ => true
  | _ => false

/-- PSTEP and its rows. -/
def parserOp : Instr → Bool
  | .pstep _ | .pstepIdleSof | .pstepIdleNoise _ | .pstepType _ | .pstepCode _ | .pstepLenHi _ | .pstepLenLo _
  | .pstepArgs _ | .pstepEofOk | .pstepEofDecodeFail | .pstepEofBad _ | .pstepErrResync | .pstepErrAbsorb _ => true
  | _ => false

/-- ESTEP and its rows. -/
def emitterOp : Instr → Bool
  | .estep | .estepIdleEmpty | .estepIdleStart | .estepOutSym | .estepOutEnd => true
  | _ => false

/-- The symbol an operation of the parser reads: PSTEP, TICK, and the rows, whose key or condition fixes it
(30_encoding.md R93). -/
def inputSymbol : Instr → Option Nib
  | .pstep y | .tick y _ | .pstepIdleNoise y | .pstepType y | .pstepCode y | .pstepLenHi y | .pstepLenLo y
  | .pstepArgs y | .pstepEofBad y | .pstepErrAbsorb y => some y
  | .pstepIdleSof => some sof
  | .pstepEofOk | .pstepEofDecodeFail | .pstepErrResync => some eof
  | _ => none

/-- The host's actions in a TICK on `y` from `s`: `A(c)` where the tick's PSTEP commits `c`, then what else the host
performs (43_queue_and_control.md R210, R211, log 6). -/
def tickActs (s : State) (y : Nib) (acts : List HostAct) : List HostAct :=
  match parserStep y s.begin with
  | .next u => (commits [u.out]).flatMap (callbackOf s.cfg.callback) ++ acts
  | _ => acts

/-- The operation performs a RESET, if it completes: RESET itself, or a TICK among whose actions there is one. -/
def mayReset (s : State) : Instr → Bool
  | .reset => true
  | .tick y acts => (tickActs s y acts).contains .reset
  | _ => false

/-- The host performs PSTEP and ESTEP only as a TICK (43_queue_and_control.md R212): such a host is never out of the tick
order once it is outside a tick (log 7). -/
def hostKeepsTickOrder (ops : List Instr) : Bool := ops.all fun i => !(parserOp i || emitterOp i)

/-- A host action as an operation of its own. -/
def actOperation : HostAct → Instr
  | .enq f => .enq f
  | .reset => .reset
  | .read sel => .read sel

/-- A host action the block has a step for: an ENQ presents none or a candidate frame (43_queue_and_control.md
R203, R213), and a constructor call is inside its domain (40_frame_codec.md R111). -/
def actDefined : HostAct → Bool
  | .enq none => true
  | .enq (some op) =>
    match evalFrameOp op with
    | .ok f => validCandidate f
    | .error _ => false
  | .reset => true
  | .read _ => true

/-! ## Runs -/

/-- The operations performed in order, with what each drove on the output ports; none if one faults or is refused
(70_reset_and_hazards.md R294). -/
def runOps : List Instr → State → Option (State × List (List PortOut))
  | [], s => some (s, [])
  | i :: is, s =>
    match exec i s with
    | .next t => (runOps is t).map fun r => (r.1, t.out :: r.2)
    | _ => none

/-- Some operation of the run performs a RESET. -/
def runMayReset : List Instr → State → Bool
  | [], _ => false
  | i :: is, s =>
    mayReset s i ||
      match exec i s with
      | .next t => runMayReset is t
      | _ => false

/-- The pseudo-operation FEED: one PSTEP per symbol (00_scope.md R10). -/
def feed (symbols : List Nib) : List Instr := symbols.map .pstep

/-- The symbols one PSTEP and one ESTEP at a time, with no host action between: ticks of a host that performs none
(43_queue_and_control.md R213); no callback runs in them (log 6). -/
def feedTicks (symbols : List Nib) : List Instr := symbols.flatMap fun y => [.pstep y, .estep]

/-- What the emitter puts out for a frame: its symbols and one idle 0 (42_emitter.md R188). -/
def lineSymbols (f : Frame) : List Nib := frameSymbols f ++ [0]

/-- The same with `edone`, which is 1 beside the idle 0 only (42_emitter.md R183, R184). -/
def lineOutputs (f : Frame) : List (Nib × Bool) := (frameSymbols f).map (fun y => (y, false)) ++ [(0, true)]

/-- `M` of 41_parser.md R167: the 0 symbols that take the parser to EXPECT_EOF; 0 where the rule gives no number
(IDLE, EXPECT_EOF, ERROR). -/
def zerosToEof (s : State) : Nat :=
  match s.pstate with
  | .type => 4
  | .code => 3
  | .lenHi => 2
  | .lenLo => 1 + 16 * (s.pbuf.getD 2 0).toNat
  | .args => s.pexp.toNat - (s.pbuf.length - 4)
  | _ => 0

end Sys2Proof.Machine
end

