-- ==== Sys2Proof/Certificates/Slice0/Obligations.lean ====
section
/-! DEFINITION. The statements for the provers. Each formalises what the docstring cites of spec/. Throughout, `out` and
`events` are the model's record of what an operation drives on the block's output ports and of the events it raises
(log 3), and `phase` is its record of where the host stands in the tick order (log 7): an operation of the tick leads to
a phase `p` or, out of order, has no move (60_exceptions.md section 5, D25). A state equation
`exec i s = .next { s with … }` says that every field it does not name is unchanged. -/

open Sys2Proof Sys2Proof.Machine

/-! ## The frame codec -/

/-- 30_encoding.md section 2 (the opcode set, D15) and 40_frame_codec.md section 4 (TYPE 1, D14): each DCTL row answers the
DataControlFrame of its CODE with the args unchanged, for every length 0..255; nothing else changes (the block acts on
no opcode, DCTL_RESET included). The rows as decodes: log 9. -/
def Obligations.ControlRowsAnswerTheirFrame : Prop :=
  ∀ (args : List Nib) (s : State), args.length ≤ 255 →
    exec (.dctlNop args) s = .next { s with out := [.frame ⟨1, 0x0, args⟩], events := [] } ∧
    exec (.dctlPortUnreachable args) s = .next { s with out := [.frame ⟨1, 0x1, args⟩], events := [] } ∧
    exec (.dctlMalformedFrame args) s = .next { s with out := [.frame ⟨1, 0x2, args⟩], events := [] } ∧
    exec (.dctlBlockBusy args) s = .next { s with out := [.frame ⟨1, 0x3, args⟩], events := [] } ∧
    exec (.dctlEchoRequest args) s = .next { s with out := [.frame ⟨1, 0x4, args⟩], events := [] } ∧
    exec (.dctlEchoReply args) s = .next { s with out := [.frame ⟨1, 0x5, args⟩], events := [] } ∧
    exec (.dctlModeq args) s = .next { s with out := [.frame ⟨1, 0x6, args⟩], events := [] } ∧
    exec (.dctlReset args) s = .next { s with out := [.frame ⟨1, 0x7, args⟩], events := [] } ∧
    exec (.dctlSetport args) s = .next { s with out := [.frame ⟨1, 0x8, args⟩], events := [] } ∧
    exec (.dctlStatusReply args) s = .next { s with out := [.frame ⟨1, 0x9, args⟩], events := [] } ∧
    exec (.dctlHostUnreachable args) s = .next { s with out := [.frame ⟨1, 0xA, args⟩], events := [] } ∧
    exec (.dctlNetworkError args) s = .next { s with out := [.frame ⟨1, 0xB, args⟩], events := [] } ∧
    exec (.dctlTargetBusy args) s = .next { s with out := [.frame ⟨1, 0xC, args⟩], events := [] }

/-- 40_frame_codec.md section 4 (TYPE 0, D13; TYPE 1, D14; TYPE 4, D18): FRAME_DATA needs 8 args and checks no CODE,
FRAME_DATACONTROL needs none, FRAME_IPV4CONTROL needs 16; each otherwise answers its operands as the Frame. -/
def Obligations.DataAndControlRowsDecode : Prop :=
  ∀ (c : Nib) (args : List Nib) (s : State), args.length ≤ 255 →
    (8 ≤ args.length → exec (.frameData c args) s = .next { s with out := [.frame ⟨0, c, args⟩], events := [] }) ∧
    (args.length < 8 → exec (.frameData c args) s =
      .next { s with out := [.error (.decodeError .dataShort)], events := [.decodeError .dataShort] }) ∧
    exec (.frameDataControl c args) s = .next { s with out := [.frame ⟨1, c, args⟩], events := [] } ∧
    (16 ≤ args.length → exec (.frameIpv4Control c args) s = .next { s with out := [.frame ⟨4, c, args⟩], events := [] }) ∧
    (args.length < 16 → exec (.frameIpv4Control c args) s =
      .next { s with out := [.error (.decodeError .ipv4CtlShort)], events := [.decodeError .ipv4CtlShort] })

/-- 40_frame_codec.md section 4 (TYPE 2, D16): FRAME_STATUS checks the length 7, then the signature 0xA. -/
def Obligations.StatusRowDecodes : Prop :=
  ∀ (c : Nib) (args : List Nib) (s : State), args.length ≤ 255 →
    (args.length < 7 → exec (.frameStatus c args) s =
      .next { s with out := [.error (.decodeError .statusShort)], events := [.decodeError .statusShort] }) ∧
    (7 ≤ args.length → args[0]? ≠ some 0xA → exec (.frameStatus c args) s =
      .next { s with out := [.error (.decodeError .statusSig)], events := [.decodeError .statusSig] }) ∧
    (7 ≤ args.length → args[0]? = some 0xA → exec (.frameStatus c args) s =
      .next { s with out := [.frame ⟨2, c, args⟩], events := [] })

/-- 40_frame_codec.md section 4 (TYPE 3, D17): FRAME_IPV4 checks, in order, the length 28, the inner TYPE 0 or 1, the inner
length and the inner args. -/
def Obligations.Ipv4RowDecodes : Prop :=
  ∀ (c : Nib) (args : List Nib) (s : State), args.length ≤ 255 →
    (args.length < 28 → exec (.frameIpv4 c args) s =
      .next { s with out := [.error (.decodeError .ipv4Short)], events := [.decodeError .ipv4Short] }) ∧
    (∀ t ic hi lo, args[24]? = some t → args[25]? = some ic → args[26]? = some hi → args[27]? = some lo →
      (2 ≤ t.toNat → exec (.frameIpv4 c args) s =
        .next { s with out := [.error (.decodeError .ipv4InnerType)], events := [.decodeError .ipv4InnerType] }) ∧
      (t.toNat ≤ 1 → 16 * hi.toNat + lo.toNat + 28 ≠ args.length → exec (.frameIpv4 c args) s =
        .next { s with out := [.error (.decodeError .ipv4InnerLen)], events := [.decodeError .ipv4InnerLen] }) ∧
      (t.toNat ≤ 1 → 16 * hi.toNat + lo.toNat + 28 = args.length → validArgs t ic (args.drop 28) = false →
        exec (.frameIpv4 c args) s =
          .next { s with out := [.error (.decodeError .ipv4InnerInvalid)], events := [.decodeError .ipv4InnerInvalid] }) ∧
      (t.toNat ≤ 1 → 16 * hi.toNat + lo.toNat + 28 = args.length → validArgs t ic (args.drop 28) = true →
        exec (.frameIpv4 c args) s = .next { s with out := [.frame ⟨3, c, args⟩], events := [] }))

/-- 40_frame_codec.md section 4 (TYPE 5 to 15), for the args a frame can carry (0..255): the TYPE never decodes. Longer args
fail before the TYPE is looked at (D19). -/
def Obligations.ReservedTypeNeverDecodes : Prop :=
  ∀ (t c : Nib) (args : List Nib) (s : State), 5 ≤ t.toNat → args.length ≤ 255 →
    exec (.frameReservedType t c args) s =
      .next { s with out := [.error (.decodeError .unknownType)], events := [.decodeError .unknownType] }

/-- 40_frame_codec.md R112: ENCODE of a Frame answers SOF, TYPE, CODE, the two length nibbles, the args and EOF; nothing
else changes. -/
def Obligations.EncodeLaysTheFrameOut : Prop :=
  ∀ (op : FrameOp) (f : Frame) (s : State), evalFrameOp op = .ok f → validFrame f = true →
    exec (.encode op) s =
      .next { s with
        out := [.symbols ([15, f.type, f.code, .ofNat 4 (f.args.length / 16), .ofNat 4 f.args.length] ++ f.args ++ [0])]
        events := [] }

/-- ENCODE and TXDG of a record that need not be a Frame: up to 255 args it is laid out by the same formula (the model's
reading, log 11); above 255 ENCODE answers EncodeTooLong with the length and no symbols (40_frame_codec.md section 2),
and TXDG, whose operand is a Frame, is refused and raises no event (log 11; EncodeTooLong is ENCODE's alone,
60_exceptions.md section 2). -/
def Obligations.EncodeOfAnyRecord : Prop :=
  ∀ (op : FrameOp) (f : Frame) (s : State), evalFrameOp op = .ok f →
    (f.args.length ≤ 255 →
      exec (.encode op) s = .next { s with out := [.symbols (frameSymbols f)], events := [] } ∧
      exec (.txdg op) s = .next { s with out := [.bytes (pack (frameSymbols f))], events := [] }) ∧
    (255 < f.args.length →
      exec (.encode op) s = .next { s with
        out := [.error (.encodeTooLong f.args.length)], events := [.encodeTooLong f.args.length] } ∧
      exec (.txdg op) s = .refused .noEncoding)

/-- For every TYPE, CODE and args, over-long ones included, DECODE does what the frame_header row of that TYPE and CODE
does: that performing such a row is the decode of a frame with that header is the model's reading of 30_encoding.md
section 5 (log 9, DEDUCED). The rest is 40_frame_codec.md section 4: over-long args fail before the TYPE is looked at
(D19), and args that validate are answered as the Frame. -/
def Obligations.DecodeAgreesWithItsRow : Prop :=
  ∀ (t c : Nib) (a : List Nib) (s : State),
    exec (.decode t c a) s = exec (frameRow t c a) s ∧
    (255 < a.length → exec (.decode t c a) s =
      .next { s with out := [.error (.decodeError .tooLong)], events := [.decodeError .tooLong] }) ∧
    (validArgs t c a = true → exec (.decode t c a) s = .next { s with out := [.frame ⟨t, c, a⟩], events := [] })

/-- 40_frame_codec.md section 4, the checks of every TYPE together: which operands decode, and to what. -/
def Obligations.DecodeSucceedsExactlyOnFrames : Prop :=
  ∀ (t c : Nib) (a : List Nib) (f : Frame), decodeFrame t c a = .ok f ↔
    f = ⟨t, c, a⟩ ∧ a.length ≤ 255 ∧
    (t = 0 ∧ 8 ≤ a.length ∨ t = 1 ∨ t = 2 ∧ 7 ≤ a.length ∧ a[0]? = some 0xA ∨
      t = 3 ∧ (∃ it ic hi lo, a[24]? = some it ∧ a[25]? = some ic ∧ a[26]? = some hi ∧ a[27]? = some lo ∧
        16 * hi.toNat + lo.toNat + 28 = a.length ∧ (it = 0 ∧ 36 ≤ a.length ∨ it = 1)) ∨
      t = 4 ∧ 16 ≤ a.length)

/-- 40_frame_codec.md section 4 (DECODESYM, D19): the envelope checks in their order, then decode of TYPE, CODE and args. -/
def Obligations.DecodeSymbolsChecksTheEnvelope : Prop :=
  ∀ (l : List Nib) (s : State),
    (l[0]? ≠ some 15 → exec (.decodeSym l) s =
      .next { s with out := [.error (.decodeError .noSof)], events := [.decodeError .noSof] }) ∧
    (l[0]? = some 15 → (l.length < 6 ∨ l.getLast? ≠ some 0) → exec (.decodeSym l) s =
      .next { s with out := [.error (.decodeError .noEof)], events := [.decodeError .noEof] }) ∧
    (∀ t c hi lo a, l = [15, t, c, hi, lo] ++ a ++ [0] →
      (16 * hi.toNat + lo.toNat ≠ a.length → exec (.decodeSym l) s =
        .next { s with out := [.error (.decodeError .lenMismatch)], events := [.decodeError .lenMismatch] }) ∧
      (16 * hi.toNat + lo.toNat = a.length → exec (.decodeSym l) s = exec (.decode t c a) s))

/-- 40_frame_codec.md section 4 (round trip; the source's property `decode(encode(f)) == f`): for every Frame and every way
an operand writes it, ENCODE answers symbols that DECODESYM turns back into the Frame. -/
def Obligations.FrameRoundTrip : Prop :=
  ∀ (op : FrameOp) (f : Frame) (s : State), evalFrameOp op = .ok f → validFrame f = true →
    ∃ l, exec (.encode op) s = .next { s with out := [.symbols l], events := [] } ∧
      exec (.decodeSym l) s = .next { s with out := [.frame f], events := [] }

/-- The other direction: what DECODESYM accepts is the encoding of the Frame it answers, so no two symbol lists decode
to one Frame. -/
def Obligations.DecodeSymbolsAcceptsOnlyEncodings : Prop :=
  ∀ (l : List Nib) (f : Frame), decodeSymbols l = .ok f ↔ validFrame f = true ∧ encodeFrame f = .ok l

/-- 40_frame_codec.md section 3: on operands that fit, a constructor's result is a Frame whose views are the operands. -/
def Obligations.ConstructorsGiveTheirFieldsBack : Prop :=
  (∀ d s p c f, mkData d s p c = .ok f →
    validFrame f = true ∧ f.type = 0 ∧ f.code.toNat = c ∧ dataDstPort f = d ∧ dataSrcPort f = s ∧ dataPayload f = p) ∧
  (∀ o a f, mkCtl o a = .ok f → validFrame f = true ∧ f.type = 1 ∧ (ctlOpcode f).toNat = o ∧ ctlArgs f = a) ∧
  (∀ c p d e f, mkStatus c p d e = .ok f →
    validFrame f = true ∧ f.type = 2 ∧ f.code.toNat = c ∧ f.args.length = 7 ∧ statusSignature f = 0xA ∧
    statusPort f = p ∧ (statusRxDepth f).toNat = d ∧ (statusErrorFlags f).toNat = e) ∧
  (∀ c p d e ip gp f, mkStatusExt c p d e ip gp = .ok f →
    validFrame f = true ∧ f.type = 2 ∧ f.code.toNat = c ∧ f.args.length = 20 ∧ statusSignature f = 0xA ∧
    statusPort f = p ∧ (statusRxDepth f).toNat = d ∧ (statusErrorFlags f).toNat = e ∧
    statusLocalIp f = some ip ∧ statusGatewayPort f = some gp ∧ f.args[19]? = some 0) ∧
  (∀ c di du si su g f, mkIPv4 c di du si su g = .ok f →
    validFrame f = true ∧ f.type = 3 ∧ f.code.toNat = c ∧ ipv4DstIp f = di ∧ ipv4DstUdpPort f = du ∧
    ipv4SrcIp f = si ∧ ipv4SrcUdpPort f = su ∧ ipv4Inner f = g) ∧
  (∀ c di si x f, mkIPv4Ctl c di si x = .ok f →
    validFrame f = true ∧ f.type = 4 ∧ f.code.toNat = c ∧ ipv4CtlDstIp f = di ∧ ipv4CtlSrcIp f = si ∧ ipv4CtlContext f = x)

/-- 40_frame_codec.md section 3 (D34): exactly when a constructor has a result; otherwise ENCODE, TXDG and ENQ of the call
are refused by the constructor's refusal and nothing happens. -/
def Obligations.ConstructorsRefuseWhatDoesNotFit : Prop :=
  (∀ d s p c, (∃ f, mkData d s p c = .ok f) ↔ d < 65536 ∧ s < 65536 ∧ c < 16 ∧ p.length ≤ 247) ∧
  (∀ o a, (∃ f, mkCtl o a = .ok f) ↔ o < 16 ∧ a.length ≤ 255) ∧
  (∀ c p d e, (∃ f, mkStatus c p d e = .ok f) ↔ c < 16 ∧ p < 65536 ∧ d < 16 ∧ e < 16) ∧
  (∀ c p d e ip gp, (∃ f, mkStatusExt c p d e ip gp = .ok f) ↔
    c < 16 ∧ p < 65536 ∧ d < 16 ∧ e < 16 ∧ ip < 4294967296 ∧ gp < 65536) ∧
  (∀ c di du si su g, (∃ f, mkIPv4 c di du si su g = .ok f) ↔
    c < 16 ∧ di < 4294967296 ∧ du < 65536 ∧ si < 4294967296 ∧ su < 65536 ∧
    g.type.toNat ≤ 1 ∧ validFrame g = true ∧ g.args.length ≤ 227) ∧
  (∀ c di si x, (∃ f, mkIPv4Ctl c di si x = .ok f) ↔
    c < 16 ∧ di < 4294967296 ∧ si < 4294967296 ∧ x.length ≤ 239) ∧
  (∀ op r s, evalFrameOp op = .error r →
    exec (.encode op) s = .refused r ∧ exec (.txdg op) s = .refused r ∧ exec (.enq (some op)) s = .refused r)

/-! ## The gateway's packing -/

/-- 44_gateway_packing.md R230: PACK answers `ceil(n/2)` bytes; byte `i` is `x[2i] << 4 | x[2i+1]`, the missing nibble of an
odd list taken as the pad 0. -/
def Obligations.PackPutsTwoNibblesInAByte : Prop :=
  ∀ (x : List Nib) (s : State), ∃ b : List Byte,
    exec (.pack x) s = .next { s with out := [.bytes b], events := [] } ∧
    b.length = (x.length + 1) / 2 ∧
    ∀ i, i < b.length → b[i]? = some (.ofNat 8 (16 * (x.getD (2 * i) 0).toNat + (x.getD (2 * i + 1) 0).toNat))

/-- 44_gateway_packing.md R231: UNPACK answers two nibbles a byte, bits 7:4 then bits 3:0, and never drops one. -/
def Obligations.UnpackSplitsBytesHighNibbleFirst : Prop :=
  ∀ (b : List Byte) (s : State), ∃ x : List Nib,
    exec (.unpack b) s = .next { s with out := [.symbols x], events := [] } ∧
    x.length = 2 * b.length ∧
    ∀ i v, b[i]? = some v → x[2 * i]? = some (.ofNat 4 (v.toNat / 16)) ∧ x[2 * i + 1]? = some (.ofNat 4 (v.toNat % 16))

/-- 44_gateway_packing.md section 1 (the packing laws): UNPACK after PACK gives the list back, padded with one 0 when its
length is odd; PACK after UNPACK gives the bytes back. -/
def Obligations.PackingLaws : Prop :=
  (∀ x : List Nib, unpack (pack x) = if x.length % 2 = 1 then x ++ [0] else x) ∧
  (∀ b : List Byte, pack (unpack b) = b)

/-- 44_gateway_packing.md R233: TXDG of a Frame is PACK of its encoding, and it never fails. -/
def Obligations.TxDatagramPacksTheEncoding : Prop :=
  ∀ (op : FrameOp) (f : Frame) (s : State), evalFrameOp op = .ok f → validFrame f = true →
    ∃ l, encodeFrame f = .ok l ∧ exec (.txdg op) s = .next { s with out := [.bytes (pack l)], events := [] }

/-- 44_gateway_packing.md section 2 (round trip): RXDG of TXDG of a Frame is the Frame; the datagram has
`ceil((6 + LEN) / 2)` bytes, byte 0 is `0xF0 | TYPE` and byte 1 is `CODE << 4 | LEN_HI`. -/
def Obligations.DatagramRoundTrip : Prop :=
  ∀ (op : FrameOp) (f : Frame) (s : State), evalFrameOp op = .ok f → validFrame f = true →
    ∃ b, exec (.txdg op) s = .next { s with out := [.bytes b], events := [] } ∧
      exec (.rxdg b) s = .next { s with out := [.frame f], events := [] } ∧
      b.length = (7 + f.args.length) / 2 ∧
      b[0]? = some (.ofNat 8 (240 + f.type.toNat)) ∧
      b[1]? = some (.ofNat 8 (16 * f.code.toNat + f.args.length / 16))

/-- 44_gateway_packing.md section 2 (D20): RXDG's checks in the order of its table of reasons; where they hold, DECODESYM
of the frame's own `N` symbols decides, and DE_LEN_MISMATCH never comes out. -/
def Obligations.RxDatagramReasonsInOrder : Prop :=
  ∀ (b : List Byte) (s : State),
    (b.length < 3 → exec (.rxdg b) s =
      .next { s with out := [.error (.datagramError .short)], events := [.datagramError .short] }) ∧
    (∀ t c hi lo rest, unpack b = t :: c :: hi :: lo :: rest → 3 ≤ b.length → t ≠ 15 → exec (.rxdg b) s =
      .next { s with out := [.error (.decodeError .noSof)], events := [.decodeError .noSof] }) ∧
    (∀ t c hi lo rest n, unpack b = 15 :: t :: c :: hi :: lo :: rest → n = 6 + 16 * hi.toNat + lo.toNat →
      (2 * b.length ≠ n + n % 2 → exec (.rxdg b) s =
        .next { s with out := [.error (.datagramError .len)], events := [.datagramError .len] }) ∧
      (2 * b.length = n + 1 → n % 2 = 1 → (unpack b)[n]? ≠ some 0 → exec (.rxdg b) s =
        .next { s with out := [.error (.datagramError .pad)], events := [.datagramError .pad] }) ∧
      (2 * b.length = n + n % 2 → (n % 2 = 1 → (unpack b)[n]? = some 0) →
        exec (.rxdg b) s = exec (.decodeSym ((unpack b).take n)) s)) ∧
    (∀ t, exec (.rxdg b) s = .next t → t.out ≠ [.error (.decodeError .lenMismatch)])

/-- 44_gateway_packing.md section 2 (pad safety): a parser in IDLE with empty registers fed the nibbles of a Frame's
datagram commits the Frame once, raises no error, and ends in IDLE with an empty buffer, the pad read as noise. That
`framesParsed` counts the commit, and wraps, is 41_parser.md section 3 with the spec's decisions D30 and D9. -/
def Obligations.PadIsSafeForTheParser : Prop :=
  ∀ (f : Frame) (b : List Byte) (s : State), validFrame f = true → txDatagram f = .ok b →
    s.phase = .unstarted → s.pstate = .idle → s.pbuf = [] → s.pexp = 0 →
    ∃ t outs, runOps (feed (unpack b)) s = some (t, outs) ∧ commits outs = [f] ∧
      t.pstate = .idle ∧ t.pbuf = [] ∧ t.framingErrors = s.framingErrors ∧ t.eflags = s.eflags ∧
      t.framesParsed = (s.framesParsed + 1) % 2 ^ s.cfg.ctrW

/-! ## The parser -/

/-- 41_parser.md section 2 (IDLE and ERROR; that SOF is not stored is D3): PSTEP_IDLE_SOF goes to TYPE with an empty
buffer; noise in IDLE and a symbol other than 0 in ERROR change no register and count nothing. -/
def Obligations.SofStartsAndNoiseIsIgnored : Prop :=
  ∀ (s : State) (y : Nib) (p : TickPhase), phaseAfterPstep s.phase = some p →
    (s.pstate = .idle → exec .pstepIdleSof s =
      .next { s with pstate := .type, pbuf := [], pexp := 0, phase := p, out := [.pstep none false], events := [] }) ∧
    (s.pstate = .idle → y ≠ 15 →
      exec (.pstepIdleNoise y) s = .next { s with phase := p, out := [.pstep none false], events := [] }) ∧
    (s.pstate = .error → y ≠ 0 →
      exec (.pstepErrAbsorb y) s = .next { s with phase := p, out := [.pstep none false], events := [] })

/-- 41_parser.md section 2 (TYPE, CODE, LEN_HI): every symbol is appended verbatim and the parser advances, with no event.
That the rows run in the tick order and lead to its next phase is the model's reading (log 7). -/
def Obligations.HeaderNibblesAreAppendedVerbatim : Prop :=
  ∀ (s : State) (y : Nib) (p : TickPhase), phaseAfterPstep s.phase = some p →
    (s.pstate = .type → exec (.pstepType y) s =
      .next { s with pstate := .code, pbuf := s.pbuf ++ [y], phase := p, out := [.pstep none false], events := [] }) ∧
    (s.pstate = .code → exec (.pstepCode y) s =
      .next { s with pstate := .lenHi, pbuf := s.pbuf ++ [y], phase := p, out := [.pstep none false], events := [] }) ∧
    (s.pstate = .lenHi → exec (.pstepLenHi y) s =
      .next { s with pstate := .lenLo, pbuf := s.pbuf ++ [y], phase := p, out := [.pstep none false], events := [] })

/-- 41_parser.md section 2 (LEN_LO): `e = 16*pbuf[2] + y` is the length to come; 0 skips ARGS. The out-of-range branch is
never taken (C1), in any state. -/
def Obligations.LengthChoosesArgsOrEof : Prop :=
  ∀ (s : State) (y hi : Nib) (p : TickPhase), phaseAfterPstep s.phase = some p → s.pstate = .lenLo → (s.pbuf ++ [y])[2]? = some hi →
    (16 * hi.toNat + y.toNat = 0 → exec (.pstepLenLo y) s =
      .next { s with pstate := .expectEof, pbuf := s.pbuf ++ [y], pexp := 0, phase := p, out := [.pstep none false], events := [] }) ∧
    (16 * hi.toNat + y.toNat ≠ 0 → exec (.pstepLenLo y) s =
      .next { s with
        pstate := .args, pbuf := s.pbuf ++ [y], pexp := .ofNat 8 (16 * hi.toNat + y.toNat)
        phase := p, out := [.pstep none false], events := [] })

/-- 41_parser.md section 2 (ARGS): appended; EXPECT_EOF when the args read equal `pexp`, ERROR when they exceed it (which
no run reaches, 10_state.md section 8), else ARGS. -/
def Obligations.ArgsAreCountedAgainstTheLength : Prop :=
  ∀ (s : State) (y : Nib) (p : TickPhase), phaseAfterPstep s.phase = some p → s.pstate = .args →
    (s.pbuf.length + 1 < s.pexp.toNat + 4 → exec (.pstepArgs y) s =
      .next { s with pbuf := s.pbuf ++ [y], phase := p, out := [.pstep none false], events := [] }) ∧
    (s.pbuf.length + 1 = s.pexp.toNat + 4 → exec (.pstepArgs y) s =
      .next { s with pstate := .expectEof, pbuf := s.pbuf ++ [y], phase := p, out := [.pstep none false], events := [] }) ∧
    (s.pexp.toNat + 4 < s.pbuf.length + 1 → exec (.pstepArgs y) s =
      .next { s with
        pstate := .error, pbuf := s.pbuf ++ [y], framingErrors := (s.framingErrors + 1) % 2 ^ s.cfg.ctrW
        eflags := (s.eflags ||| 0b0010) &&& 0b0011, phase := p, out := [.pstep none true], events := [.feArgsOverrun] })

/-- 41_parser.md section 2 (EXPECT_EOF, decode succeeds; the count is D30): the Frame is committed and the parser is back
in IDLE with an empty buffer. -/
def Obligations.EofCommitsTheFrame : Prop :=
  ∀ (s : State) (p : TickPhase) (t c : Nib) (rest : List Nib) (f : Frame), phaseAfterPstep s.phase = some p →
    s.pstate = .expectEof → s.pbuf = t :: c :: rest → decodeFrame t c (s.pbuf.drop 4) = .ok f →
    exec .pstepEofOk s = .next { s with
      pstate := .idle, pbuf := [], pexp := 0, framesParsed := (s.framesParsed + 1) % 2 ^ s.cfg.ctrW
      phase := p, out := [.pstep (some f) false], events := [] }

/-- 41_parser.md sections 2 and 3, 60_exceptions.md section 3 (entry into ERROR; D6, D7): a decode failure or a non-zero
symbol where EOF is due enters ERROR, counts one framing error, sets TX_FRAMING_ERR and keeps `pbuf` and `pexp`. -/
def Obligations.BadEofEntersError : Prop :=
  ∀ (s : State) (p : TickPhase), phaseAfterPstep s.phase = some p →
    (∀ t c rest r, s.pstate = .expectEof → s.pbuf = t :: c :: rest → decodeFrame t c (s.pbuf.drop 4) = .error r →
      exec .pstepEofDecodeFail s = .next { s with
        pstate := .error, framingErrors := (s.framingErrors + 1) % 2 ^ s.cfg.ctrW
        eflags := (s.eflags ||| 0b0010) &&& 0b0011, phase := p, out := [.pstep none true], events := [.feDecode r] }) ∧
    (∀ y : Nib, s.pstate = .expectEof → y ≠ 0 →
      exec (.pstepEofBad y) s = .next { s with
        pstate := .error, framingErrors := (s.framingErrors + 1) % 2 ^ s.cfg.ctrW
        eflags := (s.eflags ||| 0b0010) &&& 0b0011, phase := p, out := [.pstep none true], events := [.feNoEof] })

/-- 41_parser.md section 2 (ERROR, symbol 0): the parser returns to IDLE with an empty buffer, and that is no error; that
`pexp` is 0 beside an empty buffer is the spec's decision D6. -/
def Obligations.ZeroResynchronises : Prop :=
  ∀ (s : State) (p : TickPhase), phaseAfterPstep s.phase = some p → s.pstate = .error →
    exec .pstepErrResync s =
      .next { s with pstate := .idle, pbuf := [], pexp := 0, phase := p, out := [.pstep none false], events := [] }

/-- 41_parser.md section 4 and 30_encoding.md section 5: in every state PSTEP does what the parser_step row it selects does,
and the row is the one its key `pstate_code << 4 | y` decodes to; only where the decode of the buffer fails is it
PSTEP_EOF_DECODE_FAIL, which shares the key of PSTEP_EOF_OK and has bit 7 set in a record (log 2). -/
def Obligations.PstepTakesItsRow : Prop :=
  ∀ (s : State) (y : Nib) (rest : List Byte), exec (.pstep y) s = exec (parserRow s y) s ∧
    (parserRow s y ≠ .pstepEofDecodeFail → decode (parserKey s y :: 1 :: rest) = .ok (parserRow s y, rest)) ∧
    (parserRow s y = .pstepEofDecodeFail →
      decode (parserKey s y :: 1 :: rest) = .ok (.pstepEofOk, rest) ∧
      decode ((parserKey s y ||| 0x80) :: 1 :: rest) = .ok (.pstepEofDecodeFail, rest))

/-- 41_parser.md section 1 and 42_emitter.md section 1: in the tick order PSTEP completes on every symbol from any state that
meets the parser invariant, and ESTEP from any state whose queue holds Frames; each drives exactly its outputs, keeps the
invariant and leads to the next phase of the tick order (log 7). -/
def Obligations.StepsAlwaysComplete : Prop :=
  (∀ (s : State) (y : Nib) (p : TickPhase), phaseAfterPstep s.phase = some p → ParserInv s →
    ∃ t c e, exec (.pstep y) s = .next t ∧ t.out = [.pstep c e] ∧ ParserInv t ∧ (c ≠ none → e = false) ∧ t.phase = p) ∧
  (∀ (s : State) (p : TickPhase), phaseAfterEstep s.phase = some p → QueueInv s →
    ∃ t y d, exec .estep s = .next t ∧ t.out = [.estep y d] ∧ QueueInv t ∧ t.phase = p)

/-- 60_exceptions.md section 5 and 43_queue_and_control.md section 4 (D25): PSTEP, its rows and TICK have no move inside a
tick, ESTEP and its rows have none between ticks; where the order begins is the model's reading (log 7). Then the model's
own stops (log 8, log 10): in the tick order a parser_step or emitter_step row whose condition does not hold is refused
by its name; a parser row that reads `pbuf` past its end, which no run reaches, faults. -/
def Obligations.RowsStopOutsideTheirCondition : Prop :=
  ∀ (s : State) (y : Nib),
    (s.phase = .inside → (∀ i, parserOp i = true → exec i s = .refused .outOfTickOrder) ∧
      ∀ acts, exec (.tick y acts) s = .refused .outOfTickOrder) ∧
    (s.phase = .between → ∀ i, emitterOp i = true → exec i s = .refused .outOfTickOrder) ∧
    (s.phase ≠ .inside →
      (s.pstate ≠ .idle → exec .pstepIdleSof s = .refused (.rowNotSelected "PSTEP_IDLE_SOF")) ∧
      (s.pstate ≠ .idle ∨ y = 15 → exec (.pstepIdleNoise y) s = .refused (.rowNotSelected "PSTEP_IDLE_NOISE")) ∧
      (s.pstate ≠ .type → exec (.pstepType y) s = .refused (.rowNotSelected "PSTEP_TYPE")) ∧
      (s.pstate ≠ .code → exec (.pstepCode y) s = .refused (.rowNotSelected "PSTEP_CODE")) ∧
      (s.pstate ≠ .lenHi → exec (.pstepLenHi y) s = .refused (.rowNotSelected "PSTEP_LEN_HI")) ∧
      (s.pstate ≠ .lenLo → exec (.pstepLenLo y) s = .refused (.rowNotSelected "PSTEP_LEN_LO")) ∧
      (s.pstate ≠ .args → exec (.pstepArgs y) s = .refused (.rowNotSelected "PSTEP_ARGS")) ∧
      (s.pstate ≠ .expectEof → exec .pstepEofOk s = .refused (.rowNotSelected "PSTEP_EOF_OK")) ∧
      (s.pstate ≠ .expectEof → exec .pstepEofDecodeFail s = .refused (.rowNotSelected "PSTEP_EOF_DECODE_FAIL")) ∧
      (∀ r, decodeBuffer s.pbuf = some (.error r) → exec .pstepEofOk s = .refused (.rowNotSelected "PSTEP_EOF_OK")) ∧
      (∀ f, decodeBuffer s.pbuf = some (.ok f) →
        exec .pstepEofDecodeFail s = .refused (.rowNotSelected "PSTEP_EOF_DECODE_FAIL")) ∧
      (s.pstate ≠ .expectEof ∨ y = 0 → exec (.pstepEofBad y) s = .refused (.rowNotSelected "PSTEP_EOF_BAD")) ∧
      (s.pstate ≠ .error → exec .pstepErrResync s = .refused (.rowNotSelected "PSTEP_ERR_RESYNC")) ∧
      (s.pstate ≠ .error ∨ y = 0 → exec (.pstepErrAbsorb y) s = .refused (.rowNotSelected "PSTEP_ERR_ABSORB")) ∧
      (s.pstate = .lenLo → s.pbuf.length < 2 → exec (.pstepLenLo y) s = .fault .parserBufferIndex) ∧
      (s.pstate = .expectEof → s.pbuf.length < 2 →
        exec .pstepEofOk s = .fault .parserBufferIndex ∧ exec .pstepEofDecodeFail s = .fault .parserBufferIndex)) ∧
    (s.phase ≠ .between →
      (s.estate ≠ .idle ∨ s.queue ≠ [] → exec .estepIdleEmpty s = .refused (.rowNotSelected "ESTEP_IDLE_EMPTY")) ∧
      (s.estate ≠ .idle ∨ s.queue = [] → exec .estepIdleStart s = .refused (.rowNotSelected "ESTEP_IDLE_START")) ∧
      (s.estate ≠ .outputting ∨ s.esyms.length ≤ s.epos.toNat →
        exec .estepOutSym s = .refused (.rowNotSelected "ESTEP_OUT_SYM")) ∧
      (s.estate ≠ .outputting ∨ s.epos.toNat < s.esyms.length →
        exec .estepOutEnd s = .refused (.rowNotSelected "ESTEP_OUT_END")))

/-- 41_parser.md section 5 (parser determinism; the source's property): from IDLE with empty registers, FEED of the
encoding of a Frame commits it on its last step and nothing before; every other step is quiet, and the parser ends in
IDLE with an empty buffer. After the first TICK, where each PSTEP is followed by an ESTEP (log 7), the same symbols commit
the same Frame, whatever the emitter holds. -/
def Obligations.ParserCommitsWhatWasEncoded : Prop :=
  ∀ (f : Frame) (l : List Nib) (s : State), validFrame f = true → encodeFrame f = .ok l →
    s.pstate = .idle → s.pbuf = [] → s.pexp = 0 →
    (s.phase = .unstarted → runOps (feed l) s = some
      ({ s with
          framesParsed := (s.framesParsed + 1) % 2 ^ s.cfg.ctrW, out := [.pstep (some f) false], events := [] },
        List.replicate (l.length - 1) [.pstep none false] ++ [[.pstep (some f) false]])) ∧
    (s.phase ≠ .inside → QueueInv s → ∃ t outs, runOps (feedTicks l) s = some (t, outs) ∧ commits outs = [f] ∧
      t.pstate = .idle ∧ t.pbuf = [] ∧ t.pexp = 0 ∧ t.framingErrors = s.framingErrors ∧ t.eflags = s.eflags ∧
      t.framesParsed = (s.framesParsed + 1) % 2 ^ s.cfg.ctrW)

/-- 41_parser.md section 5 (resynchronisation): from any state that meets the parser invariant, the parser fed only zeros is
in IDLE after at most `M + 2` of them, and `M <= 255`, so 257 are enough; so too where an ESTEP follows each PSTEP, as after
the first TICK (log 7). -/
def Obligations.ZerosReachIdle : Prop :=
  ∀ (s : State), ParserInv s → zerosToEof s ≤ 255 ∧
    (s.phase = .unstarted →
      ∃ k t outs, k ≤ zerosToEof s + 2 ∧ runOps (feed (List.replicate k 0)) s = some (t, outs) ∧ t.pstate = .idle) ∧
    (s.phase ≠ .inside → QueueInv s →
      ∃ k t outs, k ≤ zerosToEof s + 2 ∧ runOps (feedTicks (List.replicate k 0)) s = some (t, outs) ∧ t.pstate = .idle)

/-- 41_parser.md section 5 and 60_exceptions.md section 3: from a state that meets the parser invariant, an operation that
brings the parser into ERROR does so from EXPECT_EOF and raises FE_NO_EOF or FE_DECODE, after which only an ENQ of the
same tick may raise an overflow event; one that takes it out of ERROR leaves it in IDLE with empty registers. -/
def Obligations.ErrorIsEnteredOnlyAtEof : Prop :=
  ∀ (i : Instr) (s t : State), ParserInv s → exec i s = .next t →
    (s.pstate ≠ .error → t.pstate = .error →
      s.pstate = .expectEof ∧ ∃ e rest, t.events = e :: rest ∧ (e = .feNoEof ∨ ∃ r, e = .feDecode r) ∧
        (parserOp i = true → rest = []) ∧ ∀ x ∈ rest, x = .ovTooLong ∨ x = .ovQueueFull) ∧
    (s.pstate = .error → t.pstate ≠ .error → t.pstate = .idle ∧ t.pbuf = [] ∧ t.pexp = 0)

/-! ## The emitter -/

/-- 42_emitter.md section 2 (IDLE): with an empty queue 0 is emitted and no register changes; with a queued frame it is
dequeued, encoded whole, and its SOF emitted on the same step, the position set to 1. A frame of more than 255 args,
which no run holds in the queue, is the fault "emitter encode failure" (D28). -/
def Obligations.IdleEmitterStartsTheHeadFrame : Prop :=
  ∀ (s : State) (p : TickPhase), phaseAfterEstep s.phase = some p → s.estate = .idle →
    (s.queue = [] → exec .estepIdleEmpty s = .next { s with phase := p, out := [.estep 0 false], events := [] }) ∧
    (∀ f q, s.queue = f :: q → f.args.length ≤ 255 → exec .estepIdleStart s = .next { s with
      queue := q, estate := .outputting, epos := 1
      esyms := [15, f.type, f.code, .ofNat 4 (f.args.length / 16), .ofNat 4 f.args.length] ++ f.args ++ [0]
      phase := p, out := [.estep 15 false], events := [] }) ∧
    (∀ f q, s.queue = f :: q → 255 < f.args.length →
      exec .estepIdleStart s = .fault .emitterEncodeFailure ∧ exec .estep s = .fault .emitterEncodeFailure)

/-- 42_emitter.md sections 2 and 3 (OUTPUTTING; D26): a symbol left is emitted and the position advances; with none left 0
is emitted, the emitter returns to IDLE, `edone` is 1 and the frame is counted. The queue is not read. -/
def Obligations.OutputtingEmitterEmitsThenEnds : Prop :=
  ∀ (s : State) (p : TickPhase), phaseAfterEstep s.phase = some p → s.estate = .outputting →
    (∀ y, s.esyms[s.epos.toNat]? = some y →
      exec .estepOutSym s = .next { s with epos := s.epos + 1, phase := p, out := [.estep y false], events := [] }) ∧
    (s.esyms.length ≤ s.epos.toNat →
      exec .estepOutEnd s = .next { s with
        estate := .idle, esyms := [], epos := 0, framesEmitted := (s.framesEmitted + 1) % 2 ^ s.cfg.ctrW
        phase := p, out := [.estep 0 true], events := [] })

/-- 42_emitter.md section 4 and 30_encoding.md section 5: in every state ESTEP does what the emitter_step row it selects
does, and the row is the one its key `e << 2 | n << 1 | p` decodes to. -/
def Obligations.EstepTakesItsRow : Prop :=
  ∀ (s : State) (rest : List Byte),
    exec .estep s = exec (emitterRow s) s ∧ decode (emitterKey s :: 2 :: rest) = .ok (emitterRow s, rest)

/-- 42_emitter.md section 5 (frame integrity, steps per frame): from IDLE with the frames `fs` at the head of the queue.
Before the first TICK the next ESTEPs put out each frame's symbols in order, one `edone` 0 after each, `N + 1` steps a
frame and nothing between. After it, where a PSTEP of any symbol stands before each ESTEP (log 7), they put out the same,
one symbol a tick. And in every run that performs no RESET, whatever else it performs (TICKs with their callbacks and
ENQs among it), as many symbols as `fs` need are just these: then the emitter is IDLE, exactly `fs` are gone from the
head of the queue, and each is counted once. -/
def Obligations.EmitterPutsFramesOutWhole : Prop :=
  ∀ (fs q : List Frame) (s : State), (∀ f ∈ fs, validFrame f = true) →
    s.estate = .idle → s.esyms = [] → s.epos = 0 → s.queue = fs ++ q →
    (s.phase = .unstarted → ∃ t, runOps (List.replicate (fs.flatMap lineSymbols).length .estep) s =
        some (t, fs.flatMap fun f => (frameSymbols f).map (fun y => [.estep y false]) ++ [[.estep 0 true]]) ∧
      t.estate = .idle ∧ t.esyms = [] ∧ t.epos = 0 ∧ t.queue = q ∧
      t.framesEmitted = (ctrInc s.cfg.ctrW)^[fs.length] s.framesEmitted) ∧
    (s.phase ≠ .inside → ParserInv s → QueueInv s →
      ∀ ys : List Nib, ys.length = (fs.flatMap lineSymbols).length →
      ∃ t outs, runOps (feedTicks ys) s = some (t, outs) ∧ emissions outs = fs.flatMap lineOutputs ∧
        t.estate = .idle ∧ t.esyms = [] ∧ t.epos = 0 ∧ t.queue = q ∧
        t.framesEmitted = (ctrInc s.cfg.ctrW)^[fs.length] s.framesEmitted) ∧
    (∀ ops t outs, runOps ops s = some (t, outs) → runMayReset ops s = false →
      (emissions outs).length = (fs.flatMap lineOutputs).length →
      emissions outs = fs.flatMap lineOutputs ∧ t.estate = .idle ∧ t.esyms = [] ∧ t.epos = 0 ∧
        (∃ more, t.queue = q ++ more) ∧ t.framesEmitted = (ctrInc s.cfg.ctrW)^[fs.length] s.framesEmitted)

/-- 42_emitter.md section 5 (loop-back): a peer parser in IDLE that reads what the emitter puts out for any frames commits
exactly those frames in order, raises no error, and is back in IDLE: fed by PSTEPs alone before its first TICK, by PSTEPs
each followed by an ESTEP after it (log 7), and in every run that performs no RESET and whose PSTEPs and TICKs read just
these symbols, whatever its callback does. -/
def Obligations.PeerParserCommitsTheLine : Prop :=
  ∀ (fs : List Frame) (p : State), (∀ f ∈ fs, validFrame f = true) →
    p.pstate = .idle → p.pbuf = [] → p.pexp = 0 →
    (p.phase = .unstarted → ∃ t outs, runOps (feed (fs.flatMap lineSymbols)) p = some (t, outs) ∧ commits outs = fs ∧
      t.pstate = .idle ∧ t.pbuf = [] ∧ t.framingErrors = p.framingErrors ∧
      t.framesParsed = (ctrInc p.cfg.ctrW)^[fs.length] p.framesParsed) ∧
    (p.phase ≠ .inside → QueueInv p → ∃ t outs, runOps (feedTicks (fs.flatMap lineSymbols)) p = some (t, outs) ∧
      commits outs = fs ∧ t.pstate = .idle ∧ t.pbuf = [] ∧ t.framingErrors = p.framingErrors ∧
      t.framesParsed = (ctrInc p.cfg.ctrW)^[fs.length] p.framesParsed) ∧
    (∀ ops t outs, runOps ops p = some (t, outs) → runMayReset ops p = false →
      ops.filterMap inputSymbol = fs.flatMap lineSymbols →
      commits outs = fs ∧ t.pstate = .idle ∧ t.pbuf = [] ∧ t.pexp = 0 ∧ t.framingErrors = p.framingErrors ∧
        t.framesParsed = (ctrInc p.cfg.ctrW)^[fs.length] p.framesParsed)

/-! ## The queue, RESET, READ, TICK -/

/-- 43_queue_and_control.md R200, R204: ENQ of no frame is rejected silently; ENQ of a Frame into a queue that is not full
appends it at the tail and answers true, with no flag and no counter changed. -/
def Obligations.EnqueueAppendsAFrame : Prop :=
  ∀ (s : State),
    exec (.enq none) s = .next { s with out := [.enqOk false], events := [] } ∧
    (∀ op f, evalFrameOp op = .ok f → validFrame f = true → s.queue.length < 64 →
      exec (.enq (some op)) s = .next { s with queue := s.queue ++ [f], out := [.enqOk true], events := [] })

/-- 43_queue_and_control.md section 1 (queue full), for a queue of 64: a Frame is dropped, the drop counted, RX_OVERFLOW set,
`Q` unchanged; the wrap and the sticky bit are the spec's decisions D9 and D8. -/
def Obligations.FullQueueDropsAFrame : Prop :=
  ∀ (s : State) (op : FrameOp) (f : Frame), evalFrameOp op = .ok f → validFrame f = true → s.queue.length = 64 →
    exec (.enq (some op)) s = .next { s with
      overflowDrops := (s.overflowDrops + 1) % 2 ^ s.cfg.ctrW, eflags := (s.eflags ||| 0b0001) &&& 0b0011
      out := [.enqOk false], events := [.ovQueueFull] }

/-- 43_queue_and_control.md section 1 (over-long, D8; malformed, D24): a candidate of more than 255 args is dropped as a full
queue drops it, whether or not the queue is full; one that violates validArgs apart from its length is refused. -/
def Obligations.OverlongAndMalformedCandidates : Prop :=
  ∀ (s : State) (op : FrameOp) (f : Frame), evalFrameOp op = .ok f →
    (validCandidate f = true → 255 < f.args.length → exec (.enq (some op)) s = .next { s with
      overflowDrops := (s.overflowDrops + 1) % 2 ^ s.cfg.ctrW, eflags := (s.eflags ||| 0b0001) &&& 0b0011
      out := [.enqOk false], events := [.ovTooLong] }) ∧
    (validCandidate f = false → exec (.enq (some op)) s = .refused .malformedCandidate)

/-- 43_queue_and_control.md section 4 (queue bound; the source's property): from an empty queue, 64 ENQs of Frames succeed
and the 65th fails and counts one drop, whatever the frames and however they are written. -/
def Obligations.SixtyFourFramesFillTheQueue : Prop :=
  ∀ (ops : List FrameOp) (fs : List Frame) (op : FrameOp) (f : Frame) (s : State),
    ops.map evalFrameOp = fs.map .ok → (∀ g ∈ fs, validFrame g = true) → fs.length = 64 →
    evalFrameOp op = .ok f → validFrame f = true → s.queue = [] →
    ∃ t, runOps ((ops ++ [op]).map fun o => .enq (some o)) s =
        some (t, List.replicate 64 [.enqOk true] ++ [[.enqOk false]]) ∧
      t.queue = fs ∧ t.overflowDrops = (s.overflowDrops + 1) % 2 ^ s.cfg.ctrW ∧ t.eflags.getLsbD 0 = true

/-- 43_queue_and_control.md section 2 (D10): RESET gives every element of the block its reset value, drives no output and
raises no event, in every state; the launch fields and the host's own operations and place in the tick stay (log 18). -/
def Obligations.ResetClearsTheBlock : Prop :=
  ∀ (s : State), exec .reset s = .next
    { pstate := .idle, pbuf := [], pexp := 0, estate := .idle, esyms := [], epos := 0, queue := []
      framesParsed := 0, framingErrors := 0, framesEmitted := 0, overflowDrops := 0, eflags := 0
      cfg := s.cfg, phase := s.phase, ops := s.ops, out := [], events := [] }

/-- 43_queue_and_control.md section 3 (D32) and 10_state.md section 5: READ answers the selected counter, the queue's length
or the flags with bits 3:2 read as 0, and changes no state. -/
def Obligations.ReadAnswersTheCounters : Prop :=
  ∀ (s : State),
    exec (.read .parsed) s = .next { s with out := [.read .parsed s.framesParsed], events := [] } ∧
    exec (.read .errors) s = .next { s with out := [.read .errors s.framingErrors], events := [] } ∧
    exec (.read .emitted) s = .next { s with out := [.read .emitted s.framesEmitted], events := [] } ∧
    exec (.read .drops) s = .next { s with out := [.read .drops s.overflowDrops], events := [] } ∧
    exec (.read .queueDepth) s = .next { s with out := [.read .queueDepth s.queue.length], events := [] } ∧
    exec (.read .errorFlags) s = .next { s with out := [.read .errorFlags (s.eflags.toNat % 4)], events := [] }

/-- 43_queue_and_control.md section 4 (D25): a TICK is PSTEP, then, if it commits `c`, the ENQ, RESET and READ operations
`A(c)` of the callback, then what else the host performs in the tick (log 6), then ESTEP; it leaves what those operations
leave one after another and drives what they drive. The first TICK starts the tick order (log 7). -/
def Obligations.TickIsPstepCallbackEstep : Prop :=
  ∀ (y : Nib) (acts : List HostAct) (s : State),
    (∀ (u v : State) (outs : List (List PortOut)), s.phase = .between → exec (.pstep y) s = .next u →
      runOps (((commits [u.out]).flatMap (callbackOf s.cfg.callback) ++ acts).map actOperation ++ [.estep]) u =
        some (v, outs) →
      ∃ ev, exec (.tick y acts) s = .next { v with out := u.out ++ outs.flatten, events := ev }) ∧
    (s.phase = .unstarted → exec (.tick y acts) s = exec (.tick y acts) { s with phase := .between })

/-- 43_queue_and_control.md section 4: from a state outside a tick that meets the invariants, TICK completes on every symbol
where the callback of the frame it commits and the host present none or a candidate frame to ENQ, keeps the invariants,
and the next tick may follow. -/
def Obligations.TickCompletes : Prop :=
  ∀ (y : Nib) (acts : List HostAct) (s : State), BlockInv s → s.phase ≠ .inside →
    (tickActs s y acts).all actDefined = true →
    ∃ t, exec (.tick y acts) s = .next t ∧ BlockInv t ∧ t.phase = .between

/-- 70_reset_and_hazards.md section 2 (same-tick forwarding): a Frame enqueued by the callback of the tick that commits, with
the emitter IDLE and the queue empty, starts on that tick's ESTEP: its SOF is on the output. -/
def Obligations.CallbackFrameStartsOnTheSameTick : Prop :=
  ∀ (s u : State) (y : Nib) (c f : Frame) (op : FrameOp),
    exec (.pstep y) s = .next u → u.out = [.pstep (some c) false] → s.estate = .idle → s.queue = [] →
    callbackOf s.cfg.callback c = [.enq (some op)] → evalFrameOp op = .ok f → validFrame f = true →
    ∃ t, exec (.tick y []) s = .next t ∧
      t.out = [.pstep (some c) false, .enqOk true, .estep 15 false] ∧
      t.estate = .outputting ∧ t.esyms = frameSymbols f ∧ t.epos = 1 ∧ t.queue = []

/-- 70_reset_and_hazards.md section 4: in a quiescent state a TICK with input 0 changes nothing of the block and emits 0,
whatever the callback would do, since nothing is committed; the tick is done (log 7). -/
def Obligations.QuiescentTickChangesNothing : Prop :=
  ∀ (s : State), Quiescent s → s.phase ≠ .inside →
    exec (.tick 0 []) s =
      .next { s with phase := .between, out := [.pstep none false, .estep 0 false], events := [] }

/-! ## The whole machine -/

/-- 10_state.md section 1 (the reset column) and 70_reset_and_hazards.md section 1 (D11): the state after power-on, element
by element. That it is launched with CTR_W 32 and a callback without actions is the model's choice (log 4, log 6). The
invariants of 10_state.md section 8 hold in every clean state, for every CTR_W and callback. -/
def Obligations.ResetStateIsCleanAndMeetsTheInvariants : Prop :=
  State.reset.pstate = .idle ∧ State.reset.pbuf = [] ∧ State.reset.pexp = 0 ∧
  State.reset.estate = .idle ∧ State.reset.esyms = [] ∧ State.reset.epos = 0 ∧ State.reset.queue = [] ∧
  State.reset.framesParsed = 0 ∧ State.reset.framingErrors = 0 ∧ State.reset.framesEmitted = 0 ∧
  State.reset.overflowDrops = 0 ∧ State.reset.eflags = 0 ∧
  Clean State.reset ∧ Launched 32 (fun _ => []) State.reset ∧ ∀ s, Clean s → BlockInv s

/-- 10_state.md section 8: every step from a state that meets the invariants (parser, emitter, queue, status registers)
leaves a state that meets them. -/
def Obligations.EveryStepKeepsTheInvariants : Prop :=
  ∀ s t, BlockInv s → step s = .next t → BlockInv t

/-- 60_exceptions.md section 5: a fault marks a state the rules make unreachable: no step from a state that meets the
invariants faults, whatever the host presents. -/
def Obligations.NoStepFaults : Prop :=
  ∀ (s : State) (e : Fault), BlockInv s → step s ≠ .fault e

/-- 20_memory.md section 3: READ and the pure functions write no state: nothing but the record of their outputs and events
changes. The same of the 19 frame_header rows is log 9 (DEDUCED), which takes a row as a decode, with 30_encoding.md
section 2: the block acts on no opcode. -/
def Obligations.PureOperationsChangeNoState : Prop :=
  ∀ (i : Instr) (s t : State), readsOnly i = true → exec i s = .next t →
    t = { s with out := t.out, events := t.events }

/-- 41_parser.md, 42_emitter.md, 43_queue_and_control.md, 60_exceptions.md section 3: PSTEP and its rows leave the emitter,
the queue and the other counters alone; ESTEP and its rows leave the parser, the other counters and the flags alone; ENQ
leaves the parser, the emitter and the other counters alone; no operation changes a launch field, CTR_W or the callback
(70_reset_and_hazards.md section 1), or the operations the host has yet to see performed (log 1); and only PSTEP, ESTEP,
their rows and TICK move the host's place in the tick order (log 7). -/
def Obligations.EachPartLeavesTheOthersAlone : Prop :=
  ∀ (i : Instr) (s t : State), exec i s = .next t →
    t.cfg = s.cfg ∧ t.ops = s.ops ∧
    (parserOp i = true → t.estate = s.estate ∧ t.esyms = s.esyms ∧ t.epos = s.epos ∧ t.queue = s.queue ∧
      t.framesEmitted = s.framesEmitted ∧ t.overflowDrops = s.overflowDrops ∧ phaseAfterPstep s.phase = some t.phase) ∧
    (emitterOp i = true → t.pstate = s.pstate ∧ t.pbuf = s.pbuf ∧ t.pexp = s.pexp ∧
      t.framesParsed = s.framesParsed ∧ t.framingErrors = s.framingErrors ∧ t.overflowDrops = s.overflowDrops ∧
      t.eflags = s.eflags ∧ phaseAfterEstep s.phase = some t.phase) ∧
    (∀ f, i = .enq f → t.pstate = s.pstate ∧ t.pbuf = s.pbuf ∧ t.pexp = s.pexp ∧ t.estate = s.estate ∧
      t.esyms = s.esyms ∧ t.epos = s.epos ∧ t.framesParsed = s.framesParsed ∧ t.framingErrors = s.framingErrors ∧
      t.framesEmitted = s.framesEmitted) ∧
    (∀ y acts, i = .tick y acts → s.phase ≠ .inside ∧ t.phase = .between) ∧
    (parserOp i = false → emitterOp i = false → (∀ y acts, i ≠ .tick y acts) → t.phase = s.phase)

/-- 10_state.md section 5 (sticky flags, D8) and 43_queue_and_control.md R209: a set error flag stays set through every
operation that performs no RESET: for a TICK, neither in `A(c)` where it commits `c` nor beside it (log 6). -/
def Obligations.ErrorFlagsAreSticky : Prop :=
  ∀ (i : Instr) (s t : State), mayReset s i = false → exec i s = .next t →
    (s.eflags.getLsbD 0 = true → t.eflags.getLsbD 0 = true) ∧ (s.eflags.getLsbD 1 = true → t.eflags.getLsbD 1 = true)

/-- 41_parser.md section 3, 42_emitter.md section 3, 43_queue_and_control.md section 3: through an operation that performs no
RESET (for a TICK, neither in `A(c)` where it commits `c` nor beside it, log 6), each counter advances by one per event
and by nothing else: `framesParsed` per frame on `commit`, `framingErrors` per `ferr`, `framesEmitted` per `edone`,
`overflowDrops` per overflow event. -/
def Obligations.CountersCountTheirEvents : Prop :=
  ∀ (i : Instr) (s t : State), mayReset s i = false → exec i s = .next t →
    t.framesParsed = (ctrInc s.cfg.ctrW)^[(commits [t.out]).length] s.framesParsed ∧
    t.framingErrors = (ctrInc s.cfg.ctrW)^[t.out.countP fun o => match o with | .pstep _ e => e | _ => false] s.framingErrors ∧
    t.framesEmitted = (ctrInc s.cfg.ctrW)^[t.out.countP fun o => match o with | .estep _ d => d | _ => false] s.framesEmitted ∧
    t.overflowDrops =
      (ctrInc s.cfg.ctrW)^[t.events.countP fun e => e == .ovTooLong || e == .ovQueueFull] s.overflowDrops

/-! ## Records and steps (the model's own carrier, log 1 and log 2) -/

/-- Decode and encode agree: the record of every well-formed operation, whatever follows it, decodes to the operation and
what follows, with every operand at every value. -/
def Obligations.DecodeOfEncodeIsTheOperation : Prop :=
  ∀ (i : Instr) (rest : List Byte), i.wellFormed = true → decode (encode i ++ rest) = .ok (i, rest)

/-- What the decoder answers is a well-formed operation: each keyed row holds only the keys the table gives it. -/
def Obligations.DecodedOperationsAreWellFormed : Prop :=
  ∀ (bs rest : List Byte) (i : Instr), decode bs = .ok (i, rest) → i.wellFormed = true

/-- Keys written out from 30_encoding.md section 5 decode to their rows, one or more a family. Around the keys everything is
the model's own carrier (log 2): the format byte after the key, the list markers, and the whole records `[0, 3, 15]` and
`[0, 3, 16]` of PSTEP, to which the spec gives no bit pattern. That the symbol 16 is refused is 60_exceptions.md section 5
(D25). -/
def Obligations.WordsOfTheTableDecode : Prop :=
  decode [0b00010100, 0, 1, 9, 1, 9, 0] = .ok (.dctlEchoRequest [9, 9], []) ∧
  decode [0b00001001, 0, 0] = .ok (.frameData 9 [], []) ∧
  decode [0b00011101, 0, 0] = .ok (.frameDataControl 13 [], []) ∧
  decode [0b01010000, 0, 0] = .ok (.frameReservedType 5 0 [], []) ∧
  decode [0b00001111, 1] = .ok (.pstepIdleSof, []) ∧
  decode [0b01000010, 1] = .ok (.pstepLenLo 2, []) ∧
  decode [0b01100111, 1] = .ok (.pstepEofBad 7, []) ∧
  decode [0b010, 2] = .ok (.estepIdleStart, []) ∧
  decode [0b100, 2] = .ok (.estepOutEnd, []) ∧
  decode [0, 3, 15] = .ok (.pstep 15, []) ∧
  decode [0, 3, 16] = .error .symbolRange

/-- A step runs the operation the host's records begin with, on the state with that record taken; with none presented the
block keeps all its state and drives nothing; bytes that are no record are refused by the reason. -/
def Obligations.StepRunsTheDecodedOperation : Prop :=
  ∀ (s : State),
    (∀ i rest, decode s.ops = .ok (i, rest) → step s = exec i { s with ops := rest }) ∧
    (s.ops = [] → step s = .next { s with out := [], events := [] }) ∧
    (∀ r, s.ops ≠ [] → decode s.ops = .error r → step s = .refused (.undecodable r))
end

