-- ==== Sys2Proof/Laws/Codec.lean ====
section
/-! SUPPORT. The laws of the nibble primitives and of the codec's functions: one spec lemma per function. -/

namespace Sys2Proof.Machine

/-! ## be and nib_k (00_scope.md R9) -/

@[simp] theorem be_nil : be [] = 0 := rfl

theorem be_concat (l : List Nib) (n : Nib) : be (l ++ [n]) = 16 * be l + n.toNat := by
  simp [be, List.foldl_append]

@[simp] theorem be_pair (a b : Nib) : be [a, b] = 16 * a.toNat + b.toNat := by simp [be]

theorem be_lt (l : List Nib) : be l < 16 ^ l.length := by
  induction l using List.reverseRecOn with
  | nil => simp
  | append_singleton l n ih =>
    have hn : n.toNat < 16 := n.isLt
    rw [be_concat, List.length_append, List.length_singleton, pow_succ]
    omega

@[simp] theorem nibs_length (k v : Nat) : (nibs k v).length = k := by
  induction k generalizing v with
  | zero => rfl
  | succ k ih => simp [nibs, ih]

theorem be_nibs (k v : Nat) : be (nibs k v) = v % 16 ^ k := by
  induction k generalizing v with
  | zero => simp [nibs, Nat.mod_one]
  | succ k ih =>
    have hv : (BitVec.ofNat 4 v).toNat = v % 16 := BitVec.toNat_ofNat v 4
    rw [nibs, be_concat, ih, hv, pow_succ, Nat.mul_comm (16 ^ k) 16, Nat.mod_mul]
    omega

theorem be_nibs_of_fits {k v : Nat} (h : fits k v = true) : be (nibs k v) = v := by
  rw [be_nibs, Nat.mod_eq_of_lt]
  simpa [fits] using h

theorem nibs_be (l : List Nib) : nibs l.length (be l) = l := by
  induction l using List.reverseRecOn with
  | nil => rfl
  | append_singleton l n ih =>
    have hn : n.toNat < 16 := n.isLt
    have hd : (16 * be l + n.toNat) / 16 = be l := by omega
    have hm : BitVec.ofNat 4 (16 * be l + n.toNat) = n := by
      apply BitVec.eq_of_toNat_eq
      rw [BitVec.toNat_ofNat]
      omega
    rw [List.length_append, List.length_singleton, be_concat, nibs, hd, hm, ih]

@[simp] theorem slice_length {α : Type} (l : List α) (i j : Nat) : (slice l i j).length = min (j - i) (l.length - i) := by
  simp [slice]

/-- The middle of three lists. -/
theorem slice_middle {α : Type} (a b c : List α) (i j : Nat) (hi : a.length = i) (hj : a.length + b.length = j) :
    slice (a ++ b ++ c) i j = b := by
  subst hi hj
  simp [slice]

/-- The first of two lists. -/
theorem slice_first {α : Type} (b c : List α) (j : Nat) (hj : b.length = j) : slice (b ++ c) 0 j = b := by
  subst hj
  simp [slice]

/-- Two neighbouring elements. -/
theorem slice_pair {α : Type} (l : List α) (i : Nat) (x y : α) (hx : l[i]? = some x) (hy : l[i + 1]? = some y) :
    slice l i (i + 2) = [x, y] := by
  obtain ⟨h1, rfl⟩ := List.getElem?_eq_some_iff.1 hx
  obtain ⟨h2, rfl⟩ := List.getElem?_eq_some_iff.1 hy
  rw [slice, Nat.add_sub_cancel_left, List.drop_eq_getElem_cons h1, List.drop_eq_getElem_cons h2]
  rfl

/-! ## Encode -/

theorem nibs_two (n : Nat) : nibs 2 n = [.ofNat 4 (n / 16), .ofNat 4 n] := rfl

/-- The layout with the two length nibbles written out (40_frame_codec.md R112). -/
theorem frameSymbols_eq (f : Frame) :
    frameSymbols f = [15, f.type, f.code, .ofNat 4 (f.args.length / 16), .ofNat 4 f.args.length] ++ f.args ++ [0] := rfl

@[simp] theorem frameSymbols_length (f : Frame) : (frameSymbols f).length = 6 + f.args.length := by
  simp [frameSymbols]
  omega

/-- `encode` succeeds exactly on records of at most 255 args (40_frame_codec.md R112, R119). -/
theorem encodeFrame_ok_iff (f : Frame) (l : List Nib) :
    encodeFrame f = .ok l ↔ f.args.length ≤ 255 ∧ l = frameSymbols f := by
  unfold encodeFrame maxArgs
  split <;> simp_all [eq_comm]

/-! ## Decode -/

/-- `decode` answers its operands when the length bound and the TYPE's checks hold (40_frame_codec.md R127). -/
theorem decodeFrame_ok_iff (t c : Nib) (a : List Nib) (f : Frame) :
    decodeFrame t c a = .ok f ↔ a.length ≤ 255 ∧ checkType t a = none ∧ f = ⟨t, c, a⟩ := by
  unfold decodeFrame maxArgs
  split
  · constructor
    · simp
    · omega
  · have hle : a.length ≤ 255 := by omega
    split
    · next r hr => simp [hr]
    · next hr => simp [hr, hle, eq_comm]

theorem validFrame_iff (f : Frame) :
    validFrame f = true ↔ f.args.length ≤ 255 ∧ checkType f.type f.args = none := by
  unfold validFrame validArgs
  constructor
  · intro h
    cases hd : decodeFrame f.type f.code f.args with
    | error r => simp [hd, Except.isOk, Except.toBool] at h
    | ok g => exact ⟨((decodeFrame_ok_iff ..).1 hd).1, ((decodeFrame_ok_iff ..).1 hd).2.1⟩
  · rintro ⟨hl, hc⟩
    rw [(decodeFrame_ok_iff f.type f.code f.args f).2 ⟨hl, hc, rfl⟩]
    rfl

theorem validFrame_length {f : Frame} (h : validFrame f = true) : f.args.length ≤ 255 := ((validFrame_iff f).1 h).1

theorem decodeFrame_of_valid {f : Frame} (h : validFrame f = true) :
    decodeFrame f.type f.code f.args = .ok f :=
  (decodeFrame_ok_iff ..).2 ⟨((validFrame_iff f).1 h).1, ((validFrame_iff f).1 h).2, rfl⟩

/-- What decode answers is a Frame (40_frame_codec.md R120). -/
theorem valid_of_decodeFrame {t c : Nib} {a : List Nib} {f : Frame} (h : decodeFrame t c a = .ok f) :
    validFrame f = true := by
  obtain ⟨hl, hc, rfl⟩ := (decodeFrame_ok_iff ..).1 h
  exact (validFrame_iff _).2 ⟨hl, hc⟩

/-- A candidate of at most 255 args is a Frame (10_state.md R34, R35). -/
theorem valid_of_candidate {f : Frame} (h : validCandidate f = true) (hl : f.args.length ≤ 255) :
    validFrame f = true := by
  rw [validFrame_iff]
  simp only [validCandidate, Option.isNone_iff_eq_none] at h
  exact ⟨hl, h⟩

theorem candidate_of_valid {f : Frame} (h : validFrame f = true) : validCandidate f = true := by
  simp only [validCandidate, Option.isNone_iff_eq_none]
  exact ((validFrame_iff f).1 h).2

theorem encodeFrame_of_valid {f : Frame} (h : validFrame f = true) : encodeFrame f = .ok (frameSymbols f) :=
  (encodeFrame_ok_iff ..).2 ⟨validFrame_length h, rfl⟩

/-! ## Packing -/

theorem pack_byte_high (a b : Nib) : ((a.setWidth 8 <<< 4 ||| b.setWidth 8 : Byte) >>> 4).setWidth 4 = a := by
  revert a b
  decide

theorem pack_byte_low (a b : Nib) : ((a.setWidth 8 <<< 4 ||| b.setWidth 8 : Byte)).setWidth 4 = b := by
  revert a b
  decide

theorem unpack_length (b : List Byte) : (unpack b).length = 2 * b.length := by
  induction b with
  | nil => rfl
  | cons x l ih => simp [unpack, ih]; omega

theorem unpack_append (b c : List Byte) : unpack (b ++ c) = unpack b ++ unpack c := by
  induction b with
  | nil => rfl
  | cons x l ih => simp [unpack, ih]

end Sys2Proof.Machine
end

