-- ==== Sys2Proof/Laws/Decode.lean ====
section
/-! SUPPORT. Each operand reader reads back what its encoder wrote, whatever bytes follow. -/

namespace Sys2Proof

@[simp] theorem thenRead_ok {α β : Type} (a : α) (bs : List Byte) (k : α → List Byte → Read β) :
    thenRead (.ok (a, bs)) k = k a bs := rfl

/-- A read that goes on after another answered: the first answered, and the second from where it stopped. -/
theorem thenRead_ok_iff {α β : Type} {r : Read α} {k : α → List Byte → Read β} {q : β × List Byte} :
    thenRead r k = .ok q ↔ ∃ a bs, r = .ok (a, bs) ∧ k a bs = .ok q := by
  unfold thenRead
  split <;> simp_all

@[simp] theorem readNib_encodeNib (n : Nib) (rest : List Byte) : readNib (encodeNib n :: rest) = .ok (n, rest) := by
  have h : (encodeNib n).toNat < 16 ∧ (encodeNib n).setWidth 4 = n := by
    revert n
    decide
  simp [readNib, h]

@[simp] theorem readBytes_encodeBytes (l rest : List Byte) : readBytes (encodeBytes l ++ rest) = .ok (l, rest) := by
  induction l with
  | nil => cases rest <;> simp [encodeBytes, readBytes]
  | cons b l ih => simp [encodeBytes, readBytes, ih]

@[simp] theorem nibsOfBytes_map (l : List Nib) : nibsOfBytes (l.map encodeNib) = .ok l := by
  induction l with
  | nil => rfl
  | cons n l ih =>
    have h : (encodeNib n).toNat < 16 ∧ (encodeNib n).setWidth 4 = n := by
      revert n
      decide
    simp only [List.map_cons, nibsOfBytes, if_pos h.1, ih]
    simp [Except.map, h.2]

@[simp] theorem readNibs_encodeNibs (l : List Nib) (rest : List Byte) :
    readNibs (encodeNibs l ++ rest) = .ok (l, rest) := by
  simp [readNibs, encodeNibs, Except.map]

@[simp] theorem readField_encodeField (n : Nat) (h : n < fieldBound) (rest : List Byte) :
    readField (encodeField n ++ rest) = .ok (n, rest) := by
  have h : n < 1099511627776 := h
  simp only [encodeField, readField, List.cons_append, List.nil_append, BitVec.toNat_ofNat]
  congr 2
  omega

@[simp] theorem readFrame_encodeFrameRecord (f : Frame) (rest : List Byte) :
    readFrame (encodeFrameRecord f ++ rest) = .ok (f, rest) := by
  simp [readFrame, encodeFrameRecord]

@[simp] theorem readFrameOp_encodeFrameOp (op : FrameOp) (h : op.wellFormed = true) (rest : List Byte) :
    readFrameOp (encodeFrameOp op ++ rest) = .ok (op, rest) := by
  cases op <;>
    simp_all [FrameOp.wellFormed, encodeFrameOp, readFrameOp, readMkData, readMkCtl, readMkStatus, readMkStatusExt,
      readMkIPv4, readMkIPv4Ctl, List.append_assoc]

/-- An operand's record begins with its form's tag, which is not 0. -/
theorem encodeFrameOp_tag (op : FrameOp) : ∃ tag l, encodeFrameOp op = tag :: l ∧ tag ≠ 0#8 := by
  cases op <;> exact ⟨_, _, rfl, by decide⟩

@[simp] theorem readFrameOp?_encodeFrameOp? (op : Option FrameOp) (h : ∀ f, op = some f → f.wellFormed = true)
    (rest : List Byte) : readFrameOp? (encodeFrameOp? op ++ rest) = .ok (op, rest) := by
  cases op with
  | none => rfl
  | some f =>
    obtain ⟨tag, l, hl, ht⟩ := encodeFrameOp_tag f
    have hr := readFrameOp_encodeFrameOp f (h f rfl) rest
    rw [hl, List.cons_append] at hr
    simp [encodeFrameOp?, hl, readFrameOp?, ht, hr]

@[simp] theorem readSelector_encodeSelector (sel : Selector) (rest : List Byte) :
    readSelector (encodeSelector sel :: rest) = .ok (sel, rest) := by
  cases sel <;> rfl

@[simp] theorem readAct_encodeAct (a : HostAct) (h : a.wellFormed = true) (rest : List Byte) :
    readAct (encodeAct a ++ rest) = .ok (a, rest) := by
  cases a with
  | enq f =>
    have hf : ∀ g, f = some g → g.wellFormed = true := by
      rintro g rfl
      exact h
    simp [encodeAct, readAct, readFrameOp?_encodeFrameOp? f hf]
  | reset => rfl
  | read sel => simp [encodeAct, readAct]

theorem encodeAct_tag (a : HostAct) : ∃ tag l, encodeAct a = tag :: l ∧ tag ≠ 0#8 := by
  cases a <;> exact ⟨_, _, rfl, by decide⟩

theorem encodeAct_length_pos (a : HostAct) : 0 < (encodeAct a).length := by
  obtain ⟨tag, l, hl, -⟩ := encodeAct_tag a
  simp [hl]

theorem encodeActs_length (acts : List HostAct) : acts.length < (encodeActs acts).length := by
  induction acts with
  | nil => simp [encodeActs]
  | cons a acts ih =>
    have := encodeAct_length_pos a
    simp only [encodeActs, List.length_append, List.length_cons]
    omega

/-- The host actions are read back with any fuel above their number. -/
theorem readActs_encodeActs (acts : List HostAct) (h : acts.all HostAct.wellFormed = true) (rest : List Byte)
    (fuel : Nat) (hf : acts.length < fuel) : readActs fuel (encodeActs acts ++ rest) = .ok (acts, rest) := by
  induction acts generalizing fuel with
  | nil =>
    obtain ⟨k, rfl⟩ : ∃ k, fuel = k + 1 := ⟨fuel - 1, by omega⟩
    simp [encodeActs, readActs]
  | cons a acts ih =>
    obtain ⟨k, rfl⟩ : ∃ k, fuel = k + 1 := ⟨fuel - 1, by omega⟩
    simp only [List.all_cons, Bool.and_eq_true] at h
    obtain ⟨tag, l, hl, ht⟩ := encodeAct_tag a
    have hr := readAct_encodeAct a h.1 (encodeActs acts ++ rest)
    have hk : acts.length < k := by simpa using hf
    rw [hl, List.cons_append] at hr
    simp [encodeActs, hl, readActs, ht, hr, ih h.2 k hk]

/-- A key's two halves are read back. -/
theorem keyOf_halves (hi lo : Nib) :
    (keyOf hi lo >>> 4).setWidth 4 = hi ∧ (keyOf hi lo).setWidth 4 = lo ∧ (keyOf hi lo >>> 4).toNat = hi.toNat := by
  revert hi lo
  decide

end Sys2Proof
end

