-- ==== Sys2Proof/Laws/State.lean ====
section
/-! SUPPORT. The small lemmas of State: what each named update leaves in each field, true by unfolding. A proof over
states uses these and never unfolds a record update. -/

namespace Sys2Proof.Machine

section
variable (s : State)

@[simp] theorem State.begin_pstate : (s.begin).pstate = s.pstate := rfl
@[simp] theorem State.begin_pbuf : (s.begin).pbuf = s.pbuf := rfl
@[simp] theorem State.begin_pexp : (s.begin).pexp = s.pexp := rfl
@[simp] theorem State.begin_estate : (s.begin).estate = s.estate := rfl
@[simp] theorem State.begin_esyms : (s.begin).esyms = s.esyms := rfl
@[simp] theorem State.begin_epos : (s.begin).epos = s.epos := rfl
@[simp] theorem State.begin_queue : (s.begin).queue = s.queue := rfl
@[simp] theorem State.begin_framesParsed : (s.begin).framesParsed = s.framesParsed := rfl
@[simp] theorem State.begin_framingErrors : (s.begin).framingErrors = s.framingErrors := rfl
@[simp] theorem State.begin_framesEmitted : (s.begin).framesEmitted = s.framesEmitted := rfl
@[simp] theorem State.begin_overflowDrops : (s.begin).overflowDrops = s.overflowDrops := rfl
@[simp] theorem State.begin_eflags : (s.begin).eflags = s.eflags := rfl
@[simp] theorem State.begin_cfg : (s.begin).cfg = s.cfg := rfl
@[simp] theorem State.begin_phase : (s.begin).phase = s.phase := rfl
@[simp] theorem State.begin_ops : (s.begin).ops = s.ops := rfl
@[simp] theorem State.begin_out : (s.begin).out = [] := rfl
@[simp] theorem State.begin_events : (s.begin).events = [] := rfl

end

section
variable (o : PortOut) (s : State)

@[simp] theorem State.drive_pstate : (s.drive o).pstate = s.pstate := rfl
@[simp] theorem State.drive_pbuf : (s.drive o).pbuf = s.pbuf := rfl
@[simp] theorem State.drive_pexp : (s.drive o).pexp = s.pexp := rfl
@[simp] theorem State.drive_estate : (s.drive o).estate = s.estate := rfl
@[simp] theorem State.drive_esyms : (s.drive o).esyms = s.esyms := rfl
@[simp] theorem State.drive_epos : (s.drive o).epos = s.epos := rfl
@[simp] theorem State.drive_queue : (s.drive o).queue = s.queue := rfl
@[simp] theorem State.drive_framesParsed : (s.drive o).framesParsed = s.framesParsed := rfl
@[simp] theorem State.drive_framingErrors : (s.drive o).framingErrors = s.framingErrors := rfl
@[simp] theorem State.drive_framesEmitted : (s.drive o).framesEmitted = s.framesEmitted := rfl
@[simp] theorem State.drive_overflowDrops : (s.drive o).overflowDrops = s.overflowDrops := rfl
@[simp] theorem State.drive_eflags : (s.drive o).eflags = s.eflags := rfl
@[simp] theorem State.drive_cfg : (s.drive o).cfg = s.cfg := rfl
@[simp] theorem State.drive_phase : (s.drive o).phase = s.phase := rfl
@[simp] theorem State.drive_ops : (s.drive o).ops = s.ops := rfl
@[simp] theorem State.drive_out : (s.drive o).out = s.out ++ [o] := rfl
@[simp] theorem State.drive_events : (s.drive o).events = s.events := rfl

end

section
variable (e : Event) (s : State)

@[simp] theorem State.raise_pstate : (s.raise e).pstate = s.pstate := rfl
@[simp] theorem State.raise_pbuf : (s.raise e).pbuf = s.pbuf := rfl
@[simp] theorem State.raise_pexp : (s.raise e).pexp = s.pexp := rfl
@[simp] theorem State.raise_estate : (s.raise e).estate = s.estate := rfl
@[simp] theorem State.raise_esyms : (s.raise e).esyms = s.esyms := rfl
@[simp] theorem State.raise_epos : (s.raise e).epos = s.epos := rfl
@[simp] theorem State.raise_queue : (s.raise e).queue = s.queue := rfl
@[simp] theorem State.raise_framesParsed : (s.raise e).framesParsed = s.framesParsed := rfl
@[simp] theorem State.raise_framingErrors : (s.raise e).framingErrors = s.framingErrors := rfl
@[simp] theorem State.raise_framesEmitted : (s.raise e).framesEmitted = s.framesEmitted := rfl
@[simp] theorem State.raise_overflowDrops : (s.raise e).overflowDrops = s.overflowDrops := rfl
@[simp] theorem State.raise_eflags : (s.raise e).eflags = s.eflags := rfl
@[simp] theorem State.raise_cfg : (s.raise e).cfg = s.cfg := rfl
@[simp] theorem State.raise_phase : (s.raise e).phase = s.phase := rfl
@[simp] theorem State.raise_ops : (s.raise e).ops = s.ops := rfl
@[simp] theorem State.raise_out : (s.raise e).out = s.out := rfl
@[simp] theorem State.raise_events : (s.raise e).events = s.events ++ [e] := rfl

end

section
variable (p : PState) (b : List Nib) (n : BitVec 8) (s : State)

@[simp] theorem State.setParser_pstate : (s.setParser p b n).pstate = p := rfl
@[simp] theorem State.setParser_pbuf : (s.setParser p b n).pbuf = b := rfl
@[simp] theorem State.setParser_pexp : (s.setParser p b n).pexp = n := rfl
@[simp] theorem State.setParser_estate : (s.setParser p b n).estate = s.estate := rfl
@[simp] theorem State.setParser_esyms : (s.setParser p b n).esyms = s.esyms := rfl
@[simp] theorem State.setParser_epos : (s.setParser p b n).epos = s.epos := rfl
@[simp] theorem State.setParser_queue : (s.setParser p b n).queue = s.queue := rfl
@[simp] theorem State.setParser_framesParsed : (s.setParser p b n).framesParsed = s.framesParsed := rfl
@[simp] theorem State.setParser_framingErrors : (s.setParser p b n).framingErrors = s.framingErrors := rfl
@[simp] theorem State.setParser_framesEmitted : (s.setParser p b n).framesEmitted = s.framesEmitted := rfl
@[simp] theorem State.setParser_overflowDrops : (s.setParser p b n).overflowDrops = s.overflowDrops := rfl
@[simp] theorem State.setParser_eflags : (s.setParser p b n).eflags = s.eflags := rfl
@[simp] theorem State.setParser_cfg : (s.setParser p b n).cfg = s.cfg := rfl
@[simp] theorem State.setParser_phase : (s.setParser p b n).phase = s.phase := rfl
@[simp] theorem State.setParser_ops : (s.setParser p b n).ops = s.ops := rfl
@[simp] theorem State.setParser_out : (s.setParser p b n).out = s.out := rfl
@[simp] theorem State.setParser_events : (s.setParser p b n).events = s.events := rfl

end

section
variable (e : EState) (l : List Nib) (n : BitVec 9) (s : State)

@[simp] theorem State.setEmitter_pstate : (s.setEmitter e l n).pstate = s.pstate := rfl
@[simp] theorem State.setEmitter_pbuf : (s.setEmitter e l n).pbuf = s.pbuf := rfl
@[simp] theorem State.setEmitter_pexp : (s.setEmitter e l n).pexp = s.pexp := rfl
@[simp] theorem State.setEmitter_estate : (s.setEmitter e l n).estate = e := rfl
@[simp] theorem State.setEmitter_esyms : (s.setEmitter e l n).esyms = l := rfl
@[simp] theorem State.setEmitter_epos : (s.setEmitter e l n).epos = n := rfl
@[simp] theorem State.setEmitter_queue : (s.setEmitter e l n).queue = s.queue := rfl
@[simp] theorem State.setEmitter_framesParsed : (s.setEmitter e l n).framesParsed = s.framesParsed := rfl
@[simp] theorem State.setEmitter_framingErrors : (s.setEmitter e l n).framingErrors = s.framingErrors := rfl
@[simp] theorem State.setEmitter_framesEmitted : (s.setEmitter e l n).framesEmitted = s.framesEmitted := rfl
@[simp] theorem State.setEmitter_overflowDrops : (s.setEmitter e l n).overflowDrops = s.overflowDrops := rfl
@[simp] theorem State.setEmitter_eflags : (s.setEmitter e l n).eflags = s.eflags := rfl
@[simp] theorem State.setEmitter_cfg : (s.setEmitter e l n).cfg = s.cfg := rfl
@[simp] theorem State.setEmitter_phase : (s.setEmitter e l n).phase = s.phase := rfl
@[simp] theorem State.setEmitter_ops : (s.setEmitter e l n).ops = s.ops := rfl
@[simp] theorem State.setEmitter_out : (s.setEmitter e l n).out = s.out := rfl
@[simp] theorem State.setEmitter_events : (s.setEmitter e l n).events = s.events := rfl

end

section
variable (q : List Frame) (s : State)

@[simp] theorem State.setQueue_pstate : (s.setQueue q).pstate = s.pstate := rfl
@[simp] theorem State.setQueue_pbuf : (s.setQueue q).pbuf = s.pbuf := rfl
@[simp] theorem State.setQueue_pexp : (s.setQueue q).pexp = s.pexp := rfl
@[simp] theorem State.setQueue_estate : (s.setQueue q).estate = s.estate := rfl
@[simp] theorem State.setQueue_esyms : (s.setQueue q).esyms = s.esyms := rfl
@[simp] theorem State.setQueue_epos : (s.setQueue q).epos = s.epos := rfl
@[simp] theorem State.setQueue_queue : (s.setQueue q).queue = q := rfl
@[simp] theorem State.setQueue_framesParsed : (s.setQueue q).framesParsed = s.framesParsed := rfl
@[simp] theorem State.setQueue_framingErrors : (s.setQueue q).framingErrors = s.framingErrors := rfl
@[simp] theorem State.setQueue_framesEmitted : (s.setQueue q).framesEmitted = s.framesEmitted := rfl
@[simp] theorem State.setQueue_overflowDrops : (s.setQueue q).overflowDrops = s.overflowDrops := rfl
@[simp] theorem State.setQueue_eflags : (s.setQueue q).eflags = s.eflags := rfl
@[simp] theorem State.setQueue_cfg : (s.setQueue q).cfg = s.cfg := rfl
@[simp] theorem State.setQueue_phase : (s.setQueue q).phase = s.phase := rfl
@[simp] theorem State.setQueue_ops : (s.setQueue q).ops = s.ops := rfl
@[simp] theorem State.setQueue_out : (s.setQueue q).out = s.out := rfl
@[simp] theorem State.setQueue_events : (s.setQueue q).events = s.events := rfl

end

section
variable (s : State)

@[simp] theorem State.countParsed_pstate : (s.countParsed).pstate = s.pstate := rfl
@[simp] theorem State.countParsed_pbuf : (s.countParsed).pbuf = s.pbuf := rfl
@[simp] theorem State.countParsed_pexp : (s.countParsed).pexp = s.pexp := rfl
@[simp] theorem State.countParsed_estate : (s.countParsed).estate = s.estate := rfl
@[simp] theorem State.countParsed_esyms : (s.countParsed).esyms = s.esyms := rfl
@[simp] theorem State.countParsed_epos : (s.countParsed).epos = s.epos := rfl
@[simp] theorem State.countParsed_queue : (s.countParsed).queue = s.queue := rfl
@[simp] theorem State.countParsed_framesParsed : (s.countParsed).framesParsed = ctrInc s.cfg.ctrW s.framesParsed := rfl
@[simp] theorem State.countParsed_framingErrors : (s.countParsed).framingErrors = s.framingErrors := rfl
@[simp] theorem State.countParsed_framesEmitted : (s.countParsed).framesEmitted = s.framesEmitted := rfl
@[simp] theorem State.countParsed_overflowDrops : (s.countParsed).overflowDrops = s.overflowDrops := rfl
@[simp] theorem State.countParsed_eflags : (s.countParsed).eflags = s.eflags := rfl
@[simp] theorem State.countParsed_cfg : (s.countParsed).cfg = s.cfg := rfl
@[simp] theorem State.countParsed_phase : (s.countParsed).phase = s.phase := rfl
@[simp] theorem State.countParsed_ops : (s.countParsed).ops = s.ops := rfl
@[simp] theorem State.countParsed_out : (s.countParsed).out = s.out := rfl
@[simp] theorem State.countParsed_events : (s.countParsed).events = s.events := rfl

end

section
variable (s : State)

@[simp] theorem State.countFramingError_pstate : (s.countFramingError).pstate = s.pstate := rfl
@[simp] theorem State.countFramingError_pbuf : (s.countFramingError).pbuf = s.pbuf := rfl
@[simp] theorem State.countFramingError_pexp : (s.countFramingError).pexp = s.pexp := rfl
@[simp] theorem State.countFramingError_estate : (s.countFramingError).estate = s.estate := rfl
@[simp] theorem State.countFramingError_esyms : (s.countFramingError).esyms = s.esyms := rfl
@[simp] theorem State.countFramingError_epos : (s.countFramingError).epos = s.epos := rfl
@[simp] theorem State.countFramingError_queue : (s.countFramingError).queue = s.queue := rfl
@[simp] theorem State.countFramingError_framesParsed : (s.countFramingError).framesParsed = s.framesParsed := rfl
@[simp] theorem State.countFramingError_framingErrors : (s.countFramingError).framingErrors = ctrInc s.cfg.ctrW s.framingErrors := rfl
@[simp] theorem State.countFramingError_framesEmitted : (s.countFramingError).framesEmitted = s.framesEmitted := rfl
@[simp] theorem State.countFramingError_overflowDrops : (s.countFramingError).overflowDrops = s.overflowDrops := rfl
@[simp] theorem State.countFramingError_eflags : (s.countFramingError).eflags = setFlag txFramingErr s.eflags := rfl
@[simp] theorem State.countFramingError_cfg : (s.countFramingError).cfg = s.cfg := rfl
@[simp] theorem State.countFramingError_phase : (s.countFramingError).phase = s.phase := rfl
@[simp] theorem State.countFramingError_ops : (s.countFramingError).ops = s.ops := rfl
@[simp] theorem State.countFramingError_out : (s.countFramingError).out = s.out := rfl
@[simp] theorem State.countFramingError_events : (s.countFramingError).events = s.events := rfl

end

section
variable (s : State)

@[simp] theorem State.countEmitted_pstate : (s.countEmitted).pstate = s.pstate := rfl
@[simp] theorem State.countEmitted_pbuf : (s.countEmitted).pbuf = s.pbuf := rfl
@[simp] theorem State.countEmitted_pexp : (s.countEmitted).pexp = s.pexp := rfl
@[simp] theorem State.countEmitted_estate : (s.countEmitted).estate = s.estate := rfl
@[simp] theorem State.countEmitted_esyms : (s.countEmitted).esyms = s.esyms := rfl
@[simp] theorem State.countEmitted_epos : (s.countEmitted).epos = s.epos := rfl
@[simp] theorem State.countEmitted_queue : (s.countEmitted).queue = s.queue := rfl
@[simp] theorem State.countEmitted_framesParsed : (s.countEmitted).framesParsed = s.framesParsed := rfl
@[simp] theorem State.countEmitted_framingErrors : (s.countEmitted).framingErrors = s.framingErrors := rfl
@[simp] theorem State.countEmitted_framesEmitted : (s.countEmitted).framesEmitted = ctrInc s.cfg.ctrW s.framesEmitted := rfl
@[simp] theorem State.countEmitted_overflowDrops : (s.countEmitted).overflowDrops = s.overflowDrops := rfl
@[simp] theorem State.countEmitted_eflags : (s.countEmitted).eflags = s.eflags := rfl
@[simp] theorem State.countEmitted_cfg : (s.countEmitted).cfg = s.cfg := rfl
@[simp] theorem State.countEmitted_phase : (s.countEmitted).phase = s.phase := rfl
@[simp] theorem State.countEmitted_ops : (s.countEmitted).ops = s.ops := rfl
@[simp] theorem State.countEmitted_out : (s.countEmitted).out = s.out := rfl
@[simp] theorem State.countEmitted_events : (s.countEmitted).events = s.events := rfl

end

section
variable (s : State)

@[simp] theorem State.countDrop_pstate : (s.countDrop).pstate = s.pstate := rfl
@[simp] theorem State.countDrop_pbuf : (s.countDrop).pbuf = s.pbuf := rfl
@[simp] theorem State.countDrop_pexp : (s.countDrop).pexp = s.pexp := rfl
@[simp] theorem State.countDrop_estate : (s.countDrop).estate = s.estate := rfl
@[simp] theorem State.countDrop_esyms : (s.countDrop).esyms = s.esyms := rfl
@[simp] theorem State.countDrop_epos : (s.countDrop).epos = s.epos := rfl
@[simp] theorem State.countDrop_queue : (s.countDrop).queue = s.queue := rfl
@[simp] theorem State.countDrop_framesParsed : (s.countDrop).framesParsed = s.framesParsed := rfl
@[simp] theorem State.countDrop_framingErrors : (s.countDrop).framingErrors = s.framingErrors := rfl
@[simp] theorem State.countDrop_framesEmitted : (s.countDrop).framesEmitted = s.framesEmitted := rfl
@[simp] theorem State.countDrop_overflowDrops : (s.countDrop).overflowDrops = ctrInc s.cfg.ctrW s.overflowDrops := rfl
@[simp] theorem State.countDrop_eflags : (s.countDrop).eflags = setFlag rxOverflow s.eflags := rfl
@[simp] theorem State.countDrop_cfg : (s.countDrop).cfg = s.cfg := rfl
@[simp] theorem State.countDrop_phase : (s.countDrop).phase = s.phase := rfl
@[simp] theorem State.countDrop_ops : (s.countDrop).ops = s.ops := rfl
@[simp] theorem State.countDrop_out : (s.countDrop).out = s.out := rfl
@[simp] theorem State.countDrop_events : (s.countDrop).events = s.events := rfl

end

section
variable (s : State)

@[simp] theorem State.clear_pstate : (s.clear).pstate = .idle := rfl
@[simp] theorem State.clear_pbuf : (s.clear).pbuf = [] := rfl
@[simp] theorem State.clear_pexp : (s.clear).pexp = 0 := rfl
@[simp] theorem State.clear_estate : (s.clear).estate = .idle := rfl
@[simp] theorem State.clear_esyms : (s.clear).esyms = [] := rfl
@[simp] theorem State.clear_epos : (s.clear).epos = 0 := rfl
@[simp] theorem State.clear_queue : (s.clear).queue = [] := rfl
@[simp] theorem State.clear_framesParsed : (s.clear).framesParsed = 0 := rfl
@[simp] theorem State.clear_framingErrors : (s.clear).framingErrors = 0 := rfl
@[simp] theorem State.clear_framesEmitted : (s.clear).framesEmitted = 0 := rfl
@[simp] theorem State.clear_overflowDrops : (s.clear).overflowDrops = 0 := rfl
@[simp] theorem State.clear_eflags : (s.clear).eflags = 0 := rfl
@[simp] theorem State.clear_cfg : (s.clear).cfg = s.cfg := rfl
@[simp] theorem State.clear_phase : (s.clear).phase = s.phase := rfl
@[simp] theorem State.clear_ops : (s.clear).ops = s.ops := rfl
@[simp] theorem State.clear_out : (s.clear).out = s.out := rfl
@[simp] theorem State.clear_events : (s.clear).events = s.events := rfl

end

section
variable (bs : List Byte) (s : State)

@[simp] theorem State.setOps_pstate : (s.setOps bs).pstate = s.pstate := rfl
@[simp] theorem State.setOps_pbuf : (s.setOps bs).pbuf = s.pbuf := rfl
@[simp] theorem State.setOps_pexp : (s.setOps bs).pexp = s.pexp := rfl
@[simp] theorem State.setOps_estate : (s.setOps bs).estate = s.estate := rfl
@[simp] theorem State.setOps_esyms : (s.setOps bs).esyms = s.esyms := rfl
@[simp] theorem State.setOps_epos : (s.setOps bs).epos = s.epos := rfl
@[simp] theorem State.setOps_queue : (s.setOps bs).queue = s.queue := rfl
@[simp] theorem State.setOps_framesParsed : (s.setOps bs).framesParsed = s.framesParsed := rfl
@[simp] theorem State.setOps_framingErrors : (s.setOps bs).framingErrors = s.framingErrors := rfl
@[simp] theorem State.setOps_framesEmitted : (s.setOps bs).framesEmitted = s.framesEmitted := rfl
@[simp] theorem State.setOps_overflowDrops : (s.setOps bs).overflowDrops = s.overflowDrops := rfl
@[simp] theorem State.setOps_eflags : (s.setOps bs).eflags = s.eflags := rfl
@[simp] theorem State.setOps_cfg : (s.setOps bs).cfg = s.cfg := rfl
@[simp] theorem State.setOps_phase : (s.setOps bs).phase = s.phase := rfl
@[simp] theorem State.setOps_ops : (s.setOps bs).ops = bs := rfl
@[simp] theorem State.setOps_out : (s.setOps bs).out = s.out := rfl
@[simp] theorem State.setOps_events : (s.setOps bs).events = s.events := rfl

end

section
variable (p : TickPhase) (s : State)

@[simp] theorem State.setPhase_pstate : (s.setPhase p).pstate = s.pstate := rfl
@[simp] theorem State.setPhase_pbuf : (s.setPhase p).pbuf = s.pbuf := rfl
@[simp] theorem State.setPhase_pexp : (s.setPhase p).pexp = s.pexp := rfl
@[simp] theorem State.setPhase_estate : (s.setPhase p).estate = s.estate := rfl
@[simp] theorem State.setPhase_esyms : (s.setPhase p).esyms = s.esyms := rfl
@[simp] theorem State.setPhase_epos : (s.setPhase p).epos = s.epos := rfl
@[simp] theorem State.setPhase_queue : (s.setPhase p).queue = s.queue := rfl
@[simp] theorem State.setPhase_framesParsed : (s.setPhase p).framesParsed = s.framesParsed := rfl
@[simp] theorem State.setPhase_framingErrors : (s.setPhase p).framingErrors = s.framingErrors := rfl
@[simp] theorem State.setPhase_framesEmitted : (s.setPhase p).framesEmitted = s.framesEmitted := rfl
@[simp] theorem State.setPhase_overflowDrops : (s.setPhase p).overflowDrops = s.overflowDrops := rfl
@[simp] theorem State.setPhase_eflags : (s.setPhase p).eflags = s.eflags := rfl
@[simp] theorem State.setPhase_cfg : (s.setPhase p).cfg = s.cfg := rfl
@[simp] theorem State.setPhase_phase : (s.setPhase p).phase = p := rfl
@[simp] theorem State.setPhase_ops : (s.setPhase p).ops = s.ops := rfl
@[simp] theorem State.setPhase_out : (s.setPhase p).out = s.out := rfl
@[simp] theorem State.setPhase_events : (s.setPhase p).events = s.events := rfl

end

@[simp] theorem State.begin_begin (s : State) : s.begin.begin = s.begin := rfl

@[simp] theorem State.begin_reset : State.reset.begin = State.reset := rfl

end Sys2Proof.Machine
end

