-- ==== Sys2Proof/Laws/Ops.lean ====
section
/-! SUPPORT. What each shared operation can do, said once: sequencing, operands, the parser and emitter steps, ENQ, the
callback, the pure operations, and one step of the machine. Proofs cite these and do not unfold the operations. -/

namespace Sys2Proof.Machine

/-! ## Sequencing and operands -/

@[simp] theorem andThen_next (s : State) (k : State → Result) : andThen (.next s) k = k s := rfl

theorem andThen_next_iff {r : Result} {k : State → Result} {t : State} :
    andThen r k = .next t ↔ ∃ s, r = .next s ∧ k s = .next t := by
  cases r <;> simp [andThen]

theorem whenRow_next_iff {m : String} {c : Bool} {r : Result} {t : State} :
    whenRow m c r = .next t ↔ c = true ∧ r = .next t := by
  cases c <;> simp [whenRow]

theorem inOrder_next_iff {p : Option TickPhase} {k : State → Result} {s t : State} :
    inOrder p k s = .next t ↔ ∃ q, p = some q ∧ k (s.begin.setPhase q) = .next t := by
  cases p <;> simp [inOrder]

/-- An operation that is in the tick order runs in the phase it leads to. -/
theorem inOrder_some {p : Option TickPhase} {q : TickPhase} (h : p = some q) (k : State → Result) (s : State) :
    inOrder p k s = k (s.begin.setPhase q) := by
  rw [h]
  rfl

/-- PSTEP and its rows run in the tick order only (60_exceptions.md R266). -/
theorem parserTurn_next_iff {k : State → Result} {s t : State} :
    parserTurn s k = .next t ↔ ∃ p, phaseAfterPstep s.phase = some p ∧ k (s.begin.setPhase p) = .next t :=
  inOrder_next_iff

/-- ESTEP and its rows run in the tick order only (60_exceptions.md R266). -/
theorem emitterTurn_next_iff {k : State → Result} {s t : State} :
    emitterTurn s k = .next t ↔ ∃ p, phaseAfterEstep s.phase = some p ∧ k (s.begin.setPhase p) = .next t :=
  inOrder_next_iff

theorem withFrame_next_iff {op : FrameOp} {k : Frame → Result} {t : State} :
    withFrame op k = .next t ↔ ∃ f, evalFrameOp op = .ok f ∧ k f = .next t := by
  unfold withFrame
  split <;> simp_all

theorem withCandidate_next {op : Option FrameOp} {k : Option Frame → Result} {t : State}
    (h : withCandidate op k = .next t) : ∃ req, k req = .next t := by
  cases op with
  | none => exact ⟨none, h⟩
  | some op =>
    obtain ⟨f, -, hk⟩ := withFrame_next_iff.1 h
    exact ⟨some f, hk⟩

/-! ## Flags and counters -/

theorem ctrInc_lt (w n : Nat) : ctrInc w n < 2 ^ w := Nat.mod_lt _ (by positivity)

theorem setFlag_reserved (b f : BitVec 4) : setFlag b f &&& 0b1100 = 0 := by
  revert b f
  decide

theorem setFlag_framing_bits (f : BitVec 4) :
    (setFlag txFramingErr f).getLsbD 1 = true ∧ (setFlag txFramingErr f).getLsbD 0 = f.getLsbD 0 := by
  revert f
  decide

theorem setFlag_overflow_bits (f : BitVec 4) :
    (setFlag rxOverflow f).getLsbD 0 = true ∧ (setFlag rxOverflow f).getLsbD 1 = f.getLsbD 1 := by
  revert f
  decide

/-! ## The parser -/

/-- Everything one parser step can do when it answers a next state: a quiet step, ERROR with an event that is no
overflow, or a commit. -/
theorem parserStep_cases {y : Nib} {s t : State} (h : parserStep y s = .next t) :
    (∃ p b n, t = (s.setParser p b n).quiet) ∨ t = s.quiet ∨
    (∃ e b, e ≠ .ovTooLong ∧ e ≠ .ovQueueFull ∧ t = s.enterError e b) ∨
    (∃ f, decodeBuffer s.pbuf = some (.ok f) ∧ t = s.commit f) := by
  have quiet (p b n) (h : (.next (State.quiet (s.setParser p b n)) : Result) = .next t) :
      ∃ p b n, t = (s.setParser p b n).quiet := ⟨p, b, n, (Host.Outcome.next.inj h).symm⟩
  unfold parserStep at h
  split at h
  · split at h
    · exact .inl (quiet _ _ _ h)
    · exact .inr (.inl (Host.Outcome.next.inj h).symm)
  · exact .inl (quiet _ _ _ h)
  · exact .inl (quiet _ _ _ h)
  · exact .inl (quiet _ _ _ h)
  · unfold parserLenLo at h
    dsimp only at h
    split at h
    · cases h
    · split at h
      · exact .inr (.inr (.inl ⟨_, _, by simp, by simp, (Host.Outcome.next.inj h).symm⟩))
      · split at h
        · exact .inl (quiet _ _ _ h)
        · exact .inl (quiet _ _ _ h)
  · have h := Host.Outcome.next.inj h
    unfold parserArgs at h
    dsimp only at h
    split at h
    · exact .inl ⟨_, _, _, h.symm⟩
    · split at h
      · exact .inr (.inr (.inl ⟨_, _, by simp, by simp, h.symm⟩))
      · exact .inl ⟨_, _, _, h.symm⟩
  · split at h
    · unfold parserEof at h
      split at h
      · cases h
      · next f hf => exact .inr (.inr (.inr ⟨f, hf, (Host.Outcome.next.inj h).symm⟩))
      · exact .inr (.inr (.inl ⟨_, _, by simp, by simp, (Host.Outcome.next.inj h).symm⟩))
    · exact .inr (.inr (.inl ⟨_, _, by simp, by simp, (Host.Outcome.next.inj h).symm⟩))
  · split at h
    · exact .inl (quiet _ _ _ h)
    · exact .inr (.inl (Host.Outcome.next.inj h).symm)

/-- A parser step leaves the emitter, the queue and the other two counters alone (60_exceptions.md R254). -/
theorem parserStep_frame {y : Nib} {s t : State} (h : parserStep y s = .next t) :
    t.estate = s.estate ∧ t.esyms = s.esyms ∧ t.epos = s.epos ∧ t.queue = s.queue ∧
    t.framesEmitted = s.framesEmitted ∧ t.overflowDrops = s.overflowDrops ∧ t.cfg = s.cfg ∧ t.phase = s.phase ∧
    t.ops = s.ops := by
  obtain ⟨p, b, n, rfl⟩ | rfl | ⟨e, b, -, -, rfl⟩ | ⟨f, -, rfl⟩ := parserStep_cases h <;>
    simp [State.quiet, State.enterError, State.commit, State.toIdle]

/-- A row of the parser does, in the tick order, what the step it names does on the symbol the row reads. -/
theorem parserStep_of_row {i : Instr} {s t : State} (hi : parserOp i = true) (h : exec i s = .next t) :
    ∃ y p, inputSymbol i = some y ∧ phaseAfterPstep s.phase = some p ∧
      parserStep y (s.begin.setPhase p) = .next t := by
  cases i with
  | pstep y =>
    obtain ⟨p, hp, h⟩ := parserTurn_next_iff.1 (show execPstep y s = _ from h)
    exact ⟨y, p, rfl, hp, h⟩
  | pstepIdleSof =>
    obtain ⟨p, hp, h⟩ := parserTurn_next_iff.1 (show execPstepIdleSof s = _ from h)
    obtain ⟨hc, h⟩ := whenRow_next_iff.1 h
    refine ⟨sof, p, rfl, hp, ?_⟩
    simp only [State.setPhase_pstate, State.begin_pstate, beq_iff_eq] at hc
    simpa [parserStep, hc] using h
  | pstepIdleNoise y =>
    obtain ⟨p, hp, h⟩ := parserTurn_next_iff.1 (show execPstepIdleNoise y s = _ from h)
    obtain ⟨hc, h⟩ := whenRow_next_iff.1 h
    refine ⟨y, p, rfl, hp, ?_⟩
    simp only [State.setPhase_pstate, State.begin_pstate, Bool.and_eq_true, beq_iff_eq, bne_iff_ne, ne_eq] at hc
    simpa [parserStep, hc.1, hc.2] using h
  | pstepType y =>
    obtain ⟨p, hp, h⟩ := parserTurn_next_iff.1 (show execPstepType y s = _ from h)
    obtain ⟨hc, h⟩ := whenRow_next_iff.1 h
    refine ⟨y, p, rfl, hp, ?_⟩
    simp only [State.setPhase_pstate, State.begin_pstate, beq_iff_eq] at hc
    simpa [parserStep, hc] using h
  | pstepCode y =>
    obtain ⟨p, hp, h⟩ := parserTurn_next_iff.1 (show execPstepCode y s = _ from h)
    obtain ⟨hc, h⟩ := whenRow_next_iff.1 h
    refine ⟨y, p, rfl, hp, ?_⟩
    simp only [State.setPhase_pstate, State.begin_pstate, beq_iff_eq] at hc
    simpa [parserStep, hc] using h
  | pstepLenHi y =>
    obtain ⟨p, hp, h⟩ := parserTurn_next_iff.1 (show execPstepLenHi y s = _ from h)
    obtain ⟨hc, h⟩ := whenRow_next_iff.1 h
    refine ⟨y, p, rfl, hp, ?_⟩
    simp only [State.setPhase_pstate, State.begin_pstate, beq_iff_eq] at hc
    simpa [parserStep, hc] using h
  | pstepLenLo y =>
    obtain ⟨p, hp, h⟩ := parserTurn_next_iff.1 (show execPstepLenLo y s = _ from h)
    obtain ⟨hc, h⟩ := whenRow_next_iff.1 h
    refine ⟨y, p, rfl, hp, ?_⟩
    simp only [State.setPhase_pstate, State.begin_pstate, beq_iff_eq] at hc
    simpa [parserStep, hc] using h
  | pstepArgs y =>
    obtain ⟨p, hp, h⟩ := parserTurn_next_iff.1 (show execPstepArgs y s = _ from h)
    obtain ⟨hc, h⟩ := whenRow_next_iff.1 h
    refine ⟨y, p, rfl, hp, ?_⟩
    simp only [State.setPhase_pstate, State.begin_pstate, beq_iff_eq] at hc
    simpa [parserStep, hc] using h
  | pstepEofOk =>
    obtain ⟨p, hp, h⟩ := parserTurn_next_iff.1 (show execPstepEofOk s = _ from h)
    obtain ⟨hc, h⟩ := whenRow_next_iff.1 h
    refine ⟨eof, p, rfl, hp, ?_⟩
    simp only [State.setPhase_pstate, State.begin_pstate, Bool.and_eq_true, beq_iff_eq] at hc
    simpa [parserStep, hc.1] using h
  | pstepEofDecodeFail =>
    obtain ⟨p, hp, h⟩ := parserTurn_next_iff.1 (show execPstepEofDecodeFail s = _ from h)
    obtain ⟨hc, h⟩ := whenRow_next_iff.1 h
    refine ⟨eof, p, rfl, hp, ?_⟩
    simp only [State.setPhase_pstate, State.begin_pstate, Bool.and_eq_true, beq_iff_eq] at hc
    simpa [parserStep, hc.1] using h
  | pstepEofBad y =>
    obtain ⟨p, hp, h⟩ := parserTurn_next_iff.1 (show execPstepEofBad y s = _ from h)
    obtain ⟨hc, h⟩ := whenRow_next_iff.1 h
    refine ⟨y, p, rfl, hp, ?_⟩
    simp only [State.setPhase_pstate, State.begin_pstate, Bool.and_eq_true, beq_iff_eq, bne_iff_ne, ne_eq] at hc
    simpa [parserStep, hc.1, hc.2] using h
  | pstepErrResync =>
    obtain ⟨p, hp, h⟩ := parserTurn_next_iff.1 (show execPstepErrResync s = _ from h)
    obtain ⟨hc, h⟩ := whenRow_next_iff.1 h
    refine ⟨eof, p, rfl, hp, ?_⟩
    simp only [State.setPhase_pstate, State.begin_pstate, beq_iff_eq] at hc
    simpa [parserStep, hc] using h
  | pstepErrAbsorb y =>
    obtain ⟨p, hp, h⟩ := parserTurn_next_iff.1 (show execPstepErrAbsorb y s = _ from h)
    obtain ⟨hc, h⟩ := whenRow_next_iff.1 h
    refine ⟨y, p, rfl, hp, ?_⟩
    simp only [State.setPhase_pstate, State.begin_pstate, Bool.and_eq_true, beq_iff_eq, bne_iff_ne, ne_eq] at hc
    simpa [parserStep, hc.1, hc.2] using h
  | _ => simp [parserOp] at hi

/-! ## The emitter -/

@[simp] theorem symbolsLeft_begin (s : State) : symbolsLeft s.begin = symbolsLeft s := rfl

@[simp] theorem symbolsLeft_setPhase (p : TickPhase) (s : State) : symbolsLeft (s.setPhase p) = symbolsLeft s := rfl

theorem symbolsLeft_iff {s : State} : symbolsLeft s = true ↔ s.epos.toNat < s.esyms.length := by simp [symbolsLeft]

theorem emitterStep_symbol {s : State} (he : s.estate = .outputting) (hl : symbolsLeft s = true) :
    emitterStep s = .next (emitterSymbol s) := by
  simp [emitterStep, he, hl]

theorem emitterStep_end {s : State} (he : s.estate = .outputting) (hl : symbolsLeft s = false) :
    emitterStep s = .next (emitterEnd s) := by
  simp [emitterStep, he, hl]

/-- Everything one emitter step can do when it answers a next state (42_emitter.md R181 to R184). -/
theorem emitterStep_cases {s t : State} (h : emitterStep s = .next t) :
    (s.estate = .idle ∧ s.queue = [] ∧ t = emitterIdle s) ∨
    (∃ f q, s.estate = .idle ∧ s.queue = f :: q ∧ f.args.length ≤ 255 ∧
      t = ((s.setQueue q).setEmitter .outputting (frameSymbols f) 1).drive (.estep sof false)) ∨
    (s.estate = .outputting ∧ symbolsLeft s = true ∧ t = emitterSymbol s) ∨
    (s.estate = .outputting ∧ symbolsLeft s = false ∧ t = emitterEnd s) := by
  unfold emitterStep at h
  split at h
  · next he =>
    split at h
    · next hq => exact .inl ⟨he, hq, (Host.Outcome.next.inj h).symm⟩
    · next f q hq =>
      unfold emitterStart at h
      split at h
      · cases h
      · next syms hs =>
        obtain ⟨hl, rfl⟩ := (encodeFrame_ok_iff f syms).1 hs
        exact .inr (.inl ⟨f, q, he, hq, hl, by simpa [frameSymbols, sof] using (Host.Outcome.next.inj h).symm⟩)
  · next he =>
    split at h
    · next hl => exact .inr (.inr (.inl ⟨he, hl, (Host.Outcome.next.inj h).symm⟩))
    · next hl => exact .inr (.inr (.inr ⟨he, by simpa using hl, (Host.Outcome.next.inj h).symm⟩))

/-- An emitter step leaves the parser, the other counters and the flags alone. -/
theorem emitterStep_frame {s t : State} (h : emitterStep s = .next t) :
    t.pstate = s.pstate ∧ t.pbuf = s.pbuf ∧ t.pexp = s.pexp ∧ t.framesParsed = s.framesParsed ∧
    t.framingErrors = s.framingErrors ∧ t.overflowDrops = s.overflowDrops ∧ t.eflags = s.eflags ∧
    t.cfg = s.cfg ∧ t.phase = s.phase ∧ t.ops = s.ops := by
  obtain ⟨-, -, rfl⟩ | ⟨f, q, -, -, -, rfl⟩ | ⟨-, -, rfl⟩ | ⟨-, -, rfl⟩ := emitterStep_cases h <;>
    simp [emitterIdle, emitterSymbol, emitterEnd]

/-- A row of the emitter does, in the tick order, what the step it names does. -/
theorem emitterStep_of_row {i : Instr} {s t : State} (hi : emitterOp i = true) (h : exec i s = .next t) :
    ∃ p, phaseAfterEstep s.phase = some p ∧ emitterStep (s.begin.setPhase p) = .next t := by
  cases i with
  | estep => exact emitterTurn_next_iff.1 h
  | estepIdleEmpty =>
    obtain ⟨p, hp, h⟩ := emitterTurn_next_iff.1 (show execEstepIdleEmpty s = _ from h)
    obtain ⟨hc, h⟩ := whenRow_next_iff.1 h
    refine ⟨p, hp, ?_⟩
    simp only [Bool.and_eq_true, beq_iff_eq, List.isEmpty_iff] at hc
    simpa only [emitterStep, hc.1, hc.2] using h
  | estepIdleStart =>
    obtain ⟨p, hp, h⟩ := emitterTurn_next_iff.1 (show execEstepIdleStart s = _ from h)
    refine ⟨p, hp, ?_⟩
    split at h
    · cases h
    · next f q hq =>
      obtain ⟨hc, h⟩ := whenRow_next_iff.1 h
      simp only [beq_iff_eq] at hc
      simpa only [emitterStep, hc, hq] using h
  | estepOutSym =>
    obtain ⟨p, hp, h⟩ := emitterTurn_next_iff.1 (show execEstepOutSym s = _ from h)
    obtain ⟨hc, h⟩ := whenRow_next_iff.1 h
    refine ⟨p, hp, ?_⟩
    simp only [Bool.and_eq_true, beq_iff_eq] at hc
    rw [emitterStep_symbol hc.1 hc.2]
    exact h
  | estepOutEnd =>
    obtain ⟨p, hp, h⟩ := emitterTurn_next_iff.1 (show execEstepOutEnd s = _ from h)
    obtain ⟨hc, h⟩ := whenRow_next_iff.1 h
    refine ⟨p, hp, ?_⟩
    simp only [Bool.and_eq_true, beq_iff_eq, Bool.not_eq_true'] at hc
    rw [emitterStep_end hc.1 hc.2]
    exact h
  | _ => simp [emitterOp] at hi

/-! ## The tick order -/

/-- Outside a tick a PSTEP is in order; it opens a tick, or leaves the order unstarted. -/
theorem phaseAfterPstep_of_outside {s : State} (h : s.phase ≠ .inside) : ∃ p, phaseAfterPstep s.phase = some p := by
  cases hp : s.phase <;> simp_all [phaseAfterPstep]

/-- Except between two ticks an ESTEP is in order. -/
theorem phaseAfterEstep_of_due {s : State} (h : s.phase ≠ .between) : ∃ p, phaseAfterEstep s.phase = some p := by
  cases hp : s.phase <;> simp_all [phaseAfterEstep]

theorem phaseAfterTick_of_outside {s : State} (h : s.phase ≠ .inside) : phaseAfterTick s.phase = some .between := by
  cases hp : s.phase <;> simp_all [phaseAfterTick]

/-- PSTEP in the tick order is one parser step. -/
theorem exec_pstep {y : Nib} {p : TickPhase} {s : State} (h : phaseAfterPstep s.phase = some p) :
    exec (.pstep y) s = parserStep y (s.begin.setPhase p) := inOrder_some h _ s

/-- ESTEP in the tick order is one emitter step. -/
theorem exec_estep {p : TickPhase} {s : State} (h : phaseAfterEstep s.phase = some p) :
    exec .estep s = emitterStep (s.begin.setPhase p) := inOrder_some h _ s

/-- TICK in the tick order is its parts one after another (43_queue_and_control.md R210). -/
theorem exec_tick {y : Nib} {acts : List HostAct} {s : State} (h : s.phase ≠ .inside) :
    exec (.tick y acts) s = andThen (parserStep y (s.begin.setPhase .between)) fun s =>
      andThen (runCallback s) fun s => andThen (runActs acts s) emitterStep :=
  (inOrder_some (phaseAfterTick_of_outside h) _ s : execTick y acts s = _)

/-- A parser step neither reads nor writes the host's place in the tick. -/
theorem parserStep_setPhase {y : Nib} {s t : State} (p : TickPhase) (h : parserStep y s = .next t) :
    parserStep y (s.setPhase p) = .next (t.setPhase p) := by
  unfold parserStep at h ⊢
  simp only [State.setPhase_pstate]
  split at h
  · split at h <;> next hy => cases h; simp only [hy, if_true, if_false]; rfl
  · cases h; rfl
  · cases h; rfl
  · cases h; rfl
  · unfold parserLenLo at h ⊢
    simp only [State.setPhase_pbuf] at h ⊢
    split at h
    · cases h
    · split at h
      · next he => cases h; simp only [he, if_true]; rfl
      · next he =>
        split at h <;> next h0 => cases h; simp only [he, h0, if_true, if_false]; rfl
  · unfold parserArgs at h ⊢
    simp only [State.setPhase_pbuf, State.setPhase_pexp] at h ⊢
    cases h
    split
    · next he => simp only [he, if_true]; rfl
    · next he =>
      simp only [he, if_false]
      split <;> next hl => simp only [hl, if_true, if_false]; rfl
  · split at h
    · next hy =>
      unfold parserEof at h ⊢
      simp only [hy, if_true, State.setPhase_pbuf] at h ⊢
      split at h <;> cases h <;> rfl
    · next hy => cases h; simp only [hy, if_false]; rfl
  · split at h <;> next hy => cases h; simp only [hy, if_true, if_false]; rfl

/-! ## ENQ and the callback -/

/-- Everything ENQ can do when it answers a next state (43_queue_and_control.md R200, R201, R202, R204). -/
theorem enqueue_cases {req : Option Frame} {s t : State} (h : enqueue req s = .next t) :
    (req = none ∧ t = s.drive (.enqOk false)) ∨
    (∃ f, req = some f ∧ validCandidate f = true ∧ 255 < f.args.length ∧ t = s.drop .ovTooLong) ∨
    (∃ f, req = some f ∧ validFrame f = true ∧ queueCap ≤ s.queue.length ∧ t = s.drop .ovQueueFull) ∨
    (∃ f, req = some f ∧ validFrame f = true ∧ s.queue.length < queueCap ∧ t = (s.push f).drive (.enqOk true)) := by
  cases req with
  | none => exact .inl ⟨rfl, (Host.Outcome.next.inj h).symm⟩
  | some f =>
    unfold enqueue at h
    dsimp only at h
    split at h
    · cases h
    · next hv =>
      have hv : validCandidate f = true := by simpa using hv
      split at h
      · next hl => exact .inr (.inl ⟨f, rfl, hv, hl, (Host.Outcome.next.inj h).symm⟩)
      · next hl =>
        have hf := valid_of_candidate hv (Nat.not_lt.1 hl)
        split at h
        · next hq => exact .inr (.inr (.inl ⟨f, rfl, hf, hq, (Host.Outcome.next.inj h).symm⟩))
        · next hq => exact .inr (.inr (.inr ⟨f, rfl, hf, Nat.not_le.1 hq, (Host.Outcome.next.inj h).symm⟩))

/-- Everything one callback action can do: ENQ, RESET or READ. -/
theorem runAct_cases {a : HostAct} {s t : State} (h : runAct a s = .next t) :
    (∃ req, enqueue req s = .next t) ∨ (a = .reset ∧ t = s.clear) ∨ (∃ sel, t = readPort sel s) := by
  cases a with
  | enq f => exact .inl (withCandidate_next h)
  | reset => exact .inr (.inl ⟨rfl, (Host.Outcome.next.inj h).symm⟩)
  | read sel => exact .inr (.inr ⟨sel, (Host.Outcome.next.inj h).symm⟩)

/-- What every action keeps, the callback keeps. -/
theorem runActs_keeps {P : State → Prop} {acts : List HostAct}
    (hP : ∀ a ∈ acts, ∀ s t, runAct a s = .next t → P s → P t)
    {s t : State} (h : runActs acts s = .next t) (hs : P s) : P t := by
  induction acts generalizing s with
  | nil =>
    cases h
    exact hs
  | cons a acts ih =>
    obtain ⟨u, hu, ht⟩ := andThen_next_iff.1 h
    exact ih (fun b hb => hP b (List.mem_cons_of_mem a hb)) ht (hP a List.mem_cons_self s u hu hs)

/-- The table of a function on some frames gives back the function on each of them (log 6). -/
theorem callbackOf_map (A : Frame → List HostAct) {frames : List Frame} {c : Frame} (h : c ∈ frames) :
    callbackOf (frames.map fun f => (f, A f)) c = A c := by
  induction frames with
  | nil => cases h
  | cons f frames ih =>
    simp only [List.map_cons, callbackOf]
    split
    · next hf => rw [hf]
    · next hf => exact ih (List.mem_of_ne_of_mem (fun hc => hf hc.symm) h)

/-- Every callback is a launch field: Frames are finitely many, so one table gives the actions of every one (log 6). -/
theorem launched_exists (w : Nat) (A : Frame → List HostAct) : ∃ s, Launched w A s := by
  have hfin : {c : Frame | validFrame c = true}.Finite := by
    have hargs : {a : List Nib | a.length ≤ 255}.Finite := List.finite_length_le Nib 255
    refine ((Set.finite_univ (α := Nib × Nib)).prod hargs |>.image fun p => (⟨p.1.1, p.1.2, p.2⟩ : Frame)).subset ?_
    intro c hc
    exact ⟨((c.type, c.code), c.args), ⟨Set.mem_univ _, ((validFrame_iff c).1 hc).1⟩, rfl⟩
  refine ⟨{ State.reset with cfg := ⟨w, hfin.toFinset.toList.map fun f => (f, A f)⟩ }, rfl, rfl, rfl, fun c hc => ?_⟩
  exact callbackOf_map A (Finset.mem_toList.2 (hfin.mem_toFinset.2 hc))

/-- The callback performs actions of its table, or nothing. -/
theorem runCallback_cases {s t : State} (h : runCallback s = .next t) :
    t = s ∨ ∃ c, runActs (callbackOf s.cfg.callback c) s = .next t := by
  unfold runCallback at h
  split at h
  · next c _ _ => exact .inr ⟨c, h⟩
  · exact .inl (Host.Outcome.next.inj h).symm

theorem runActs_append (a b : List HostAct) (s : State) : runActs (a ++ b) s = andThen (runActs a s) (runActs b) := by
  induction a generalizing s with
  | nil => rfl
  | cons x a ih =>
    simp only [List.cons_append, runActs]
    cases runAct x s <;> simp [andThen, ih]

/-- After a parser step the callback performs `A` of what the step drove on `commit` (43_queue_and_control.md R211). -/
theorem runCallback_of_parserStep {y : Nib} {s u : State} (h : parserStep y s = .next u) (hs : s.out = []) :
    runCallback u = runActs ((commits [u.out]).flatMap (callbackOf u.cfg.callback)) u := by
  obtain ⟨p, b, n, rfl⟩ | rfl | ⟨e, b, -, -, rfl⟩ | ⟨f, -, rfl⟩ := parserStep_cases h <;>
    simp [runCallback, commits, committedFrame, State.quiet, State.enterError, State.commit, State.toIdle, State.drive,
      State.raise, State.setParser, State.countFramingError, State.countParsed, hs]
  all_goals rfl

/-- Everything a TICK does: a parser step, the host's actions, an emitter step (43_queue_and_control.md R210). -/
theorem execTick_next_iff {y : Nib} {acts : List HostAct} {s t : State} :
    execTick y acts s = .next t ↔ s.phase ≠ .inside ∧ ∃ u v, parserStep y (s.begin.setPhase .between) = .next u ∧
      runActs (tickActs s y acts) u = .next v ∧ emitterStep v = .next t := by
  have acts_eq {u : State} (hu : parserStep y (s.begin.setPhase .between) = .next u) :
      runActs (tickActs s y acts) u = andThen (runCallback u) (runActs acts) := by
    rw [runCallback_of_parserStep hu rfl, ← runActs_append, tickActs, show s.begin = (s.begin.setPhase .between).setPhase
      s.phase from rfl, parserStep_setPhase s.phase hu, (parserStep_frame hu).2.2.2.2.2.2.1]
    rfl
  constructor
  · intro h
    have hphase : s.phase ≠ .inside := by
      intro hi
      simp [execTick, inOrder, phaseAfterTick, hi] at h
    refine ⟨hphase, ?_⟩
    rw [show execTick y acts s = _ from exec_tick hphase] at h
    obtain ⟨u, hu, h⟩ := andThen_next_iff.1 h
    obtain ⟨w, hw, h⟩ := andThen_next_iff.1 h
    obtain ⟨v, hv, h⟩ := andThen_next_iff.1 h
    exact ⟨u, v, hu, by rw [acts_eq hu, hw]; exact hv, h⟩
  · rintro ⟨hphase, u, v, hu, hv, ht⟩
    rw [show execTick y acts s = _ from exec_tick hphase, hu, andThen_next]
    rw [acts_eq hu] at hv
    obtain ⟨w, hw, hv⟩ := andThen_next_iff.1 hv
    rw [hw, andThen_next, hv, andThen_next, ht]

/-- What the parser step, every host action of the tick and the emitter step keep, TICK keeps. -/
theorem execTick_keeps {P : State → Prop} {y : Nib} {acts : List HostAct} {s t : State}
    (hp : ∀ s t, parserStep y s = .next t → P s → P t)
    (ha : ∀ a ∈ tickActs s y acts, ∀ s t, runAct a s = .next t → P s → P t)
    (he : ∀ s t, emitterStep s = .next t → P s → P t)
    (h : execTick y acts s = .next t) (hs : P (s.begin.setPhase .between)) : P t := by
  obtain ⟨-, u, v, hu, hv, ht⟩ := execTick_next_iff.1 h
  exact he _ _ ht (runActs_keeps ha hv (hp _ _ hu hs))

/-- Host actions without a RESET append to the queue, may count drops, and drive neither `commit` nor `rx_sym`: parser,
emitter and the other counters stay (43_queue_and_control.md R200 to R205, R208). -/
theorem runActs_without_reset {acts : List HostAct} {s t : State} (hr : .reset ∉ acts) (h : runActs acts s = .next t) :
    (∃ q, t.queue = s.queue ++ q) ∧ commits [t.out] = commits [s.out] ∧ emissions [t.out] = emissions [s.out] ∧
    t.pstate = s.pstate ∧ t.pbuf = s.pbuf ∧ t.pexp = s.pexp ∧ t.estate = s.estate ∧ t.esyms = s.esyms ∧
    t.epos = s.epos ∧ t.framesParsed = s.framesParsed ∧ t.framingErrors = s.framingErrors ∧
    t.framesEmitted = s.framesEmitted ∧ t.cfg = s.cfg ∧ t.phase = s.phase := by
  refine runActs_keeps (P := fun t => (∃ q, t.queue = s.queue ++ q) ∧ commits [t.out] = commits [s.out] ∧
    emissions [t.out] = emissions [s.out] ∧ t.pstate = s.pstate ∧ t.pbuf = s.pbuf ∧ t.pexp = s.pexp ∧
    t.estate = s.estate ∧ t.esyms = s.esyms ∧ t.epos = s.epos ∧ t.framesParsed = s.framesParsed ∧
    t.framingErrors = s.framingErrors ∧ t.framesEmitted = s.framesEmitted ∧ t.cfg = s.cfg ∧ t.phase = s.phase)
    ?_ h ⟨⟨[], by simp⟩, rfl, rfl, rfl, rfl, rfl, rfl, rfl, rfl, rfl, rfl, rfl, rfl, rfl⟩
  rintro a ha u v hv ⟨⟨q, hq⟩, hc, hx, rest⟩
  have drives (o : PortOut) (ho : committedFrame o = none ∧ emittedSymbol o = none) (l : List PortOut) :
      commits [l ++ [o]] = commits [l] ∧ emissions [l ++ [o]] = emissions [l] := by simp [commits, emissions, ho]
  obtain ⟨req, hv⟩ | ⟨rfl, -⟩ | ⟨sel, rfl⟩ := runAct_cases hv
  · obtain ⟨-, rfl⟩ | ⟨f, -, -, -, rfl⟩ | ⟨f, -, -, -, rfl⟩ | ⟨f, -, -, -, rfl⟩ := enqueue_cases hv
    · exact ⟨⟨q, hq⟩, (drives _ ⟨rfl, rfl⟩ _).1.trans hc, (drives _ ⟨rfl, rfl⟩ _).2.trans hx, rest⟩
    · exact ⟨⟨q, hq⟩, (drives _ ⟨rfl, rfl⟩ _).1.trans hc, (drives _ ⟨rfl, rfl⟩ _).2.trans hx, rest⟩
    · exact ⟨⟨q, hq⟩, (drives _ ⟨rfl, rfl⟩ _).1.trans hc, (drives _ ⟨rfl, rfl⟩ _).2.trans hx, rest⟩
    · refine ⟨⟨q ++ [f], ?_⟩, (drives _ ⟨rfl, rfl⟩ _).1.trans hc, (drives _ ⟨rfl, rfl⟩ _).2.trans hx, rest⟩
      rw [← List.append_assoc, ← hq]
      rfl
  · exact absurd ha hr
  · exact ⟨⟨q, hq⟩, (drives _ ⟨rfl, rfl⟩ _).1.trans hc, (drives _ ⟨rfl, rfl⟩ _).2.trans hx, rest⟩

/-! ## The pure operations -/

theorem answerDecode_next {r : Except DecodeReason Frame} {s t : State} (h : answerDecode r s = .next t) :
    ∃ o e, t = { s with out := o, events := e } := by
  unfold answerDecode at h
  split at h <;> exact ⟨_, _, (Host.Outcome.next.inj h).symm⟩

/-- A pure operation or READ changes nothing but the record of its outputs and events (20_memory.md R61). -/
theorem readsOnly_next {i : Instr} {s t : State} (hi : readsOnly i = true) (h : exec i s = .next t) :
    ∃ o e, t = { s with out := o, events := e } := by
  cases i with
  | read sel => exact ⟨_, _, (Host.Outcome.next.inj h).symm⟩
  | pack x => exact ⟨_, _, (Host.Outcome.next.inj h).symm⟩
  | unpack b => exact ⟨_, _, (Host.Outcome.next.inj h).symm⟩
  | encode op =>
    obtain ⟨f, -, h⟩ := withFrame_next_iff.1 h
    split at h <;> exact ⟨_, _, (Host.Outcome.next.inj h).symm⟩
  | txdg op =>
    obtain ⟨f, -, h⟩ := withFrame_next_iff.1 h
    split at h
    · exact ⟨_, _, (Host.Outcome.next.inj h).symm⟩
    · cases h
  | rxdg b =>
    change execRxdg b s = _ at h
    unfold execRxdg at h
    split at h <;> exact ⟨_, _, (Host.Outcome.next.inj h).symm⟩
  | dctlNop | dctlPortUnreachable | dctlMalformedFrame | dctlBlockBusy | dctlEchoRequest | dctlEchoReply | dctlModeq
  | dctlReset | dctlSetport | dctlStatusReply | dctlHostUnreachable | dctlNetworkError | dctlTargetBusy
  | frameData | frameDataControl | frameStatus | frameIpv4 | frameIpv4Control | frameReservedType
  | decode | decodeSym => exact answerDecode_next h
  | _ => simp [readsOnly] at hi

theorem answerDecode_drives {r : Except DecodeReason Frame} {s t : State} (h : answerDecode r s = .next t) :
    commits [t.out] = [] ∧ emissions [t.out] = [] := by
  unfold answerDecode at h
  split at h <;> cases h <;> exact ⟨rfl, rfl⟩

/-- A pure operation or READ drives neither `commit` nor `rx_sym`. -/
theorem readsOnly_drives {i : Instr} {s t : State} (hi : readsOnly i = true) (h : exec i s = .next t) :
    commits [t.out] = [] ∧ emissions [t.out] = [] := by
  cases i with
  | read sel => cases h; exact ⟨rfl, rfl⟩
  | pack x => cases h; exact ⟨rfl, rfl⟩
  | unpack b => cases h; exact ⟨rfl, rfl⟩
  | encode op =>
    obtain ⟨f, -, h⟩ := withFrame_next_iff.1 h
    split at h <;> cases h <;> exact ⟨rfl, rfl⟩
  | txdg op =>
    obtain ⟨f, -, h⟩ := withFrame_next_iff.1 h
    split at h <;> cases h
    exact ⟨rfl, rfl⟩
  | rxdg b =>
    change execRxdg b s = _ at h
    unfold execRxdg at h
    split at h <;> cases h <;> exact ⟨rfl, rfl⟩
  | dctlNop | dctlPortUnreachable | dctlMalformedFrame | dctlBlockBusy | dctlEchoRequest | dctlEchoReply | dctlModeq
  | dctlReset | dctlSetport | dctlStatusReply | dctlHostUnreachable | dctlNetworkError | dctlTargetBusy
  | frameData | frameDataControl | frameStatus | frameIpv4 | frameIpv4Control | frameReservedType
  | decode | decodeSym => exact answerDecode_drives h
  | _ => simp [readsOnly] at hi

/-! ## One operation, one step -/

/-- The ways an operation runs: it only reads, it is a parser step, an emitter step, a TICK, an ENQ or a RESET. -/
theorem exec_cases {i : Instr} {s t : State} (h : exec i s = .next t) :
    (readsOnly i = true ∧ ∃ o e, t = { s with out := o, events := e }) ∨
    (parserOp i = true ∧ ∃ y p, inputSymbol i = some y ∧ phaseAfterPstep s.phase = some p ∧
      parserStep y (s.begin.setPhase p) = .next t) ∨
    (emitterOp i = true ∧ ∃ p, phaseAfterEstep s.phase = some p ∧ emitterStep (s.begin.setPhase p) = .next t) ∨
    (∃ y acts, i = .tick y acts ∧ execTick y acts s = .next t) ∨
    (∃ f req, i = .enq f ∧ enqueue req s.begin = .next t) ∨
    (i = .reset ∧ t = s.begin.clear) := by
  by_cases hr : readsOnly i = true
  · exact .inl ⟨hr, readsOnly_next hr h⟩
  by_cases hp : parserOp i = true
  · exact .inr (.inl ⟨hp, parserStep_of_row hp h⟩)
  by_cases he : emitterOp i = true
  · exact .inr (.inr (.inl ⟨he, emitterStep_of_row he h⟩))
  cases i with
  | tick y acts => exact .inr (.inr (.inr (.inl ⟨y, acts, rfl, h⟩)))
  | enq f =>
    obtain ⟨req, hreq⟩ := withCandidate_next (show withCandidate f (fun req => enqueue req s.begin) = _ from h)
    exact .inr (.inr (.inr (.inr (.inl ⟨f, req, rfl, hreq⟩))))
  | reset => exact .inr (.inr (.inr (.inr (.inr ⟨rfl, (Host.Outcome.next.inj h).symm⟩))))
  | _ => simp [readsOnly, parserOp, emitterOp] at hr hp he

/-- What every operation keeps, and what neither the host's records nor the outputs can change, a step keeps. -/
theorem step_keeps {P : State → Prop}
    (hops : ∀ s bs, P s → P (s.setOps bs)) (hbegin : ∀ s, P s → P s.begin)
    (hexec : ∀ i s t, exec i s = .next t → P s → P t) {s t : State} (h : step s = .next t) (hs : P s) : P t := by
  unfold step at h
  split at h
  · cases h
    exact hbegin s hs
  · exact hexec _ _ _ h (hops s _ hs)
  · cases h

end Sys2Proof.Machine
end

