-- ==== Sys2Proof/Laws/PerInstr.lean ====
section
/-! SUPPORT. The family TableKey, one lemma per constructor: an operation's record begins with a key that the row of
spec/opcode_table.json matches (its mask and match) and the row's format; a port operation, whose row has no bit pattern
(30_encoding.md R97), has format 3. -/

namespace Sys2Proof.Laws.TableKey

/-- A row of spec/opcode_table.json: the format (0 frame_header, 1 parser_step, 2 emitter_step, 3 port_operation), the
mask and the match. A port operation's row has neither: mask 0. -/
structure Row where
  format : Byte
  mask : Byte
  value : Byte
  deriving DecidableEq, Repr

/-- The table, one row per constructor, as spec/opcode_table.json gives it. -/
def row : Instr → Row
  | .dctlNop _ => ⟨0, 0xFF, 0x10⟩
  | .dctlPortUnreachable _ => ⟨0, 0xFF, 0x11⟩
  | .dctlMalformedFrame _ => ⟨0, 0xFF, 0x12⟩
  | .dctlBlockBusy _ => ⟨0, 0xFF, 0x13⟩
  | .dctlEchoRequest _ => ⟨0, 0xFF, 0x14⟩
  | .dctlEchoReply _ => ⟨0, 0xFF, 0x15⟩
  | .dctlModeq _ => ⟨0, 0xFF, 0x16⟩
  | .dctlReset _ => ⟨0, 0xFF, 0x17⟩
  | .dctlSetport _ => ⟨0, 0xFF, 0x18⟩
  | .dctlStatusReply _ => ⟨0, 0xFF, 0x19⟩
  | .dctlHostUnreachable _ => ⟨0, 0xFF, 0x1A⟩
  | .dctlNetworkError _ => ⟨0, 0xFF, 0x1B⟩
  | .dctlTargetBusy _ => ⟨0, 0xFF, 0x1C⟩
  | .frameData _ _ => ⟨0, 0xF0, 0x00⟩
  | .frameDataControl _ _ => ⟨0, 0xF0, 0x10⟩
  | .frameStatus _ _ => ⟨0, 0xF0, 0x20⟩
  | .frameIpv4 _ _ => ⟨0, 0xF0, 0x30⟩
  | .frameIpv4Control _ _ => ⟨0, 0xF0, 0x40⟩
  | .frameReservedType _ _ _ => ⟨0, 0x00, 0x00⟩
  | .pstepIdleSof => ⟨1, 0x7F, 0x0F⟩
  | .pstepIdleNoise _ => ⟨1, 0x70, 0x00⟩
  | .pstepType _ => ⟨1, 0x70, 0x10⟩
  | .pstepCode _ => ⟨1, 0x70, 0x20⟩
  | .pstepLenHi _ => ⟨1, 0x70, 0x30⟩
  | .pstepLenLo _ => ⟨1, 0x70, 0x40⟩
  | .pstepArgs _ => ⟨1, 0x70, 0x50⟩
  | .pstepEofOk => ⟨1, 0x7F, 0x60⟩
  | .pstepEofDecodeFail => ⟨1, 0x7F, 0x60⟩
  | .pstepEofBad _ => ⟨1, 0x70, 0x60⟩
  | .pstepErrResync => ⟨1, 0x7F, 0x70⟩
  | .pstepErrAbsorb _ => ⟨1, 0x70, 0x70⟩
  | .estepIdleEmpty => ⟨2, 0x06, 0x00⟩
  | .estepIdleStart => ⟨2, 0x06, 0x02⟩
  | .estepOutSym => ⟨2, 0x05, 0x05⟩
  | .estepOutEnd => ⟨2, 0x05, 0x04⟩
  | .pstep _ => ⟨3, 0, 0⟩
  | .estep => ⟨3, 0, 0⟩
  | .tick _ _ => ⟨3, 0, 0⟩
  | .enq _ => ⟨3, 0, 0⟩
  | .reset => ⟨3, 0, 0⟩
  | .read _ => ⟨3, 0, 0⟩
  | .encode _ => ⟨3, 0, 0⟩
  | .decode _ _ _ => ⟨3, 0, 0⟩
  | .decodeSym _ => ⟨3, 0, 0⟩
  | .pack _ => ⟨3, 0, 0⟩
  | .unpack _ => ⟨3, 0, 0⟩
  | .txdg _ => ⟨3, 0, 0⟩
  | .rxdg _ => ⟨3, 0, 0⟩

/-- The record's key matches the constructor's row. -/
def Statement (i : Instr) : Prop :=
  i.wellFormed = true → ∃ key rest, encode i = key :: (row i).format :: rest ∧ key &&& (row i).mask = (row i).value

theorem header (i : Instr) (t c : Nib) (args : List Nib) (m v : Byte) (he : encode i = encodeHeader t c args)
    (hr : row i = ⟨0, m, v⟩) (hk : keyOf t c &&& m = v) : Statement i := fun _ =>
  ⟨keyOf t c, encodeNibs args, by rw [he, hr]; rfl, by rw [hr]; exact hk⟩

theorem parserKey (i : Instr) (p y : Nib) (m v : Byte) (he : encode i = [keyOf p y, 1]) (hr : row i = ⟨1, m, v⟩)
    (hk : keyOf p y &&& m = v) : Statement i := fun _ =>
  ⟨keyOf p y, [], by rw [he, hr], by rw [hr]; exact hk⟩

theorem port (i : Instr) (hr : row i = ⟨3, 0, 0⟩) (he : ∃ key rest, encode i = key :: 3 :: rest) : Statement i := by
  obtain ⟨key, rest, he⟩ := he
  intro _
  refine ⟨key, rest, ?_, ?_⟩
  · rw [he, hr]
  · rw [hr]
    simp

theorem dctlNop (args : List Nib) : Statement (.dctlNop args) := header _ _ _ _ _ _ rfl rfl (by decide)

theorem dctlPortUnreachable (args : List Nib) : Statement (.dctlPortUnreachable args) := header _ _ _ _ _ _ rfl rfl (by decide)

theorem dctlMalformedFrame (args : List Nib) : Statement (.dctlMalformedFrame args) := header _ _ _ _ _ _ rfl rfl (by decide)

theorem dctlBlockBusy (args : List Nib) : Statement (.dctlBlockBusy args) := header _ _ _ _ _ _ rfl rfl (by decide)

theorem dctlEchoRequest (args : List Nib) : Statement (.dctlEchoRequest args) := header _ _ _ _ _ _ rfl rfl (by decide)

theorem dctlEchoReply (args : List Nib) : Statement (.dctlEchoReply args) := header _ _ _ _ _ _ rfl rfl (by decide)

theorem dctlModeq (args : List Nib) : Statement (.dctlModeq args) := header _ _ _ _ _ _ rfl rfl (by decide)

theorem dctlReset (args : List Nib) : Statement (.dctlReset args) := header _ _ _ _ _ _ rfl rfl (by decide)

theorem dctlSetport (args : List Nib) : Statement (.dctlSetport args) := header _ _ _ _ _ _ rfl rfl (by decide)

theorem dctlStatusReply (args : List Nib) : Statement (.dctlStatusReply args) := header _ _ _ _ _ _ rfl rfl (by decide)

theorem dctlHostUnreachable (args : List Nib) : Statement (.dctlHostUnreachable args) := header _ _ _ _ _ _ rfl rfl (by decide)

theorem dctlNetworkError (args : List Nib) : Statement (.dctlNetworkError args) := header _ _ _ _ _ _ rfl rfl (by decide)

theorem dctlTargetBusy (args : List Nib) : Statement (.dctlTargetBusy args) := header _ _ _ _ _ _ rfl rfl (by decide)

theorem frameData (c : Nib) (args : List Nib) : Statement (.frameData c args) := header _ _ _ _ _ _ rfl rfl (by revert c; decide)

theorem frameDataControl (c : Nib) (args : List Nib) : Statement (.frameDataControl c args) := header _ _ _ _ _ _ rfl rfl (by revert c; decide)

theorem frameStatus (c : Nib) (args : List Nib) : Statement (.frameStatus c args) := header _ _ _ _ _ _ rfl rfl (by revert c; decide)

theorem frameIpv4 (c : Nib) (args : List Nib) : Statement (.frameIpv4 c args) := header _ _ _ _ _ _ rfl rfl (by revert c; decide)

theorem frameIpv4Control (c : Nib) (args : List Nib) : Statement (.frameIpv4Control c args) := header _ _ _ _ _ _ rfl rfl (by revert c; decide)

theorem frameReservedType (t c : Nib) (args : List Nib) : Statement (.frameReservedType t c args) := header _ _ _ _ _ _ rfl rfl (by simp)

theorem pstepIdleSof : Statement (.pstepIdleSof) := parserKey _ _ _ _ _ rfl rfl (by decide)

theorem pstepIdleNoise (y : Nib) : Statement (.pstepIdleNoise y) := parserKey _ _ _ _ _ rfl rfl (by revert y; decide)

theorem pstepType (y : Nib) : Statement (.pstepType y) := parserKey _ _ _ _ _ rfl rfl (by revert y; decide)

theorem pstepCode (y : Nib) : Statement (.pstepCode y) := parserKey _ _ _ _ _ rfl rfl (by revert y; decide)

theorem pstepLenHi (y : Nib) : Statement (.pstepLenHi y) := parserKey _ _ _ _ _ rfl rfl (by revert y; decide)

theorem pstepLenLo (y : Nib) : Statement (.pstepLenLo y) := parserKey _ _ _ _ _ rfl rfl (by revert y; decide)

theorem pstepArgs (y : Nib) : Statement (.pstepArgs y) := parserKey _ _ _ _ _ rfl rfl (by revert y; decide)

theorem pstepEofOk : Statement (.pstepEofOk) := parserKey _ _ _ _ _ rfl rfl (by decide)

theorem pstepEofDecodeFail : Statement (.pstepEofDecodeFail) := parserKey _ _ _ _ _ rfl rfl (by decide)

theorem pstepEofBad (y : Nib) : Statement (.pstepEofBad y) := parserKey _ _ _ _ _ rfl rfl (by revert y; decide)

theorem pstepErrResync : Statement (.pstepErrResync) := parserKey _ _ _ _ _ rfl rfl (by decide)

theorem pstepErrAbsorb (y : Nib) : Statement (.pstepErrAbsorb y) := parserKey _ _ _ _ _ rfl rfl (by revert y; decide)

theorem estepIdleEmpty : Statement (.estepIdleEmpty) := fun _ => ⟨_, _, rfl, by decide⟩

theorem estepIdleStart : Statement (.estepIdleStart) := fun _ => ⟨_, _, rfl, by decide⟩

theorem estepOutSym : Statement (.estepOutSym) := fun _ => ⟨_, _, rfl, by decide⟩

theorem estepOutEnd : Statement (.estepOutEnd) := fun _ => ⟨_, _, rfl, by decide⟩

theorem pstep (y : Nib) : Statement (.pstep y) := port _ rfl ⟨_, _, rfl⟩

theorem estep : Statement (.estep) := port _ rfl ⟨_, _, rfl⟩

theorem tick (y : Nib) (acts : List HostAct) : Statement (.tick y acts) := port _ rfl ⟨_, _, rfl⟩

theorem enq (f : Option FrameOp) : Statement (.enq f) := port _ rfl ⟨_, _, rfl⟩

theorem reset : Statement (.reset) := port _ rfl ⟨_, _, rfl⟩

theorem read (sel : Selector) : Statement (.read sel) := port _ rfl ⟨_, _, rfl⟩

theorem encode (f : FrameOp) : Statement (.encode f) := port _ rfl ⟨_, _, rfl⟩

theorem decode (t c : Nib) (a : List Nib) : Statement (.decode t c a) := port _ rfl ⟨_, _, rfl⟩

theorem decodeSym (s : List Nib) : Statement (.decodeSym s) := port _ rfl ⟨_, _, rfl⟩

theorem pack (x : List Nib) : Statement (.pack x) := port _ rfl ⟨_, _, rfl⟩

theorem unpack (b : List Byte) : Statement (.unpack b) := port _ rfl ⟨_, _, rfl⟩

theorem txdg (f : FrameOp) : Statement (.txdg f) := port _ rfl ⟨_, _, rfl⟩

theorem rxdg (b : List Byte) : Statement (.rxdg b) := port _ rfl ⟨_, _, rfl⟩

end Sys2Proof.Laws.TableKey
end

