-- ==== Sys2Proof/Laws/Runs.lean ====
section
/-! SUPPORT. The laws of a run of operations (Safety.lean): a run of two parts, what it commits, and FEED. -/

namespace Sys2Proof.Machine

@[simp] theorem runOps_nil (s : State) : runOps [] s = some (s, []) := rfl

/-- A run begins with its first operation. -/
theorem runOps_cons {i : Instr} {is : List Instr} {s t : State} {r : State × List (List PortOut)}
    (h : exec i s = .next t) (hr : runOps is t = some r) : runOps (i :: is) s = some (r.1, t.out :: r.2) := by
  simp [runOps, h, hr]

/-- A run of one operation and others ran them one after another. -/
theorem runOps_cons_iff {i : Instr} {is : List Instr} {s t : State} {outs : List (List PortOut)} :
    runOps (i :: is) s = some (t, outs) ↔
      ∃ u rest, exec i s = .next u ∧ runOps is u = some (t, rest) ∧ outs = u.out :: rest := by
  rw [runOps]
  cases exec i s with
  | next u =>
    simp only [Option.map_eq_some_iff, Prod.exists, Prod.mk.injEq, Host.Outcome.next.injEq]
    constructor
    · rintro ⟨v, rest, hr, rfl, rfl⟩
      exact ⟨u, rest, rfl, hr, rfl⟩
    · rintro ⟨v, rest, rfl, hr, rfl⟩
      exact ⟨t, rest, hr, rfl, rfl⟩
  | fault | refused => simp

/-- A run performs no RESET where neither its first operation nor the rest does. -/
theorem runMayReset_cons {i : Instr} {is : List Instr} {s t : State} (h : exec i s = .next t) :
    runMayReset (i :: is) s = (mayReset s i || runMayReset is t) := by
  rw [runMayReset, h]

/-- A run of two parts is the second from where the first ends. -/
theorem runOps_append {a b : List Instr} {s : State} {r q : State × List (List PortOut)}
    (ha : runOps a s = some r) (hb : runOps b r.1 = some q) : runOps (a ++ b) s = some (q.1, r.2 ++ q.2) := by
  induction a generalizing s r with
  | nil =>
    cases ha
    simpa using hb
  | cons i is ih =>
    rw [runOps] at ha
    split at ha
    · next t ht =>
      obtain ⟨r', hr', rfl⟩ := Option.map_eq_some_iff.1 ha
      rw [List.cons_append, runOps_cons ht (ih hr' hb)]
      rfl
    · cases ha

@[simp] theorem commits_nil : commits [] = [] := rfl

theorem commits_append (a b : List (List PortOut)) : commits (a ++ b) = commits a ++ commits b := by simp [commits]

theorem commits_replicate_quiet (n : Nat) : commits (List.replicate n [.pstep none false]) = [] := by
  simp [commits, committedFrame]

theorem emissions_append (a b : List (List PortOut)) : emissions (a ++ b) = emissions a ++ emissions b := by
  simp [emissions]

/-- One more output carries its commit, if it has one. -/
theorem commits_snoc (l : List PortOut) (o : PortOut) : commits [l ++ [o]] = commits [l] ++ (committedFrame o).toList := by
  cases h : committedFrame o <;> simp [commits, h]

@[simp] theorem feed_nil : feed [] = [] := rfl

@[simp] theorem feed_cons (y : Nib) (l : List Nib) : feed (y :: l) = .pstep y :: feed l := rfl

@[simp] theorem feed_append (a b : List Nib) : feed (a ++ b) = feed a ++ feed b := by simp [feed]

@[simp] theorem lineSymbols_length (f : Frame) : (lineSymbols f).length = 7 + f.args.length := by
  simp [lineSymbols]
  omega

end Sys2Proof.Machine
end

