-- ==== Sys2Proof/Tests/Slice0.lean ====
section
/-! SUPPORT. Tests: ill-formed terms that WellFormed refuses, a word written out from the spec for every constructor, the
spec's vectors (95_test_vectors.md) one operation at a time, and for every statement with hypotheses a witness that
meets them. Expected results come from spec/ (its keys, tables and vectors), never from the model. -/

namespace Sys2Proof.Tests

open Sys2Proof Sys2Proof.Machine

/-! ## Helpers -/

/-- The next state, if the operation answers one. -/
def nextOf (r : Result) : Option State :=
  match r with
  | .next s => some s
  | _ => none

/-- What the operation drives on the output ports. -/
def outOf (r : Result) : Option (List PortOut) := (nextOf r).map State.out

/-- The parser's registers after the operation. -/
def parserOf (r : Result) : Option (PState × List Nib × BitVec 8) := (nextOf r).map fun s => (s.pstate, s.pbuf, s.pexp)

/-- Why the operation was refused. -/
def refusalOf (r : Result) : Option Refusal :=
  match r with
  | .refused x => some x
  | _ => none

/-- The operation a record decodes to, when nothing follows it. -/
def operationOf (bs : List Byte) : Option Instr :=
  match decode bs with
  | .ok (i, []) => some i
  | _ => none

/-- A block whose parser is in a given state, all else as after reset. -/
def parserAt (p : PState) (buf : List Nib) (len : BitVec 8) : State := { State.reset with pstate := p, pbuf := buf, pexp := len }

/-- A block with a queue, all else as after reset. -/
def queued (q : List Frame) : State := { State.reset with queue := q }

/-- A block in the middle of emitting `esyms`. -/
def emitting (syms : List Nib) (pos : BitVec 9) : State :=
  { State.reset with estate := .outputting, esyms := syms, epos := pos }

/-- The host between two ticks, all else as given. -/
def between (s : State) : State := { s with phase := .between }

/-- The host inside a tick, its PSTEP done. -/
def inside (s : State) : State := { s with phase := .inside }

/-- The echo request of V-A2, `(1, 4, [9,9])`. -/
def echo : Frame := ⟨1, 4, [9, 9]⟩

/-- The symbols of the echo request, from V-A2. -/
def echoSymbols : List Nib := [15, 1, 4, 0, 2, 9, 9, 0]

/-- The DataFrame of V-A1. -/
def scenarioA : Frame := ⟨0, 0, [1, 15, 9, 0, 0, 0, 0, 1, 1, 2, 3]⟩

/-- The smallest Frame, the empty NOP of V-B1. -/
def nop : Frame := ⟨1, 0, []⟩

/-! ## WellFormed refuses each ill-formed term -/

set_option maxRecDepth 4096 in
theorem test_ill_formed_args_too_long : Instr.wellFormed (.dctlNop (List.replicate 256 0)) = false := by decide

set_option maxRecDepth 4096 in
theorem test_well_formed_args_255 : Instr.wellFormed (.dctlNop (List.replicate 255 15)) = true := by decide

theorem test_ill_formed_control_code_of_a_dctl_row : Instr.wellFormed (.frameDataControl 12 []) = false := by decide

theorem test_ill_formed_reserved_type : Instr.wellFormed (.frameReservedType 4 0 []) = false := by decide

theorem test_ill_formed_noise_is_sof : Instr.wellFormed (.pstepIdleNoise 15) = false := by decide

theorem test_ill_formed_bad_eof_is_zero : Instr.wellFormed (.pstepEofBad 0) = false := by decide

theorem test_ill_formed_absorbed_zero : Instr.wellFormed (.pstepErrAbsorb 0) = false := by decide

theorem test_ill_formed_data_field : Instr.wellFormed (.encode (.mkData (2 ^ 40) 0 [] 0)) = false := by decide

theorem test_ill_formed_ctl_field : Instr.wellFormed (.txdg (.mkCtl (2 ^ 40) [])) = false := by decide

theorem test_ill_formed_status_field : Instr.wellFormed (.enq (some (.mkStatus 0 (2 ^ 40) 0 0))) = false := by decide

theorem test_ill_formed_status_ext_field :
    Instr.wellFormed (.tick 0 [.reset, .enq (some (.mkStatusExt 0 0 0 0 (2 ^ 40) 0))]) = false := by decide

theorem test_ill_formed_ipv4_field : Instr.wellFormed (.encode (.mkIPv4 0 0 0 0 (2 ^ 40) nop)) = false := by decide

theorem test_ill_formed_ipv4_ctl_field : Instr.wellFormed (.encode (.mkIPv4Ctl 0 0 (2 ^ 40) [])) = false := by decide

/-! ## Decoding, one word per constructor, written out from 30_encoding.md section 5 and spec/opcode_table.json -/

theorem test_decode_control_rows :
    operationOf [0b00010000, 0, 0] = some (.dctlNop []) ∧
    operationOf [0b00010001, 0, 0] = some (.dctlPortUnreachable []) ∧
    operationOf [0b00010010, 0, 0] = some (.dctlMalformedFrame []) ∧
    operationOf [0b00010011, 0, 0] = some (.dctlBlockBusy []) ∧
    operationOf [0b00010100, 0, 1, 9, 1, 9, 0] = some (.dctlEchoRequest [9, 9]) ∧
    operationOf [0b00010101, 0, 1, 15, 1, 0, 0] = some (.dctlEchoReply [15, 0]) ∧
    operationOf [0b00010110, 0, 0] = some (.dctlModeq []) ∧
    operationOf [0b00010111, 0, 0] = some (.dctlReset []) ∧
    operationOf [0b00011000, 0, 0] = some (.dctlSetport []) ∧
    operationOf [0b00011001, 0, 0] = some (.dctlStatusReply []) ∧
    operationOf [0b00011010, 0, 0] = some (.dctlHostUnreachable []) ∧
    operationOf [0b00011011, 0, 0] = some (.dctlNetworkError []) ∧
    operationOf [0b00011100, 0, 0] = some (.dctlTargetBusy []) := by decide

theorem test_decode_frame_rows :
    operationOf [0b00000110, 0, 1, 1, 1, 2, 0] = some (.frameData 6 [1, 2]) ∧
    operationOf [0b00011101, 0, 0] = some (.frameDataControl 13 []) ∧
    operationOf [0b00100001, 0, 0] = some (.frameStatus 1 []) ∧
    operationOf [0b00110010, 0, 0] = some (.frameIpv4 2 []) ∧
    operationOf [0b01000011, 0, 0] = some (.frameIpv4Control 3 []) ∧
    operationOf [0b01010100, 0, 0] = some (.frameReservedType 5 4 []) ∧
    operationOf [0b11110001, 0, 0] = some (.frameReservedType 15 1 []) := by decide

theorem test_decode_parser_rows :
    operationOf [0b00001111, 1] = some .pstepIdleSof ∧
    operationOf [0b00001110, 1] = some (.pstepIdleNoise 14) ∧
    operationOf [0b00010011, 1] = some (.pstepType 3) ∧
    operationOf [0b00100100, 1] = some (.pstepCode 4) ∧
    operationOf [0b00111111, 1] = some (.pstepLenHi 15) ∧
    operationOf [0b01000010, 1] = some (.pstepLenLo 2) ∧
    operationOf [0b01011001, 1] = some (.pstepArgs 9) ∧
    operationOf [0b01100000, 1] = some .pstepEofOk ∧
    operationOf [0b11100000, 1] = some .pstepEofDecodeFail ∧
    operationOf [0b01100111, 1] = some (.pstepEofBad 7) ∧
    operationOf [0b01110000, 1] = some .pstepErrResync ∧
    operationOf [0b01111111, 1] = some (.pstepErrAbsorb 15) := by decide

theorem test_decode_emitter_rows :
    operationOf [0b000, 2] = some .estepIdleEmpty ∧ operationOf [0b001, 2] = some .estepIdleEmpty ∧
    operationOf [0b010, 2] = some .estepIdleStart ∧ operationOf [0b011, 2] = some .estepIdleStart ∧
    operationOf [0b101, 2] = some .estepOutSym ∧ operationOf [0b111, 2] = some .estepOutSym ∧
    operationOf [0b100, 2] = some .estepOutEnd ∧ operationOf [0b110, 2] = some .estepOutEnd := by decide

theorem test_decode_port_operations :
    operationOf [0, 3, 15] = some (.pstep 15) ∧
    operationOf [1, 3] = some .estep ∧
    operationOf [2, 3, 9, 2, 3, 4, 1, 0, 0] = some (.tick 9 [.reset, .read .queueDepth, .enq none]) ∧
    operationOf [3, 3, 0] = some (.enq none) ∧
    operationOf [3, 3, 1, 1, 4, 1, 9, 1, 9, 0] = some (.enq (some (.raw echo))) ∧
    operationOf [4, 3] = some .reset ∧
    operationOf [5, 3, 5] = some (.read .errorFlags) ∧
    operationOf [6, 3, 3, 0, 0, 0, 0, 4, 1, 9, 1, 9, 0] = some (.encode (.mkCtl 4 [9, 9])) ∧
    operationOf [7, 3, 1, 4, 1, 9, 0] = some (.decode 1 4 [9]) ∧
    operationOf [8, 3, 1, 15, 0] = some (.decodeSym [15]) ∧
    operationOf [9, 3, 1, 1, 1, 2, 0] = some (.pack [1, 2]) ∧
    operationOf [10, 3, 1, 0xF0, 0] = some (.unpack [0xF0]) ∧
    operationOf [11, 3, 7, 0, 0, 0, 0, 0, 0, 0x0A, 0, 0, 1, 0, 0xC0, 0xA8, 0, 2, 1, 7, 0] =
      some (.txdg (.mkIPv4Ctl 0 0x0A000001 0xC0A80002 [7])) ∧
    operationOf [12, 3, 1, 0xF1, 1, 0, 0] = some (.rxdg [0xF1, 0]) := by decide

/-- 60_exceptions.md R266, D25 (V-E12): the symbol 16 is no symbol. -/
theorem test_symbol_16_is_refused : decode [0, 3, 16] = .error .symbolRange ∧ decode [2, 3, 16, 0] = .error .symbolRange :=
  ⟨rfl, rfl⟩

/-- Bytes that are no record are refused by name. -/
theorem test_bad_records :
    decode [0x10] = .error .truncated ∧ decode [0, 4] = .error .badFormat ∧ decode [0x80, 1] = .error .badKey ∧
    decode [8, 2] = .error .badKey ∧ decode [13, 3] = .error .badPort ∧ decode [9, 3, 2, 0] = .error .badMarker ∧
    decode [5, 3, 6] = .error .badTag :=
  ⟨rfl, rfl, rfl, rfl, rfl, rfl, rfl⟩

/-- The words of spec/opcode_table.json through the host's two entries: DCTL_NOP is 0x10 (8 bits), PSTEP_IDLE_SOF 0x0F of
a 7-bit key, ESTEP_IDLE_EMPTY 0 of a 3-bit key; the first step after reset runs each. -/
theorem test_table_words :
    decodeTableWord 8 0x10 = some (.dctlNop []) ∧ decodeTableWord 7 0x0F = some .pstepIdleSof ∧
    decodeTableWord 3 0 = some .estepIdleEmpty ∧
    outOf (step (State.reset.withFetchWord 8 0x10)) = some [.frame nop] ∧
    outOf (step (State.reset.withFetchWord 7 0x0F)) = some [.pstep none false] ∧
    outOf (step (State.reset.withFetchWord 3 0)) = some [.estep 0 false] := by decide

/-! ## The spec's vectors -/

/-- V-A1: the symbols of the Scenario A DataFrame. -/
theorem test_encode_scenario_a : outOf (exec (.encode (.mkData 8080 1 [1, 2, 3] 0)) State.reset) =
    some [.symbols [15, 0, 0, 0, 11, 1, 15, 9, 0, 0, 0, 0, 1, 1, 2, 3, 0]] := by decide

/-- V-B3: 15 and 0 among the args are copied unchanged, and 16 args give LEN_HI 1, LEN_LO 0. -/
theorem test_encode_length_sixteen :
    outOf (exec (.encode (.raw ⟨1, 3, [0, 1, 2, 3, 4, 5, 6, 7, 8, 9, 10, 11, 12, 13, 14, 15]⟩)) State.reset) =
    some [.symbols [15, 1, 3, 1, 0, 0, 1, 2, 3, 4, 5, 6, 7, 8, 9, 10, 11, 12, 13, 14, 15, 0]] := by decide

/-- V-C3 to V-C6: the args of the constructors. -/
theorem test_constructors :
    mkStatus 0 0x1234 3 2 = .ok ⟨2, 0, [10, 1, 2, 3, 4, 3, 2]⟩ ∧
    mkStatusExt 0 1 0 0 0x7F000001 0x0F9F =
      .ok ⟨2, 0, [10, 0, 0, 0, 1, 0, 0, 7, 15, 0, 0, 0, 0, 0, 1, 0, 15, 9, 15, 0]⟩ ∧
    mkIPv4 0 0x0A000001 0x1F90 0xC0A80002 0x0F9F echo = .ok ⟨3, 0, [0, 10, 0, 0, 0, 0, 0, 1, 1, 15, 9, 0,
      12, 0, 10, 8, 0, 0, 0, 2, 0, 15, 9, 15, 1, 4, 0, 2, 9, 9]⟩ ∧
    mkIPv4Ctl 0 0x0A000001 0xC0A80002 [7] = .ok ⟨4, 0, [0, 10, 0, 0, 0, 0, 0, 1, 12, 0, 10, 8, 0, 0, 0, 2, 7]⟩ :=
  ⟨rfl, rfl, rfl, rfl⟩

set_option maxRecDepth 4096 in
/-- V-C7, V-C8, V-C9: refused calls. -/
theorem test_constructor_refusals :
    refusalOf (exec (.encode (.mkData 0x10000 0 [] 0)) State.reset) = some .fieldDoesNotFit ∧
    refusalOf (exec (.encode (.mkIPv4 0 0 0 0 0 ⟨2, 0, [10, 0, 0, 0, 0, 0, 0]⟩)) State.reset) = some .innerNotEncapsulable ∧
    refusalOf (exec (.encode (.mkData 0 0 (List.replicate 248 0) 0)) State.reset) = some .payloadTooLong := by decide

/-- V-D1 to V-D3 and V-D19 to V-D22: rows and DECODE of short and unknown frames. -/
theorem test_decode_rows :
    outOf (exec (.frameData 0 [1, 2, 3]) State.reset) = some [.error (.decodeError .dataShort)] ∧
    outOf (exec (.frameData 9 (List.replicate 8 0)) State.reset) = some [.frame ⟨0, 9, List.replicate 8 0⟩] ∧
    outOf (exec (.frameIpv4Control 0 (List.replicate 15 0)) State.reset) = some [.error (.decodeError .ipv4CtlShort)] ∧
    outOf (exec (.frameIpv4Control 0 (List.replicate 16 0)) State.reset) = some [.frame ⟨4, 0, List.replicate 16 0⟩] ∧
    outOf (exec (.frameReservedType 5 0 []) State.reset) = some [.error (.decodeError .unknownType)] ∧
    outOf (exec (.decode 15 15 []) State.reset) = some [.error (.decodeError .unknownType)] := by decide

/-- V-D8 to V-D10: StatusFrames. -/
theorem test_decode_status :
    outOf (exec (.frameStatus 0 (List.replicate 6 10)) State.reset) = some [.error (.decodeError .statusShort)] ∧
    outOf (exec (.frameStatus 0 [9, 0, 0, 0, 0, 0, 0]) State.reset) = some [.error (.decodeError .statusSig)] ∧
    outOf (exec (.frameStatus 0 [10, 0, 0, 0, 0, 0, 0]) State.reset) = some [.frame ⟨2, 0, [10, 0, 0, 0, 0, 0, 0]⟩] := by
  decide

/-- V-D12 to V-D16 and V-D18: the checks of an IPv4Frame in their order. -/
theorem test_decode_ipv4 :
    outOf (exec (.frameIpv4 0 (List.replicate 27 0)) State.reset) = some [.error (.decodeError .ipv4Short)] ∧
    outOf (exec (.frameIpv4 0 (List.replicate 24 0 ++ [2, 0, 0, 0, 0])) State.reset) =
      some [.error (.decodeError .ipv4InnerType)] ∧
    outOf (exec (.frameIpv4 0 (List.replicate 24 0 ++ [0, 0, 0, 1])) State.reset) =
      some [.error (.decodeError .ipv4InnerLen)] ∧
    outOf (exec (.frameIpv4 0 (List.replicate 24 0 ++ [0, 0, 0, 0])) State.reset) =
      some [.error (.decodeError .ipv4InnerInvalid)] ∧
    outOf (exec (.frameIpv4 0 (List.replicate 24 0 ++ [1, 0, 0, 0])) State.reset) =
      some [.frame ⟨3, 0, List.replicate 24 0 ++ [1, 0, 0, 0]⟩] := by decide

set_option maxRecDepth 4096 in
/-- V-D5: the length check comes before the type check. -/
theorem test_decode_too_long :
    outOf (exec (.decode 9 0 (List.replicate 256 0)) State.reset) = some [.error (.decodeError .tooLong)] := by decide

/-- V-D24, V-D27, V-D28, V-D29, V-D31: the envelope. -/
theorem test_decode_symbols :
    outOf (exec (.decodeSym [14, 1, 0, 0, 0, 0]) State.reset) = some [.error (.decodeError .noSof)] ∧
    outOf (exec (.decodeSym [15, 1, 0, 0, 0]) State.reset) = some [.error (.decodeError .noEof)] ∧
    outOf (exec (.decodeSym [15, 1, 0, 0, 0, 5]) State.reset) = some [.error (.decodeError .noEof)] ∧
    outOf (exec (.decodeSym [15, 1, 0, 0, 1, 0]) State.reset) = some [.error (.decodeError .lenMismatch)] ∧
    outOf (exec (.decodeSym [15, 1, 0, 0, 0, 0]) State.reset) = some [.frame nop] := by decide

/-- V-E1, V-E2: noise and SOF in IDLE. -/
theorem test_pstep_idle :
    parserOf (exec (.pstep 14) State.reset) = some (.idle, [], 0) ∧
    parserOf (exec (.pstep 15) State.reset) = some (.type, [], 0) := by decide

/-- V-A2 ticks 2 to 5 and V-E3: the header. -/
theorem test_pstep_header :
    parserOf (exec (.pstep 1) (parserAt .type [] 0)) = some (.code, [1], 0) ∧
    parserOf (exec (.pstep 4) (parserAt .code [1] 0)) = some (.lenHi, [1, 4], 0) ∧
    parserOf (exec (.pstep 2) (parserAt .lenHi [1, 4] 0)) = some (.lenLo, [1, 4, 2], 0) ∧
    parserOf (exec (.pstep 0) (parserAt .lenLo [1, 4, 2] 0)) = some (.args, [1, 4, 2, 0], 32) ∧
    parserOf (exec (.pstep 0) (parserAt .lenLo [1, 0, 0] 0)) = some (.expectEof, [1, 0, 0, 0], 0) := by decide

/-- V-A2 ticks 6 to 8 and V-E7: args, 0 and 15 among them, and the commit. -/
theorem test_pstep_args_and_commit :
    parserOf (exec (.pstep 15) (parserAt .args [1, 2, 0, 3, 15] 3)) = some (.args, [1, 2, 0, 3, 15, 15], 3) ∧
    parserOf (exec (.pstep 0) (parserAt .args [1, 2, 0, 3, 15, 15] 3)) = some (.expectEof, [1, 2, 0, 3, 15, 15, 0], 3) ∧
    outOf (exec (.pstep 0) (parserAt .expectEof [1, 4, 0, 2, 9, 9] 2)) = some [.pstep (some echo) false] := by decide

/-- V-E4, V-E5: the two ways into ERROR, with what each leaves. -/
theorem test_pstep_error_entry :
    parserOf (exec (.pstep 7) (parserAt .expectEof [1, 4, 0, 2, 9, 9] 2)) = some (.error, [1, 4, 0, 2, 9, 9], 2) ∧
    parserOf (exec (.pstep 0) (parserAt .expectEof [5, 0, 0, 0] 0)) = some (.error, [5, 0, 0, 0], 0) ∧
    (nextOf (exec (.pstep 0) (parserAt .expectEof [5, 0, 0, 0] 0))).map (fun s => (s.framingErrors, s.eflags, s.events)) =
      some (1, 0b0010, [.feDecode .unknownType]) := by decide

/-- V-E6: ERROR absorbs 15, and 0 returns the parser to IDLE. -/
theorem test_pstep_resync :
    parserOf (exec (.pstep 15) (parserAt .error [5, 0, 0, 0] 0)) = some (.error, [5, 0, 0, 0], 0) ∧
    parserOf (exec (.pstep 0) (parserAt .error [5, 0, 0, 0] 0)) = some (.idle, [], 0) := by decide

/-- V-E11: with CTR_W = 2 the fourth framing error wraps the counter to 0 and the flag stays set. -/
theorem test_counter_wraps :
    (nextOf (exec (.pstepEofBad 7)
      { parserAt .expectEof [1, 4, 0, 0] 0 with framingErrors := 3, eflags := 2, cfg := ⟨2, []⟩ })).map
        (fun s => (s.framingErrors, s.eflags)) = some (0, 2) := by decide

/-- V-F1, V-F4: the emitter's idle symbol, and a symbol of the frame in flight. -/
theorem test_estep_symbols :
    outOf (exec .estep State.reset) = some [.estep 0 false] ∧
    outOf (exec .estep (emitting [15, 1, 0, 0, 0, 0] 1)) = some [.estep 1 false] := by decide

/-- V-F2: the SOF leaves on the step that takes the head of the queue. -/
theorem test_estep_start :
    (nextOf (exec .estep (queued [echo, nop]))).map (fun s => (s.out, s.esyms, s.epos, s.queue)) =
      some ([.estep 15 false], echoSymbols, 1, [nop]) := by decide

/-- V-F2: one idle 0 with `edone` ends the frame and counts it. -/
theorem test_estep_end :
    (nextOf (exec .estep (emitting [15, 1, 0, 0, 0, 0] 6))).map (fun s => (s.out, s.estate, s.framesEmitted)) =
      some ([.estep 0 true], .idle, 1) := by decide

set_option maxRecDepth 4096 in
/-- V-G1, V-G2, V-G4: ENQ of none, of an over-long candidate, of a malformed one. -/
theorem test_enq :
    nextOf (exec (.enq none) State.reset) = some { State.reset with out := [.enqOk false] } ∧
    (nextOf (exec (.enq (some (.raw ⟨1, 0, List.replicate 256 0⟩))) State.reset)).map
      (fun s => (s.out, s.overflowDrops, s.eflags, s.queue)) = some ([.enqOk false], 1, 1, []) ∧
    refusalOf (exec (.enq (some (.raw ⟨0, 0, [1, 2, 3]⟩))) State.reset) = some .malformedCandidate := by decide

/-- V-A5, V-G3: the 64th ENQ fits and the 65th is dropped. -/
theorem test_enq_full :
    outOf (exec (.enq (some (.raw nop))) (queued (List.replicate 63 nop))) = some [.enqOk true] ∧
    (nextOf (exec (.enq (some (.raw nop))) { queued (List.replicate 64 nop) with overflowDrops := 1, eflags := 1 })).map
      (fun s => (s.out, s.overflowDrops, s.eflags, s.queue.length)) = some ([.enqOk false], 2, 1, 64) := by decide

/-- V-G6, V-G7: READ after V-A3, and RESET. -/
theorem test_read_and_reset :
    outOf (exec (.read .errors) { State.reset with framingErrors := 1, eflags := 2 }) = some [.read .errors 1] ∧
    outOf (exec (.read .errorFlags) { State.reset with framingErrors := 1, eflags := 2 }) = some [.read .errorFlags 2] ∧
    nextOf (exec .reset { queued [nop, echo] with overflowDrops := 1, eflags := 1, pstate := .error }) = some State.reset := by
  decide

/-- The block about to read the echo request's EOF, launched with the callback `A`. -/
def echoDue (acts : List HostAct) : State :=
  { parserAt .expectEof [1, 4, 0, 2, 9, 9] 2 with phase := .between, cfg := ⟨32, [(nop, [.reset]), (echo, acts)]⟩ }

/-- V-A2 tick 8 and V-G9: the commit, the reply's ENQ by the callback, the host's READs before the ESTEP, the reply's SOF. -/
theorem test_tick_echo :
    (nextOf (exec (.tick 0 [.read .parsed, .read .emitted]) (echoDue [.enq (some (.mkCtl 5 [9, 9]))]))).map
      (fun s => (s.out, s.pstate, s.esyms, s.queue, s.framesParsed)) =
    some ([.pstep (some echo) false, .enqOk true, .read .parsed 1, .read .emitted 0, .estep 15 false],
      .idle, [15, 1, 5, 0, 2, 9, 9, 0], [], 1) := by decide

/-- V-G8: RESET inside the callback clears the frame just counted, and the ENQ after it refills `Q`. -/
theorem test_tick_reset_in_callback :
    (nextOf (exec (.tick 0 []) (echoDue [.reset, .enq (some (.mkCtl 5 [9, 9]))]))).map
      (fun s => (s.pstate, s.estate, s.epos, s.queue, s.framesParsed)) = some (.idle, .outputting, 1, [], 0) := by decide

/-- 43_queue_and_control.md R213, 60_exceptions.md R266: after a TICK the next steps are one PSTEP, then one ESTEP; a second
PSTEP, a TICK inside the tick and a second ESTEP have no move. -/
theorem test_tick_order :
    (nextOf (exec (.tick 3 []) State.reset)).map State.phase = some .between ∧
    (nextOf (exec (.pstep 3) (between State.reset))).map State.phase = some .inside ∧
    (nextOf (exec .estep (inside State.reset))).map State.phase = some .between ∧
    refusalOf (exec (.pstep 3) (inside State.reset)) = some .outOfTickOrder ∧
    refusalOf (exec (.tick 3 []) (inside State.reset)) = some .outOfTickOrder ∧
    refusalOf (exec .estep (between State.reset)) = some .outOfTickOrder := by decide

/-- V-A6, V-H5: PACK and UNPACK. -/
theorem test_packing :
    pack [15] = [0xF0] ∧ pack [1, 2, 3] = [0x12, 0x30] ∧ unpack [0x12, 0x30] = [1, 2, 3, 0] ∧
    outOf (exec (.pack [1]) State.reset) = some [.bytes [0x10]] ∧
    outOf (exec (.unpack [0xF0]) State.reset) = some [.symbols [15, 0]] := by decide

/-- V-H1, V-H3: TXDG without and with the pad. -/
theorem test_txdg :
    outOf (exec (.txdg (.mkCtl 4 [9, 9])) State.reset) = some [.bytes [0xF1, 0x40, 0x29, 0x90]] ∧
    outOf (exec (.txdg (.raw ⟨1, 0, [7]⟩)) State.reset) = some [.bytes [0xF1, 0x00, 0x17, 0x00]] := by decide

set_option maxRecDepth 4096 in
/-- V-B5 and 60_exceptions.md R252 row 7: 256 args raise EncodeTooLong in ENCODE and are no operand of TXDG (R233). -/
theorem test_too_long_to_encode :
    (nextOf (exec (.encode (.raw ⟨1, 0, List.replicate 256 0⟩)) State.reset)).map State.events = some [.encodeTooLong 256] ∧
    refusalOf (exec (.txdg (.raw ⟨1, 0, List.replicate 256 0⟩)) State.reset) = some .noEncoding := by decide

/-- V-H6, V-H8, V-H9, V-H12, V-H13, V-H15, V-H16: RXDG. -/
theorem test_rxdg :
    outOf (exec (.rxdg [0xF1, 0x00]) State.reset) = some [.error (.datagramError .short)] ∧
    outOf (exec (.rxdg [0x01, 0x40, 0x29, 0x90]) State.reset) = some [.error (.decodeError .noSof)] ∧
    outOf (exec (.rxdg [0xF0, 0, 0, 0]) State.reset) = some [.error (.datagramError .len)] ∧
    outOf (exec (.rxdg [0xF1, 0x40, 0x29, 0x91]) State.reset) = some [.error (.decodeError .noEof)] ∧
    outOf (exec (.rxdg [0xF1, 0x00, 0x10, 0x70]) State.reset) = some [.error (.decodeError .noEof)] ∧
    outOf (exec (.rxdg [0xF1, 0, 0]) State.reset) = some [.frame nop] ∧
    outOf (exec (.rxdg [0xF1, 0x40, 0x29, 0x90, 0]) State.reset) = some [.error (.datagramError .len)] := by decide

/-- V-H10: a pad that is not 0. -/
theorem test_rxdg_pad :
    outOf (exec (.rxdg [0xF0, 0x00, 0xB1, 0xF9, 0x00, 0x00, 0x11, 0x23, 0x01]) State.reset) =
      some [.error (.datagramError .pad)] := by decide

/-! ## Witnesses: a state and operands that meet each statement's hypotheses, clause by clause -/

/-- Args of a length. -/
def zeros (n : Nat) : List Nib := List.replicate n 0

/-- The largest Frame, V-B2's `(1, 7, [F]*255)`. -/
def largest : Frame := ⟨1, 7, List.replicate 255 15⟩

/-- V-B5's candidate of 256 args. -/
def overlong : Frame := ⟨1, 0, zeros 256⟩

theorem length_zeros (n : Nat) : (zeros n).length = n := List.length_replicate

theorem largest_valid : validFrame largest = true := (validFrame_iff _).2 ⟨Nat.le_of_eq List.length_replicate, rfl⟩

theorem test_witness_ControlRowsAnswerTheirFrame : (zeros 0).length ≤ 255 ∧ (zeros 255).length ≤ 255 := by
  simp only [length_zeros]
  decide

theorem test_witness_DataAndControlRowsDecode :
    8 ≤ (zeros 8).length ∧ (zeros 7).length < 8 ∧ 16 ≤ (zeros 16).length ∧ (zeros 15).length < 16 ∧
    (zeros 16).length ≤ 255 := by decide

theorem test_witness_StatusRowDecodes :
    (zeros 6).length < 7 ∧ (7 ≤ (zeros 7).length ∧ (zeros 7)[0]? ≠ some 0xA) ∧
    (7 ≤ ([10, 0, 0, 0, 0, 0, 0] : List Nib).length ∧ ([10, 0, 0, 0, 0, 0, 0] : List Nib)[0]? = some 0xA) := by decide

/-- V-D12 and V-D13 to V-D16, one list a clause. -/
theorem test_witness_Ipv4RowDecodes :
    (zeros 27).length < 28 ∧
    (2 ≤ (2 : Nib).toNat ∧ (zeros 24 ++ [2, 0, 0, 0])[24]? = some 2) ∧
    ((zeros 24 ++ [0, 0, 0, 1])[27]? = some 1 ∧ 16 * 0 + 1 + 28 ≠ (zeros 24 ++ [0, 0, 0, 1]).length) ∧
    ((zeros 24 ++ [0, 0, 0, 0]).length = 16 * 0 + 0 + 28 ∧ validArgs 0 0 ((zeros 24 ++ [0, 0, 0, 0]).drop 28) = false) ∧
    ((zeros 24 ++ [1, 0, 0, 0]).length = 16 * 0 + 0 + 28 ∧ validArgs 1 0 ((zeros 24 ++ [1, 0, 0, 0]).drop 28) = true) := by
  decide

theorem test_witness_ReservedTypeNeverDecodes : 5 ≤ (5 : Nib).toNat ∧ 5 ≤ (15 : Nib).toNat ∧ (zeros 255).length ≤ 255 :=
  ⟨by decide, by decide, by rw [length_zeros]⟩

theorem test_witness_EncodeLaysTheFrameOut :
    evalFrameOp (.raw largest) = .ok largest ∧ validFrame largest = true ∧
    evalFrameOp (.mkCtl 4 [9, 9]) = .ok echo ∧ validFrame echo = true := ⟨rfl, largest_valid, rfl, by decide⟩

/-- 255 args of a TYPE that never decodes, and V-B5. -/
theorem test_witness_EncodeOfAnyRecord :
    (evalFrameOp (.raw ⟨5, 0, zeros 255⟩) = .ok ⟨5, 0, zeros 255⟩ ∧ (zeros 255).length ≤ 255) ∧
    (evalFrameOp (.raw overlong) = .ok overlong ∧ 255 < overlong.args.length) :=
  ⟨⟨rfl, by rw [length_zeros]⟩, rfl, by simp [overlong, length_zeros]⟩

theorem test_witness_DecodeAgreesWithItsRow : 255 < (zeros 256).length ∧ validArgs 0 9 (zeros 8) = true :=
  ⟨by simp [length_zeros], by decide⟩

/-- Both sides of the equivalence hold of a DataFrame and of an IPv4Frame whose inner frame has one arg. -/
theorem test_witness_DecodeSucceedsExactlyOnFrames :
    decodeFrame 0 9 (zeros 8) = .ok ⟨0, 9, zeros 8⟩ ∧ 8 ≤ (zeros 8).length ∧
    decodeFrame 3 0 (zeros 24 ++ [1, 0, 0, 1, 7]) = .ok ⟨3, 0, zeros 24 ++ [1, 0, 0, 1, 7]⟩ ∧
    16 * (0 : Nib).toNat + (1 : Nib).toNat + 28 = (zeros 24 ++ [1, 0, 0, 1, 7]).length :=
  ⟨rfl, by decide, rfl, by decide⟩

theorem test_witness_DecodeSymbolsChecksTheEnvelope :
    ([] : List Nib)[0]? ≠ some 15 ∧ ([14, 1, 0, 0, 0, 0] : List Nib)[0]? ≠ some 15 ∧
    (([15] : List Nib)[0]? = some 15 ∧ ([15] : List Nib).length < 6) ∧
    (([15, 1, 0, 0, 0, 5] : List Nib)[0]? = some 15 ∧ ([15, 1, 0, 0, 0, 5] : List Nib).getLast? ≠ some 0) ∧
    16 * (0 : Nib).toNat + (1 : Nib).toNat ≠ ([] : List Nib).length ∧
    16 * (15 : Nib).toNat + (15 : Nib).toNat = 255 := by decide

theorem test_witness_FrameRoundTrip :
    evalFrameOp (.raw largest) = .ok largest ∧ validFrame largest = true ∧
    evalFrameOp (.mkData 8080 1 [1, 2, 3] 0) = .ok scenarioA ∧ validFrame scenarioA = true :=
  ⟨rfl, largest_valid, rfl, by decide⟩

theorem test_witness_DecodeSymbolsAcceptsOnlyEncodings :
    decodeSymbols echoSymbols = .ok echo ∧ validFrame echo = true ∧ encodeFrame echo = .ok echoSymbols :=
  ⟨rfl, by decide, rfl⟩

/-- The largest value of each field, and 255 args where the constructor takes a list. -/
theorem test_witness_ConstructorsGiveTheirFieldsBack :
    (∃ f, mkData 65535 65535 (zeros 247) 15 = .ok f) ∧ (∃ f, mkCtl 15 (zeros 255) = .ok f) ∧
    (∃ f, mkStatus 15 65535 15 15 = .ok f) ∧ (∃ f, mkStatusExt 15 65535 15 15 4294967295 65535 = .ok f) ∧
    (∃ f, mkIPv4 15 4294967295 65535 4294967295 65535 ⟨1, 0, zeros 227⟩ = .ok f) ∧
    (∃ f, mkIPv4Ctl 15 4294967295 4294967295 (zeros 239) = .ok f) := by
  have hv : validFrame ⟨1#4, 0#4, zeros 227⟩ = true := (validFrame_iff _).2 ⟨by simp [length_zeros], rfl⟩
  refine ⟨?_, ?_, ?_, ?_, ?_, ?_⟩ <;>
    simp [mkData, mkCtl, mkStatus, mkStatusExt, mkIPv4, mkIPv4Ctl, fits, length_zeros, hv]

theorem test_witness_ConstructorsRefuseWhatDoesNotFit :
    evalFrameOp (.mkData 0x10000 0 [] 0) = .error .fieldDoesNotFit ∧
    evalFrameOp (.mkCtl 0 (zeros 256)) = .error .payloadTooLong ∧
    evalFrameOp (.mkIPv4 0 0 0 0 0 ⟨5, 0, []⟩) = .error .innerNotEncapsulable :=
  ⟨rfl, by simp [evalFrameOp, mkCtl, fits, length_zeros], rfl⟩

theorem test_witness_PackPutsTwoNibblesInAByte : 1 < (pack [1, 2, 3]).length := by decide

theorem test_witness_UnpackSplitsBytesHighNibbleFirst : ([0x12, 0xF0] : List Byte)[1]? = some 0xF0 := by decide

theorem test_witness_TxDatagramPacksTheEncoding : evalFrameOp (.mkCtl 4 [9, 9]) = .ok echo ∧ validFrame echo = true :=
  ⟨rfl, by decide⟩

theorem test_witness_DatagramRoundTrip : evalFrameOp (.raw largest) = .ok largest ∧ validFrame largest = true :=
  ⟨rfl, largest_valid⟩

/-- V-H6, V-H8, V-H9, V-H10 and V-H3, one datagram a clause, and one that answers a next state. -/
theorem test_witness_RxDatagramReasonsInOrder :
    ([0xF1, 0x00] : List Byte).length < 3 ∧
    (unpack [0x01, 0x40, 0x29] = [0, 1, 4, 0, 2, 9] ∧ 3 ≤ ([0x01, 0x40, 0x29] : List Byte).length ∧ (0 : Nib) ≠ 15) ∧
    (unpack [0xF0, 0, 0, 0] = 15 :: 0 :: 0 :: 0 :: 0 :: [0, 0, 0] ∧ 2 * 4 ≠ 6 + 6 % 2) ∧
    (unpack [0xF1, 0, 0x17, 0x05] = 15 :: 1 :: 0 :: 0 :: 1 :: [7, 0, 5] ∧ 2 * 4 = 7 + 1 ∧ 7 % 2 = 1 ∧
      (unpack [0xF1, 0, 0x17, 0x05])[7]? ≠ some 0) ∧
    (unpack [0xF1, 0, 0x17, 0x00] = 15 :: 1 :: 0 :: 0 :: 1 :: [7, 0, 0] ∧ 2 * 4 = 7 + 7 % 2 ∧
      (unpack [0xF1, 0, 0x17, 0x00])[7]? = some 0) ∧
    (nextOf (exec (.rxdg [0xF1, 0, 0x17, 0x00]) State.reset)).isSome = true := by decide

theorem test_witness_PadIsSafeForTheParser :
    validFrame scenarioA = true ∧
    txDatagram scenarioA = .ok [0xF0, 0x00, 0xB1, 0xF9, 0x00, 0x00, 0x11, 0x23, 0x00] ∧
    State.reset.phase = .unstarted ∧ State.reset.pstate = .idle ∧ State.reset.pbuf = [] ∧ State.reset.pexp = 0 :=
  ⟨by decide, rfl, rfl, rfl, rfl, rfl⟩

/-- The phases in which a PSTEP is in the tick order, and where each leads; the states below stand in one of them. -/
theorem test_witness_parser_turns :
    phaseAfterPstep State.reset.phase = some .unstarted ∧ phaseAfterPstep (between State.reset).phase = some .inside :=
  ⟨rfl, rfl⟩

/-- The phases in which an ESTEP is in the tick order, and where each leads. -/
theorem test_witness_emitter_turns :
    phaseAfterEstep State.reset.phase = some .unstarted ∧ phaseAfterEstep (inside State.reset).phase = some .between :=
  ⟨rfl, rfl⟩

theorem test_witness_SofStartsAndNoiseIsIgnored :
    phaseAfterPstep State.reset.phase = some .unstarted ∧ phaseAfterPstep (parserAt .error [5, 0, 0, 0] 0).phase = some .unstarted ∧
    State.reset.pstate = .idle ∧ (14 : Nib) ≠ 15 ∧ (parserAt .error [5, 0, 0, 0] 0).pstate = .error ∧ (15 : Nib) ≠ 0 := by
  decide

theorem test_witness_HeaderNibblesAreAppendedVerbatim :
    phaseAfterPstep (parserAt .type [] 0).phase = some .unstarted ∧
    phaseAfterPstep (between (parserAt .code [1] 0)).phase = some .inside ∧
    (parserAt .type [] 0).pstate = .type ∧ (parserAt .code [1] 0).pstate = .code ∧
    (parserAt .lenHi [1, 4] 0).pstate = .lenHi := by decide

/-- The two clauses at LEN 0, 1 and 255. -/
theorem test_witness_LengthChoosesArgsOrEof :
    phaseAfterPstep (parserAt .lenLo [1, 4, 0] 0).phase = some .unstarted ∧
    (parserAt .lenLo [1, 4, 0] 0).pstate = .lenLo ∧ ([1, 4, 0] ++ [0] : List Nib)[2]? = some 0 ∧
    16 * (0 : Nib).toNat + (0 : Nib).toNat = 0 ∧ 16 * (0 : Nib).toNat + (1 : Nib).toNat ≠ 0 ∧
    ([1, 4, 15] ++ [15] : List Nib)[2]? = some 15 ∧ 16 * (15 : Nib).toNat + (15 : Nib).toNat ≠ 0 := by decide

/-- 3 args declared: one read of three, the third, and the overrun no run reaches. -/
theorem test_witness_ArgsAreCountedAgainstTheLength :
    phaseAfterPstep (parserAt .args [1, 2, 0, 3] 3).phase = some .unstarted ∧
    (parserAt .args [1, 2, 0, 3] 3).pstate = .args ∧
    ([1, 2, 0, 3] : List Nib).length + 1 < (3 : BitVec 8).toNat + 4 ∧
    ([1, 2, 0, 3, 9, 9] : List Nib).length + 1 = (3 : BitVec 8).toNat + 4 ∧
    (3 : BitVec 8).toNat + 4 < ([1, 2, 0, 3, 9, 9, 9] : List Nib).length + 1 := by decide

theorem test_witness_EofCommitsTheFrame :
    phaseAfterPstep (parserAt .expectEof [1, 4, 0, 2, 9, 9] 2).phase = some .unstarted ∧
    (parserAt .expectEof [1, 4, 0, 2, 9, 9] 2).pstate = .expectEof ∧
    (parserAt .expectEof [1, 4, 0, 2, 9, 9] 2).pbuf = 1 :: 4 :: [0, 2, 9, 9] ∧
    decodeFrame 1 4 ([1, 4, 0, 2, 9, 9].drop 4) = .ok echo := ⟨rfl, rfl, rfl, rfl⟩

theorem test_witness_BadEofEntersError :
    phaseAfterPstep (between (parserAt .expectEof [5, 0, 0, 0] 0)).phase = some .inside ∧
    ((parserAt .expectEof [5, 0, 0, 0] 0).pstate = .expectEof ∧
      (parserAt .expectEof [5, 0, 0, 0] 0).pbuf = 5 :: 0 :: [0, 0] ∧
      decodeFrame 5 0 ([5, 0, 0, 0].drop 4) = .error .unknownType) ∧ (7 : Nib) ≠ 0 :=
  ⟨rfl, ⟨rfl, rfl, rfl⟩, by decide⟩

theorem test_witness_ZeroResynchronises :
    phaseAfterPstep (parserAt .error [5, 0, 0, 0] 0).phase = some .unstarted ∧
    (parserAt .error [5, 0, 0, 0] 0).pstate = .error := ⟨rfl, rfl⟩

theorem test_witness_PstepTakesItsRow :
    parserRow State.reset 15 = .pstepIdleSof ∧ parserRow (parserAt .expectEof [5, 0, 0, 0] 0) 0 = .pstepEofDecodeFail :=
  ⟨rfl, rfl⟩

/-- The invariants hold in the middle of a frame, with a full queue. -/
theorem test_witness_StepsAlwaysComplete :
    (phaseAfterPstep (between (parserAt .args [1, 4, 0, 2, 9] 2)).phase = some .inside ∧
      ParserInv (parserAt .args [1, 4, 0, 2, 9] 2)) ∧
    (phaseAfterEstep (inside (queued (List.replicate 64 echo))).phase = some .between ∧
      QueueInv (queued (List.replicate 64 echo))) :=
  ⟨⟨rfl, by decide, by decide, rfl⟩, rfl, by decide, fun f hf => by rw [List.eq_of_mem_replicate hf]; decide⟩

theorem test_witness_RowsStopOutsideTheirCondition :
    ((inside State.reset).phase = .inside ∧ parserOp (.pstepType 3) = true) ∧
    ((between State.reset).phase = .between ∧ emitterOp .estepOutEnd = true) ∧
    State.reset.phase ≠ .inside ∧ State.reset.phase ≠ .between ∧
    (parserAt .type [] 0).pstate ≠ .idle ∧ State.reset.pstate ≠ .expectEof ∧ State.reset.pstate ≠ .error ∧
    decodeBuffer [5, 0, 0, 0] = some (.error .unknownType) ∧ decodeBuffer [1, 4, 0, 2, 9, 9] = some (.ok echo) ∧
    (emitting echoSymbols 8).estate ≠ .idle ∧ (emitting echoSymbols 8).esyms.length ≤ (8 : BitVec 9).toNat ∧
    (7 : BitVec 9).toNat < (emitting echoSymbols 7).esyms.length ∧
    ((parserAt .lenLo [1] 0).pstate = .lenLo ∧ ([1] : List Nib).length < 2) :=
  ⟨⟨rfl, rfl⟩, ⟨rfl, rfl⟩, by decide, by decide, by decide, by decide, by decide, rfl, rfl, by decide, by decide, by decide,
    by decide⟩

theorem test_witness_ParserCommitsWhatWasEncoded :
    validFrame largest = true ∧ encodeFrame largest = .ok (frameSymbols largest) ∧
    State.reset.pstate = .idle ∧ State.reset.pbuf = [] ∧ State.reset.pexp = 0 ∧ State.reset.phase = .unstarted ∧
    (between State.reset).phase ≠ .inside ∧ QueueInv (between State.reset) :=
  ⟨largest_valid, encodeFrame_of_valid largest_valid, rfl, rfl, rfl, rfl, by decide, by decide, fun f hf => by cases hf⟩

/-- LEN_LO with LEN_HI 15, where the most zeros are needed. -/
theorem test_witness_ZerosReachIdle :
    ParserInv (parserAt .lenLo [1, 4, 15] 0) ∧ zerosToEof (parserAt .lenLo [1, 4, 15] 0) = 241 ∧
    (parserAt .lenLo [1, 4, 15] 0).phase = .unstarted ∧ (between (parserAt .lenLo [1, 4, 15] 0)).phase ≠ .inside ∧
    QueueInv (parserAt .lenLo [1, 4, 15] 0) :=
  ⟨⟨rfl, rfl⟩, rfl, rfl, by decide, by decide, fun f hf => by cases hf⟩

/-- One operation into ERROR and one out of it. -/
theorem test_witness_ErrorIsEnteredOnlyAtEof :
    ParserInv (parserAt .expectEof [5, 0, 0, 0] 0) ∧
    (nextOf (exec (.pstep 0) (parserAt .expectEof [5, 0, 0, 0] 0))).map State.pstate = some .error ∧
    ParserInv (parserAt .error [5, 0, 0, 0] 0) ∧
    (nextOf (exec (.tick 0 []) (parserAt .error [5, 0, 0, 0] 0))).map State.pstate = some .idle :=
  ⟨⟨rfl, rfl⟩, rfl, ⟨rfl, rfl⟩, rfl⟩

theorem test_witness_IdleEmitterStartsTheHeadFrame :
    phaseAfterEstep (inside State.reset).phase = some .between ∧
    phaseAfterEstep (queued [largest, echo]).phase = some .unstarted ∧
    State.reset.estate = .idle ∧ State.reset.queue = [] ∧
    (queued [largest, echo]).estate = .idle ∧ (queued [largest, echo]).queue = largest :: [echo] ∧
    largest.args.length ≤ 255 ∧ (queued [overlong]).queue = overlong :: [] ∧ 255 < overlong.args.length :=
  ⟨rfl, rfl, rfl, rfl, rfl, rfl, Nat.le_of_eq List.length_replicate, rfl, by simp [overlong, length_zeros]⟩

theorem test_witness_OutputtingEmitterEmitsThenEnds :
    phaseAfterEstep (emitting echoSymbols 7).phase = some .unstarted ∧
    phaseAfterEstep (inside (emitting echoSymbols 8)).phase = some .between ∧
    (emitting echoSymbols 7).estate = .outputting ∧ (emitting echoSymbols 7).esyms[(7 : BitVec 9).toNat]? = some 0 ∧
    (emitting echoSymbols 8).esyms.length ≤ (emitting echoSymbols 8).epos.toNat := by decide

theorem test_witness_EmitterPutsFramesOutWhole :
    (∀ f ∈ [nop, echo], validFrame f = true) ∧ (queued [nop, echo, scenarioA]).phase = .unstarted ∧
    (queued [nop, echo, scenarioA]).estate = .idle ∧
    (queued [nop, echo, scenarioA]).esyms = [] ∧ (queued [nop, echo, scenarioA]).epos = 0 ∧
    (queued [nop, echo, scenarioA]).queue = [nop, echo] ++ [scenarioA] := by decide

def sevenTicks : List Instr := .tick 15 [.enq (some (.raw nop))] :: .enq none :: List.replicate 6 (.tick 0 [])

/-- The clause of the ticks, and the clause of any run: seven TICKs, an ENQ among them, put out a frame of no args. -/
theorem test_witness_EmitterPutsFramesOutWhole_ticks :
    (between (queued [nop, echo])).phase ≠ .inside ∧ ParserInv (between (queued [nop, echo])) ∧
    QueueInv (between (queued [nop, echo])) ∧ (List.replicate 7 (15 : Nib)).length = ([nop].flatMap lineSymbols).length ∧
    runMayReset sevenTicks (queued [nop, echo]) = false ∧
    (runOps sevenTicks (queued [nop, echo])).map (fun r => (emissions r.2).length) =
      some ([nop].flatMap lineOutputs).length :=
  ⟨by decide, ⟨rfl, rfl⟩, ⟨by decide, by decide⟩, by decide, by decide, by decide⟩

theorem test_witness_PeerParserCommitsTheLine :
    (∀ f ∈ [nop, echo], validFrame f = true) ∧ State.reset.phase = .unstarted ∧ State.reset.pstate = .idle ∧ State.reset.pbuf = [] ∧
    State.reset.pexp = 0 := by decide

def nopTicks : List Instr := (lineSymbols nop).map fun y => .tick y []

/-- A host that answers one frame with an ENQ and another with a RESET. -/
def answering : State := { State.reset with cfg := ⟨32, [(nop, [.enq (some (.raw echo))]), (echo, [.reset])]⟩ }

/-- The clause of any run: TICKs on a frame's symbols, whose callback answers it. -/
theorem test_witness_PeerParserCommitsTheLine_ticks :
    (between State.reset).phase ≠ .inside ∧ QueueInv (between State.reset) ∧
    runMayReset nopTicks answering = false ∧ (runOps nopTicks answering).isSome = true ∧
    nopTicks.filterMap inputSymbol = [nop].flatMap lineSymbols :=
  ⟨by decide, ⟨by decide, fun f hf => by cases hf⟩, by decide, by decide, by decide⟩

theorem test_witness_EnqueueAppendsAFrame :
    evalFrameOp (.mkCtl 4 [9, 9]) = .ok echo ∧ validFrame echo = true ∧ (queued (List.replicate 63 nop)).queue.length < 64 :=
  ⟨rfl, by decide, by decide⟩

theorem test_witness_FullQueueDropsAFrame :
    evalFrameOp (.mkCtl 4 [9, 9]) = .ok echo ∧ validFrame echo = true ∧ (queued (List.replicate 64 nop)).queue.length = 64 :=
  ⟨rfl, by decide, by decide⟩

theorem test_witness_OverlongAndMalformedCandidates :
    (evalFrameOp (.raw overlong) = .ok overlong ∧ validCandidate overlong = true ∧ 255 < overlong.args.length) ∧
    (evalFrameOp (.raw ⟨0, 0, [1, 2, 3]⟩) = .ok ⟨0, 0, [1, 2, 3]⟩ ∧ validCandidate ⟨0, 0, [1, 2, 3]⟩ = false) :=
  ⟨⟨rfl, rfl, by simp [overlong, length_zeros]⟩, rfl, rfl⟩

theorem test_witness_SixtyFourFramesFillTheQueue :
    (List.replicate 64 (FrameOp.mkCtl 4 [9, 9])).map evalFrameOp = (List.replicate 64 echo).map .ok ∧
    (∀ g ∈ List.replicate 64 echo, validFrame g = true) ∧ (List.replicate 64 echo).length = 64 ∧
    evalFrameOp (.raw nop) = .ok nop ∧ validFrame nop = true ∧ State.reset.queue = [] :=
  ⟨by rw [List.map_replicate, List.map_replicate]; rfl,
    fun g hg => by rw [List.eq_of_mem_replicate hg]; decide, List.length_replicate, rfl, by decide, rfl⟩

/-- A committing PSTEP with a callback, and a quiet one. -/
theorem test_witness_TickIsPstepCallbackEstep :
    (echoDue [.enq none]).phase = .between ∧
    (nextOf (exec (.pstep 0) (echoDue [.enq none]))).bind (fun u =>
      (runOps [.enq none, .read .parsed, .estep] u).map fun r => (commits [u.out], callbackOf u.cfg.callback echo, r.2)) =
        some ([echo], [.enq none], [[.enqOk false], [.read .parsed 1], [.estep 0 false]]) ∧
    (nextOf (exec (.pstep 0) (between State.reset))).bind (fun u => (runOps [.estep] u).map Prod.snd) =
      some [[.estep 0 false]] ∧
    State.reset.phase = .unstarted := by
  decide

theorem test_witness_TickCompletes :
    Clean (between State.reset) ∧ (between State.reset).phase ≠ .inside ∧
    (tickActs (echoDue [.enq (some (.mkCtl 5 [9, 9])), .reset]) 0
      [.enq (some (.mkCtl 4 [9, 9])), .reset, .read .drops, .enq none]).all actDefined = true :=
  ⟨rfl, by decide, by decide⟩

theorem test_witness_CallbackFrameStartsOnTheSameTick :
    (∃ u, exec (.pstep 0) (echoDue [.enq (some (.mkCtl 4 [9, 9]))]) = .next u ∧ u.out = [.pstep (some echo) false]) ∧
    (echoDue [.enq (some (.mkCtl 4 [9, 9]))]).estate = .idle ∧ (echoDue [.enq (some (.mkCtl 4 [9, 9]))]).queue = [] ∧
    callbackOf (echoDue [.enq (some (.mkCtl 4 [9, 9]))]).cfg.callback echo = [.enq (some (.mkCtl 4 [9, 9]))] ∧
    evalFrameOp (.mkCtl 4 [9, 9]) = .ok echo ∧ validFrame echo = true :=
  ⟨⟨_, rfl, rfl⟩, rfl, rfl, rfl, rfl, by decide⟩

theorem test_witness_QuiescentTickChangesNothing :
    Quiescent (between State.reset) ∧ (between State.reset).phase ≠ .inside := ⟨⟨rfl, rfl, rfl⟩, by decide⟩

theorem test_witness_ResetStateIsCleanAndMeetsTheInvariants :
    Clean State.reset ∧ Clean (between { State.reset with cfg := ⟨1, [(echo, [.reset])]⟩, ops := [1, 3] }) := ⟨rfl, rfl⟩

/-- A state in the middle of a frame on both sides, with a frame queued and counters running, meets the invariants. -/
def midway : State :=
  { parserAt .args [1, 4, 0, 2, 9] 2 with
    estate := .outputting, esyms := echoSymbols, epos := 3, queue := [nop], framesParsed := 2, framingErrors := 1
    overflowDrops := 1, eflags := 3, ops := [0, 3, 9] }

theorem midway_inv : BlockInv midway :=
  ⟨⟨by decide, by decide, rfl⟩, ⟨⟨echo, by decide, rfl⟩, by decide, by decide⟩, ⟨by decide, by decide⟩,
    by decide, by decide, by decide, by decide, by decide, fun _ => rfl, fun _ => rfl⟩

theorem test_witness_EveryStepKeepsTheInvariants : BlockInv midway ∧ ∃ t, step midway = .next t := ⟨midway_inv, _, rfl⟩

theorem test_witness_NoStepFaults : BlockInv midway := midway_inv

theorem test_witness_PureOperationsChangeNoState : readsOnly (.pack [1]) = true ∧ ∃ t, exec (.pack [1]) midway = .next t :=
  ⟨rfl, _, rfl⟩

theorem test_witness_EachPartLeavesTheOthersAlone :
    (parserOp (.pstep 9) = true ∧ ∃ t, exec (.pstep 9) midway = .next t) ∧
    (emitterOp .estepOutSym = true ∧ ∃ t, exec .estepOutSym (inside midway) = .next t) ∧
    (∃ t, exec (.tick 9 [.reset]) (between midway) = .next t) ∧
    (∃ t, exec (.enq (some (.raw nop))) midway = .next t) :=
  ⟨⟨rfl, _, rfl⟩, ⟨rfl, _, rfl⟩, ⟨_, rfl⟩, _, rfl⟩

theorem test_witness_ErrorFlagsAreSticky :
    mayReset midway (.tick 9 [.enq none]) = false ∧ (∃ t, exec (.tick 9 [.enq none]) midway = .next t) ∧
    midway.eflags.getLsbD 0 = true ∧ midway.eflags.getLsbD 1 = true := ⟨rfl, ⟨_, rfl⟩, rfl, rfl⟩

/-- The echo request's EOF is due, the queue is full and a frame's last symbol is out. -/
def countersDue : State :=
  { parserAt .expectEof [1, 4, 0, 2, 9, 9] 2 with
    estate := .outputting, esyms := echoSymbols, epos := 8, queue := List.replicate 64 nop
    cfg := ⟨32, [(echo, [.enq (some (.raw nop))])]⟩ }

/-- A callback that resets on a committed DCTL RESET makes no other TICK one that may reset. -/
theorem test_tick_resets_by_its_own_frame :
    let s := { countersDue with cfg := ⟨32, [(⟨1, 7, []⟩, [.reset]), (echo, [.read .parsed])]⟩ }
    mayReset s (.tick 0 []) = false ∧ mayReset s (.tick 0 [.reset]) = true ∧
      mayReset { s with pbuf := [1, 7, 0, 0], pexp := 0 } (.tick 0 []) = true := by decide

/-- A TICK that commits, drops a frame and ends a frame: every counter but one moves. -/
theorem test_witness_CountersCountTheirEvents :
    mayReset countersDue (.tick 0 [.read .drops]) = false ∧
    (nextOf (exec (.tick 0 [.read .drops]) countersDue)).map
      (fun s => (s.framesParsed, s.framingErrors, s.framesEmitted, s.overflowDrops)) = some (1, 0, 1, 1) := by decide

/-- The largest values a record carries. -/
theorem test_witness_DecodeOfEncodeIsTheOperation :
    Instr.wellFormed (.encode (.mkData (2 ^ 40 - 1) (2 ^ 40 - 1) [15, 0] (2 ^ 40 - 1))) = true ∧
    Instr.wellFormed (.pstepIdleNoise 14) = true ∧ Instr.wellFormed (.frameReservedType 5 0 []) = true ∧
    Instr.wellFormed (.frameDataControl 13 []) = true := by decide

theorem test_witness_DecodedOperationsAreWellFormed : decode [0x1D, 0, 0, 7] = .ok (.frameDataControl 13 [], [7]) := rfl

theorem test_witness_StepRunsTheDecodedOperation :
    decode midway.ops = .ok (.pstep 9, []) ∧ State.reset.ops = [] ∧
    ((([0, 4] : List Byte) ≠ []) ∧ decode [0, 4] = .error .badFormat) := ⟨rfl, rfl, by decide, rfl⟩

end Sys2Proof.Tests
end

section
/-! PROOFS. The frame codec's operations (40_frame_codec.md): ENCODE of the frame its operand denotes. -/

namespace Sys2Proof.Machine

/-- An operation on an operand that denotes a frame is the operation on that frame (40_frame_codec.md R111). -/
theorem withFrame_of_eval {op : FrameOp} {f : Frame} (k : Frame → Result) (hop : evalFrameOp op = .ok f) :
    withFrame op k = k f := by
  simp only [withFrame, hop]

/-- ENCODE drives the symbols of the frame its operand denotes, and nothing else changes (40_frame_codec.md R112). -/
theorem exec_encode_of_ok {op : FrameOp} {f : Frame} {l : List Nib} (s : State) (hop : evalFrameOp op = .ok f)
    (henc : encodeFrame f = .ok l) :
    exec (.encode op) s = .next { s with out := [.symbols l], events := [] } := by
  have hexec : exec (.encode op) s = execEncode op s := rfl
  rw [hexec, execEncode, withFrame_of_eval _ hop, henc]
  rfl

/-- Settles O6: a Frame encodes to its symbols (it has at most 255 args), and those are the written-out layout. -/
theorem encodeLaysTheFrameOut : Obligations.EncodeLaysTheFrameOut := by
  intro op f s hop hvalid
  rw [← frameSymbols_eq]
  exact exec_encode_of_ok s hop (encodeFrame_of_valid hvalid)

end Sys2Proof.Machine
end

section
/-! PROOFS. ENQ (43_queue_and_control.md): of no frame, and of a Frame into a queue that is not full. -/

namespace Sys2Proof.Machine

/-- ENQ of an operand that denotes a candidate enqueues that candidate (43_queue_and_control.md R205). -/
theorem exec_enq_of_ok {op : FrameOp} {f : Frame} (s : State) (hop : evalFrameOp op = .ok f) :
    exec (.enq (some op)) s = enqueue (some f) s.begin :=
  withFrame_of_eval (fun f => enqueue (some f) s.begin) hop

/-- A Frame passes the checks on a candidate, so a queue with room takes it (43_queue_and_control.md R200, R205). -/
theorem enqueue_frame_of_room {f : Frame} {s : State} (hvalid : validFrame f = true) (hroom : s.queue.length < queueCap) :
    enqueue (some f) s = .next ((s.push f).drive (.enqOk true)) := by
  have hcandidate : validCandidate f = true := candidate_of_valid hvalid
  have hlength : ¬ maxArgs < f.args.length := Nat.not_lt.2 (validFrame_length hvalid)
  have hnotFull : ¬ queueCap ≤ s.queue.length := Nat.not_le.2 hroom
  simp [enqueue, hcandidate, hlength, hnotFull]

/-- Settles O40: with no frame presented ENQ only answers false, and a Frame meets no check that drops or refuses it. -/
theorem enqueueAppendsAFrame : Obligations.EnqueueAppendsAFrame := by
  intro s
  constructor
  · rfl
  · intro op f hop hvalid hroom
    rw [exec_enq_of_ok s hop]
    exact enqueue_frame_of_room (s := s.begin) hvalid hroom

end Sys2Proof.Machine
end

section
/-! PROOFS. The gateway's packing (44_gateway_packing.md): PACK and UNPACK nibble by nibble, TXDG of a Frame. -/

namespace Sys2Proof.Machine

/-! ## The bytes of PACK and the nibbles of UNPACK -/

/-- A high and a low nibble as the number they make in a byte (44_gateway_packing.md R230). -/
theorem pack_byte_eq_ofNat (a b : Nib) :
    (a.setWidth 8 <<< 4 ||| b.setWidth 8 : Byte) = .ofNat 8 (16 * a.toNat + b.toNat) := by
  revert a b
  decide

theorem pack_length (x : List Nib) : (pack x).length = (x.length + 1) / 2 := by
  induction x using pack.induct with
  | case1 => rfl
  | case2 a => simp [pack]
  | case3 a b l ih =>
    simp only [pack, List.length_cons, ih]
    omega

/-- Byte `i` of a packed list; the missing last nibble of an odd list reads as the pad 0 (44_gateway_packing.md R230). -/
theorem pack_getElem? (x : List Nib) (i : Nat) (hi : i < (pack x).length) :
    (pack x)[i]? = some (.ofNat 8 (16 * (x.getD (2 * i) 0).toNat + (x.getD (2 * i + 1) 0).toNat)) := by
  induction x using pack.induct generalizing i with
  | case1 => exact absurd hi (Nat.not_lt_zero i)
  | case2 a =>
    obtain rfl : i = 0 := Nat.lt_one_iff.1 hi
    simpa [pack] using pack_byte_eq_ofNat a 0
  | case3 a b l ih =>
    cases i with
    | zero => simp [pack, pack_byte_eq_ofNat]
    | succ i =>
      have hl : i < (pack l).length := Nat.lt_of_succ_lt_succ hi
      simpa [pack, Nat.mul_succ] using ih i hl

theorem byte_high_eq_ofNat (v : Byte) : (v >>> 4).setWidth 4 = BitVec.ofNat 4 (v.toNat / 16) := by
  revert v
  decide

theorem byte_low_eq_ofNat (v : Byte) : v.setWidth 4 = BitVec.ofNat 4 (v.toNat % 16) := by
  revert v
  decide

/-- The two nibbles byte `i` leaves in an unpacked list (44_gateway_packing.md R231). -/
theorem unpack_getElem? (b : List Byte) (i : Nat) (v : Byte) (hv : b[i]? = some v) :
    (unpack b)[2 * i]? = some (.ofNat 4 (v.toNat / 16)) ∧ (unpack b)[2 * i + 1]? = some (.ofNat 4 (v.toNat % 16)) := by
  induction b generalizing i with
  | nil => simp at hv
  | cons w l ih =>
    cases i with
    | zero =>
      obtain rfl : w = v := by simpa using hv
      exact ⟨congrArg some (byte_high_eq_ofNat w), congrArg some (byte_low_eq_ofNat w)⟩
    | succ i =>
      have hl : l[i]? = some v := by simpa using hv
      simpa [unpack, Nat.mul_succ] using ih i hl

/-! ## The operations -/

theorem exec_pack (x : List Nib) (s : State) :
    exec (.pack x) s = .next { s with out := [.bytes (pack x)], events := [] } := rfl

theorem exec_unpack (b : List Byte) (s : State) :
    exec (.unpack b) s = .next { s with out := [.symbols (unpack b)], events := [] } := rfl

/-- TXDG drives the packed encoding of the frame its operand denotes, and nothing else changes
(44_gateway_packing.md R233). -/
theorem exec_txdg_of_ok {op : FrameOp} {f : Frame} {l : List Nib} (s : State) (hop : evalFrameOp op = .ok f)
    (henc : encodeFrame f = .ok l) :
    exec (.txdg op) s = .next { s with out := [.bytes (pack l)], events := [] } := by
  have hexec : exec (.txdg op) s = execTxdg op s := rfl
  have htx : txDatagram f = .ok (pack l) := by simp only [txDatagram, henc]
  rw [hexec, execTxdg, withFrame_of_eval _ hop, htx]
  rfl

/-- Settles O15: PACK answers `pack x`, whose bytes follow from recursion on the list two nibbles at a time. -/
theorem packPutsTwoNibblesInAByte : Obligations.PackPutsTwoNibblesInAByte := fun x s =>
  ⟨pack x, exec_pack x s, pack_length x, pack_getElem? x⟩

/-- Settles O16: UNPACK answers `unpack b`, whose nibbles follow by induction on the bytes. -/
theorem unpackSplitsBytesHighNibbleFirst : Obligations.UnpackSplitsBytesHighNibbleFirst := fun b s =>
  ⟨unpack b, exec_unpack b s, unpack_length b, unpack_getElem? b⟩

/-- Settles O18: a Frame has an encoding (it has at most 255 args), and TXDG packs it. -/
theorem txDatagramPacksTheEncoding : Obligations.TxDatagramPacksTheEncoding := by
  intro op f s hop hvalid
  have henc : encodeFrame f = .ok (frameSymbols f) := encodeFrame_of_valid hvalid
  exact ⟨frameSymbols f, henc, exec_txdg_of_ok s hop henc⟩

end Sys2Proof.Machine
end

section
/-! PROOFS. Decoding (40_frame_codec.md section 4): the checks of each TYPE, DECODE and its rows, the envelope of
DECODESYM, and the round trip of a Frame. -/

namespace Sys2Proof.Machine

/-! ## The checks of a TYPE -/

theorem checkData_eq_none_iff (a : List Nib) : checkData a = none ↔ 8 ≤ a.length := by
  simp [checkData]

theorem checkIPv4Ctl_eq_none_iff (a : List Nib) : checkIPv4Ctl a = none ↔ 16 ≤ a.length := by
  simp [checkIPv4Ctl]

theorem checkStatus_of_short {a : List Nib} (h : a.length < 7) : checkStatus a = some .statusShort := by
  simp [checkStatus, h]

/-- From seven args on, the first arg decides the check of TYPE 2 (40_frame_codec.md R123). -/
theorem checkStatus_of_length {a : List Nib} (h : 7 ≤ a.length) :
    checkStatus a = if a[0]? = some 0xA then none else some .statusSig := by
  obtain ⟨x, l, rfl⟩ := List.exists_cons_of_length_pos (Nat.lt_of_lt_of_le (by decide) h)
  unfold checkStatus
  simp only [Nat.not_lt.2 h, statusSig, if_false]
  by_cases hx : x = 10 <;> simp [hx]

theorem checkStatus_eq_none_iff (a : List Nib) : checkStatus a = none ↔ 7 ≤ a.length ∧ a[0]? = some 0xA := by
  by_cases h : 7 ≤ a.length
  · simp [checkStatus_of_length h, h]
  · simp [checkStatus_of_short (Nat.not_le.1 h), h]

/-- For an inner TYPE of 0 or 1 the inner check is `validArgs` (40_frame_codec.md R124 check 4, R120). -/
theorem validArgs_eq_innerValid {t : Nib} (ht : t.toNat ≤ 1) (c : Nib) (a : List Nib) :
    validArgs t c a = innerValid t a := by
  have hcheck : checkType t a = none ↔ (t ≠ 0 ∨ checkData a = none) := by
    obtain rfl | rfl : t = 0 ∨ t = 1 := by revert t; decide
    · simp [checkType]
    · simp [checkType]
  rw [Bool.eq_iff_iff, show validArgs t c a = validFrame ⟨t, c, a⟩ from rfl, validFrame_iff, innerValid]
  simp only [hcheck, Bool.and_eq_true, decide_eq_true_eq, Bool.or_eq_true, bne_iff_ne, Option.isNone_iff_eq_none]
  rfl

theorem checkIPv4_of_short {a : List Nib} (h : a.length < 28) : checkIPv4 a = some .ipv4Short := by
  simp [checkIPv4, h]

/-- The checks of TYPE 3 on args that hold an inner header `t, ic, hi, lo` (40_frame_codec.md R124 checks 2 to 4). -/
theorem checkIPv4_of_header {a : List Nib} {t ic hi lo : Nib} (h24 : a[24]? = some t) (h26 : a[26]? = some hi)
    (h27 : a[27]? = some lo) :
    checkIPv4 a =
      if 1 < t.toNat then some .ipv4InnerType
      else if 16 * hi.toNat + lo.toNat + 28 ≠ a.length then some .ipv4InnerLen
      else if validArgs t ic (a.drop 28) then none
      else some .ipv4InnerInvalid := by
  obtain ⟨hlength, -⟩ := List.getElem?_eq_some_iff.1 h27
  have hshort : ¬ a.length < 28 := Nat.not_lt.2 hlength
  have htype : a.getD 24 0 = t := by simp [List.getD, h24]
  have hlen : be (slice a 26 28) = 16 * hi.toNat + lo.toNat := by rw [slice_pair a 26 hi lo h26 h27, be_pair]
  have hlenCheck : (16 * hi.toNat + lo.toNat ≠ a.length - 28) = (16 * hi.toNat + lo.toNat + 28 ≠ a.length) := by
    rw [eq_iff_iff]
    omega
  unfold checkIPv4
  simp only [hshort, htype, hlen, hlenCheck, if_false]
  by_cases ht : 1 < t.toNat
  · simp only [ht, if_true]
  · simp only [validArgs_eq_innerValid (Nat.not_lt.1 ht), ht, if_false]
    cases innerValid t (a.drop 28) <;> rfl

theorem checkType_of_reserved {t : Nib} (ht : 5 ≤ t.toNat) (a : List Nib) : checkType t a = some .unknownType := by
  unfold checkType
  split
  case h_6 => rfl
  all_goals omega

/-- A TYPE is one of the five assigned ones or reserved (30_encoding.md R86). -/
theorem type_cases (t : Nib) : t = 0 ∨ t = 1 ∨ t = 2 ∨ t = 3 ∨ t = 4 ∨ 5 ≤ t.toNat := by
  revert t
  decide

/-- An inner record of a TYPE 3 frame is a Frame of TYPE 0 or 1: TYPE 0 needs its own 8 args (40_frame_codec.md
R121). -/
theorem validInner_iff {a : List Nib} (hl : a.length ≤ 255) (h28 : 28 ≤ a.length) (t c : Nib) :
    t.toNat ≤ 1 ∧ validArgs t c (a.drop 28) = true ↔ t = 0 ∧ 36 ≤ a.length ∨ t = 1 := by
  have htype : t.toNat ≤ 1 ↔ t = 0 ∨ t = 1 := by revert t; decide
  have hvalid : validArgs t c (a.drop 28) = true ↔ checkType t (a.drop 28) = none := by
    have hbound : (a.drop 28).length ≤ 255 := by rw [List.length_drop]; omega
    exact (validFrame_iff ⟨t, c, a.drop 28⟩).trans (and_iff_right hbound)
  have hdata : checkType 0 (a.drop 28) = none ↔ 36 ≤ a.length := by
    refine (checkData_eq_none_iff _).trans ?_
    rw [List.length_drop]
    omega
  have hcontrol : checkType 1 (a.drop 28) = none := rfl
  rw [hvalid, htype]
  constructor
  · rintro ⟨rfl | rfl, h⟩
    · exact .inl ⟨rfl, hdata.1 h⟩
    · exact .inr rfl
  · rintro (⟨rfl, h⟩ | rfl)
    · exact ⟨.inl rfl, hdata.2 h⟩
    · exact ⟨.inr rfl, hcontrol⟩

/-- Args of TYPE 3 pass their checks exactly when the inner header announces a Frame of TYPE 0 or 1 that fills them. -/
theorem checkIPv4_eq_none_iff {a : List Nib} (hl : a.length ≤ 255) : checkIPv4 a = none ↔
    ∃ it ic hi lo, a[24]? = some it ∧ a[25]? = some ic ∧ a[26]? = some hi ∧ a[27]? = some lo ∧
      16 * hi.toNat + lo.toNat + 28 = a.length ∧ (it = 0 ∧ 36 ≤ a.length ∨ it = 1) := by
  have header {it ic hi lo : Nib} (h24 : a[24]? = some it) (h26 : a[26]? = some hi) (h27 : a[27]? = some lo) :
      checkIPv4 a = none ↔ 16 * hi.toNat + lo.toNat + 28 = a.length ∧ (it = 0 ∧ 36 ≤ a.length ∨ it = 1) := by
    obtain ⟨h28, -⟩ := List.getElem?_eq_some_iff.1 h27
    rw [checkIPv4_of_header (ic := ic) h24 h26 h27, ← validInner_iff hl h28 it ic]
    split_ifs with ht hn hv
    · simp [Nat.not_le.2 ht]
    · simp [hn]
    · simp [not_not.1 hn, Nat.not_lt.1 ht, hv]
    · simp [hv]
  constructor
  · intro h
    have h28 : 28 ≤ a.length := by
      by_contra hshort
      simp [checkIPv4_of_short (Nat.not_le.1 hshort)] at h
    have get (i : Nat) (hi : i < 28) : ∃ x, a[i]? = some x := ⟨a[i], List.getElem?_eq_getElem (by omega)⟩
    obtain ⟨it, h24⟩ := get 24 (by decide)
    obtain ⟨ic, h25⟩ := get 25 (by decide)
    obtain ⟨hi, h26⟩ := get 26 (by decide)
    obtain ⟨lo, h27⟩ := get 27 (by decide)
    exact ⟨it, ic, hi, lo, h24, h25, h26, h27, (header (ic := ic) h24 h26 h27).1 h⟩
  · rintro ⟨it, ic, hi, lo, h24, -, h26, h27, h⟩
    exact (header (ic := ic) h24 h26 h27).2 h

/-- The checks of every TYPE together (40_frame_codec.md R121 to R126). -/
theorem checkType_eq_none_iff (t : Nib) {a : List Nib} (hl : a.length ≤ 255) : checkType t a = none ↔
    (t = 0 ∧ 8 ≤ a.length ∨ t = 1 ∨ t = 2 ∧ 7 ≤ a.length ∧ a[0]? = some 0xA ∨
      t = 3 ∧ (∃ it ic hi lo, a[24]? = some it ∧ a[25]? = some ic ∧ a[26]? = some hi ∧ a[27]? = some lo ∧
        16 * hi.toNat + lo.toNat + 28 = a.length ∧ (it = 0 ∧ 36 ≤ a.length ∨ it = 1)) ∨
      t = 4 ∧ 16 ≤ a.length) := by
  obtain rfl | rfl | rfl | rfl | rfl | ht := type_cases t
  · exact (checkData_eq_none_iff a).trans (by simp)
  · exact iff_of_true rfl (.inr (.inl rfl))
  · exact (checkStatus_eq_none_iff a).trans (by simp)
  · exact (checkIPv4_eq_none_iff hl).trans (by simp)
  · exact (checkIPv4Ctl_eq_none_iff a).trans (by simp)
  · rw [checkType_of_reserved ht]
    refine iff_of_false (by simp) ?_
    rintro (⟨rfl, -⟩ | rfl | ⟨rfl, -⟩ | ⟨rfl, -⟩ | ⟨rfl, -⟩) <;> exact absurd ht (by decide)

/-! ## DECODE and its rows -/

theorem decodeFrame_of_tooLong (t c : Nib) {a : List Nib} (h : 255 < a.length) :
    decodeFrame t c a = .error .tooLong := by
  simp [decodeFrame, maxArgs, h]

/-- Up to 255 args a failing check is the reason (40_frame_codec.md R127, R130). -/
theorem decodeFrame_of_check {t : Nib} (c : Nib) {a : List Nib} {r : DecodeReason} (hl : a.length ≤ 255)
    (h : checkType t a = some r) : decodeFrame t c a = .error r := by
  simp [decodeFrame, maxArgs, Nat.not_lt.2 hl, h]

theorem decodeFrame_of_pass {t : Nib} (c : Nib) {a : List Nib} (hl : a.length ≤ 255) (h : checkType t a = none) :
    decodeFrame t c a = .ok ⟨t, c, a⟩ :=
  (decodeFrame_ok_iff ..).2 ⟨hl, h, rfl⟩

/-- A decode that answers drives the Frame and writes no register (20_memory.md R61). -/
theorem answerDecode_ok {r : Except DecodeReason Frame} {f : Frame} (s : State) (h : r = .ok f) :
    answerDecode r s = .next { s with out := [.frame f], events := [] } := by
  rw [h]
  rfl

/-- A decode that fails raises DecodeError with the reason and writes no register (60_exceptions.md R252). -/
theorem answerDecode_error {r : Except DecodeReason Frame} {e : DecodeReason} (s : State) (h : r = .error e) :
    answerDecode r s = .next { s with out := [.error (.decodeError e)], events := [.decodeError e] } := by
  rw [h]
  rfl

theorem exec_decode (t c : Nib) (a : List Nib) (s : State) :
    exec (.decode t c a) s = answerDecode (decodeFrame t c a) s := rfl

theorem exec_decodeSym (l : List Nib) (s : State) : exec (.decodeSym l) s = answerDecode (decodeSymbols l) s := rfl

/-- Every DataControl row decodes TYPE 1 with its own CODE (30_encoding.md R80, log 9). -/
theorem exec_controlRow (c : Nib) (a : List Nib) (s : State) :
    exec (controlRow c a) s = answerDecode (decodeFrame 1 c a) s := by
  unfold controlRow
  split
  case h_14 => rfl
  all_goals
    rename_i hc
    have hcode : c = BitVec.ofNat 4 c.toNat := by simp
    rw [hc] at hcode
    subst hcode
    rfl

/-- The row of a TYPE and CODE decodes a frame with that header (30_encoding.md R92, log 9). -/
theorem exec_frameRow (t c : Nib) (a : List Nib) (s : State) :
    exec (frameRow t c a) s = answerDecode (decodeFrame t c a) s := by
  obtain rfl | rfl | rfl | rfl | rfl | ht := type_cases t
  · rfl
  · exact exec_controlRow c a s
  · rfl
  · rfl
  · rfl
  · have hrow : frameRow t c a = .frameReservedType t c a := by
      unfold frameRow
      split
      case h_6 => rfl
      all_goals omega
    rw [hrow]
    rfl

/-! ## The envelope of DECODESYM -/

theorem decodeSymbols_of_noSof {l : List Nib} (h : l[0]? ≠ some 15) : decodeSymbols l = .error .noSof := by
  cases l with
  | nil => rfl
  | cons x l =>
    have hx : x ≠ sof := by simpa [sof] using h
    simp [decodeSymbols, hx]

theorem decodeSymbols_of_noEof {l : List Nib} (h0 : l[0]? = some 15) (h : l.length < 6 ∨ l.getLast? ≠ some 0) :
    decodeSymbols l = .error .noEof := by
  obtain ⟨x, m, rfl⟩ : ∃ x m, l = x :: m := by cases l <;> simp_all
  have hx : x = 15 := by simpa using h0
  have hlast : (x :: m).getD ((x :: m).length - 1) 0 ≠ eof ↔ (x :: m).getLast? ≠ some 0 := by
    rw [List.getLast?_eq_getElem?, List.getD, List.getElem?_eq_getElem (by simp)]
    simp [eof]
  unfold decodeSymbols
  rw [if_neg (by simp [hx, sof]), if_pos (by rwa [hlast])]

/-- Symbols that pass the SOF and EOF checks are a header, args and EOF (40_frame_codec.md R128). -/
theorem exists_envelope {l : List Nib} (h0 : l[0]? = some 15) (h6 : 6 ≤ l.length) (hlast : l.getLast? = some 0) :
    ∃ t c hi lo a, l = [15, t, c, hi, lo] ++ a ++ [0] := by
  obtain ⟨m, rfl⟩ := List.getLast?_eq_some_iff.1 hlast
  match m, h6 with
  | x :: t :: c :: hi :: lo :: a, _ =>
    obtain rfl : x = 15 := by simpa using h0
    exact ⟨t, c, hi, lo, a, rfl⟩

/-- In an envelope the declared length decides between DE_LEN_MISMATCH and DECODE (40_frame_codec.md R128). -/
theorem decodeSymbols_envelope (t c hi lo : Nib) (a : List Nib) :
    decodeSymbols ([15, t, c, hi, lo] ++ a ++ [0]) =
      if 16 * hi.toNat + lo.toNat = a.length then decodeFrame t c a else .error .lenMismatch := by
  have hlen : ([15, t, c, hi, lo] ++ a ++ [0] : List Nib).length = 6 + a.length := by simp; omega
  have hdeclared : be (slice ([15, t, c, hi, lo] ++ a ++ [0]) 3 5) = 16 * hi.toNat + lo.toNat := be_pair hi lo
  have hargs : slice ([15, t, c, hi, lo] ++ a ++ [0]) 5 (6 + a.length - 1) = a :=
    slice_middle [15, t, c, hi, lo] a [0] 5 _ rfl (by simp)
  have hlast : ([15, t, c, hi, lo] ++ a ++ [0] : List Nib).getD (6 + a.length - 1) 0 = eof := by
    rw [List.getD, List.getElem?_append_right (by simp; omega)]
    simp [eof]
  unfold decodeSymbols
  rw [if_neg (by simp [sof]), hlen, if_neg (by rw [hlast]; simp), hargs, hdeclared]
  by_cases h : 16 * hi.toNat + lo.toNat = a.length
  · rw [if_neg (by omega), if_pos h]
    rfl
  · rw [if_pos (by omega), if_neg h]

/-- The two length nibbles of a length up to 255 hold the length (40_frame_codec.md R112). -/
theorem length_nibbles {n : Nat} (h : n ≤ 255) :
    16 * (BitVec.ofNat 4 (n / 16)).toNat + (BitVec.ofNat 4 n).toNat = n := by
  simp only [BitVec.toNat_ofNat]
  omega

/-- DECODESYM of the symbols of a record decodes the record (40_frame_codec.md R112, R128). -/
theorem decodeSymbols_frameSymbols {f : Frame} (h : f.args.length ≤ 255) :
    decodeSymbols (frameSymbols f) = decodeFrame f.type f.code f.args := by
  rw [frameSymbols_eq, decodeSymbols_envelope, if_pos (length_nibbles h)]

theorem decodeSymbols_of_valid {f : Frame} (h : validFrame f = true) : decodeSymbols (frameSymbols f) = .ok f := by
  rw [decodeSymbols_frameSymbols (validFrame_length h), decodeFrame_of_valid h]

/-! ## The statements -/

/-- Settles O11: ENCODE lays the Frame out, and DECODESYM of a Frame's layout is DECODE of the Frame. -/
theorem frameRoundTrip : Obligations.FrameRoundTrip := by
  intro op f s hop hvalid
  refine ⟨frameSymbols f, exec_encode_of_ok s hop (encodeFrame_of_valid hvalid), ?_⟩
  rw [exec_decodeSym]
  exact answerDecode_ok s (decodeSymbols_of_valid hvalid)

/-- Settles O4: the inner header chooses the failing check of TYPE 3, if any. -/
theorem ipv4RowDecodes : Obligations.Ipv4RowDecodes := by
  intro c args s hl
  refine ⟨fun hshort => answerDecode_error s (decodeFrame_of_check c hl (checkIPv4_of_short hshort)), ?_⟩
  intro t ic hi lo h24 _ h26 h27
  have hcheck := checkIPv4_of_header (ic := ic) h24 h26 h27
  refine ⟨fun ht => answerDecode_error s (decodeFrame_of_check c hl ?_),
    fun ht hlen => answerDecode_error s (decodeFrame_of_check c hl ?_),
    fun ht hlen hinner => answerDecode_error s (decodeFrame_of_check c hl ?_),
    fun ht hlen hinner => answerDecode_ok s (decodeFrame_of_pass c hl ?_)⟩
  · exact hcheck.trans (if_pos ht)
  · exact hcheck.trans (by simp [Nat.not_lt.2 ht, hlen])
  · exact hcheck.trans (by simp [Nat.not_lt.2 ht, hlen, hinner])
  · exact hcheck.trans (by simp [Nat.not_lt.2 ht, hlen, hinner])

/-- Settles O8: both are the same decode, whose length check comes first. -/
theorem decodeAgreesWithItsRow : Obligations.DecodeAgreesWithItsRow := by
  intro t c a s
  refine ⟨(exec_frameRow t c a s).symm, fun hlong => ?_, fun hvalid => ?_⟩
  · exact answerDecode_error s (decodeFrame_of_tooLong t c hlong)
  · exact answerDecode_ok s (decodeFrame_of_valid (f := ⟨t, c, a⟩) hvalid)

/-- Settles O9: TYPE by TYPE, the check that passes is the condition stated. -/
theorem decodeSucceedsExactlyOnFrames : Obligations.DecodeSucceedsExactlyOnFrames := by
  intro t c a f
  rw [decodeFrame_ok_iff]
  constructor
  · rintro ⟨hl, hcheck, hf⟩
    exact ⟨hf, hl, (checkType_eq_none_iff t hl).1 hcheck⟩
  · rintro ⟨hf, hl, hcheck⟩
    exact ⟨hl, (checkType_eq_none_iff t hl).2 hcheck, hf⟩

/-- Settles O10: the envelope's three checks in their order. -/
theorem decodeSymbolsChecksTheEnvelope : Obligations.DecodeSymbolsChecksTheEnvelope := by
  intro l s
  refine ⟨fun h => answerDecode_error s (decodeSymbols_of_noSof h),
    fun h0 h => answerDecode_error s (decodeSymbols_of_noEof h0 h), ?_⟩
  rintro t c hi lo a rfl
  rw [exec_decodeSym, decodeSymbols_envelope]
  refine ⟨fun h => answerDecode_error s (if_neg h), fun h => ?_⟩
  rw [if_pos h, exec_decode]

/-- What DECODESYM accepts is an envelope of TYPE, CODE and args that declares their number and decodes to them. -/
theorem frameSymbols_of_decodeSymbols {l : List Nib} {f : Frame} (h : decodeSymbols l = .ok f) :
    validFrame f = true ∧ l = frameSymbols f := by
  have h0 : l[0]? = some 15 := by
    by_contra h0
    simp [decodeSymbols_of_noSof h0] at h
  have hEof : ¬ (l.length < 6 ∨ l.getLast? ≠ some 0) := by
    intro hEof
    simp [decodeSymbols_of_noEof h0 hEof] at h
  obtain ⟨h6, hlast⟩ := not_or.1 hEof
  obtain ⟨t, c, hi, lo, a, rfl⟩ := exists_envelope h0 (Nat.not_lt.1 h6) (not_not.1 hlast)
  rw [decodeSymbols_envelope] at h
  split at h
  · next hlen =>
    have hvalid : validFrame f = true := valid_of_decodeFrame h
    obtain ⟨-, -, rfl⟩ := (decodeFrame_ok_iff ..).1 h
    refine ⟨hvalid, ?_⟩
    have hhi : BitVec.ofNat 4 (a.length / 16) = hi := by
      rw [← hlen, Nat.mul_add_div (by decide), Nat.div_eq_of_lt lo.isLt]
      simp
    have hlo : BitVec.ofNat 4 a.length = lo := by
      apply BitVec.eq_of_toNat_eq
      rw [← hlen, BitVec.toNat_ofNat]
      omega
    rw [frameSymbols_eq, hhi, hlo]
  · simp at h

/-- Settles O12: what DECODESYM accepts is a layout, and of a Frame's layout it answers the Frame. -/
theorem decodeSymbolsAcceptsOnlyEncodings : Obligations.DecodeSymbolsAcceptsOnlyEncodings := by
  intro l f
  constructor
  · intro h
    obtain ⟨hvalid, rfl⟩ := frameSymbols_of_decodeSymbols h
    exact ⟨hvalid, encodeFrame_of_valid hvalid⟩
  · rintro ⟨hvalid, henc⟩
    obtain ⟨-, rfl⟩ := (encodeFrame_ok_iff f l).1 henc
    exact decodeSymbols_of_valid hvalid

/-- Settles O1: each row decodes TYPE 1, which has no check beyond the length. -/
theorem controlRowsAnswerTheirFrame : Obligations.ControlRowsAnswerTheirFrame := by
  intro args s hl
  have row (c : Nib) :
      answerDecode (decodeFrame 1 c args) s = .next { s with out := [.frame ⟨1, c, args⟩], events := [] } :=
    answerDecode_ok s (decodeFrame_of_pass c hl rfl)
  exact ⟨row 0x0, row 0x1, row 0x2, row 0x3, row 0x4, row 0x5, row 0x6, row 0x7, row 0x8, row 0x9, row 0xA, row 0xB,
    row 0xC⟩

/-- Settles O2: TYPE 0 and TYPE 4 have one check, of the length, and TYPE 1 has none. -/
theorem dataAndControlRowsDecode : Obligations.DataAndControlRowsDecode := by
  intro c args s hl
  refine ⟨fun h => answerDecode_ok s (decodeFrame_of_pass c hl ((checkData_eq_none_iff args).2 h)),
    fun h => answerDecode_error s (decodeFrame_of_check c hl (if_pos h)),
    answerDecode_ok s (decodeFrame_of_pass c hl rfl),
    fun h => answerDecode_ok s (decodeFrame_of_pass c hl ((checkIPv4Ctl_eq_none_iff args).2 h)),
    fun h => answerDecode_error s (decodeFrame_of_check c hl (if_pos h))⟩

/-- Settles O3: with seven args the signature decides. -/
theorem statusRowDecodes : Obligations.StatusRowDecodes := by
  intro c args s hl
  refine ⟨fun h => answerDecode_error s (decodeFrame_of_check c hl (checkStatus_of_short h)),
    fun h hsig => answerDecode_error s (decodeFrame_of_check c hl ((checkStatus_of_length h).trans (if_neg hsig))),
    fun h hsig => answerDecode_ok s (decodeFrame_of_pass c hl ((checkStatus_of_length h).trans (if_pos hsig)))⟩

/-- Settles O5: no check of a reserved TYPE passes. -/
theorem reservedTypeNeverDecodes : Obligations.ReservedTypeNeverDecodes := fun _ c _ s ht hl =>
  answerDecode_error s (decodeFrame_of_check c hl (checkType_of_reserved ht _))

end Sys2Proof.Machine
end

section
/-! PROOFS. The gateway (44_gateway_packing.md): the packing laws, RXDG's checks in their order, and the round trip of a
datagram. -/

namespace Sys2Proof.Machine

/-! ## The packing laws -/

/-- UNPACK after PACK keeps the nibbles and shows the pad of an odd list (44_gateway_packing.md section 1). -/
theorem unpack_pack (x : List Nib) : unpack (pack x) = if x.length % 2 = 1 then x ++ [0] else x := by
  induction x using pack.induct with
  | case1 => rfl
  | case2 a =>
    have hhigh : (a.setWidth 8 <<< 4 : Byte) >>> 4 = a.setWidth 8 ∧
      (a.setWidth 8 <<< 4 : Byte).setWidth 4 = (0 : Nib) := by
      revert a
      decide
    simp [pack, unpack, hhigh]
  | case3 a b l ih =>
    have hparity : (a :: b :: l).length % 2 = l.length % 2 := Nat.add_mod_right l.length 2
    rw [hparity, pack, unpack, pack_byte_high, pack_byte_low, ih]
    split <;> rfl

theorem pack_unpack (b : List Byte) : pack (unpack b) = b := by
  have halves (x : Byte) : ((x >>> 4).setWidth 4 : Nib).setWidth 8 <<< 4 ||| (x.setWidth 4 : Nib).setWidth 8 = x := by
    revert x
    decide
  induction b with
  | nil => rfl
  | cons x l ih => rw [unpack, pack, halves, ih]

/-! ## The checks of RXDG -/

theorem rxDatagram_of_short {b : List Byte} (h : b.length < 3) : rxDatagram b = .error (.datagramError .short) := by
  have hshort : (unpack b).length < 6 := by rw [unpack_length]; omega
  simp only [rxDatagram, hshort, if_true]

theorem rxDatagram_of_noSof {b : List Byte} {t : Nib} {rest : List Nib} (hx : unpack b = t :: rest) (h : 3 ≤ b.length)
    (ht : t ≠ 15) : rxDatagram b = .error (.decodeError .noSof) := by
  have hlength : ¬ (unpack b).length < 6 := by rw [unpack_length]; omega
  have hsof : (unpack b).getD 0 0 ≠ sof := by rw [hx]; exact ht
  simp only [rxDatagram, hlength, hsof, if_false, if_true, ne_eq, not_false_eq_true]

/-- RXDG fails by an error of the datagram or of the decode (44_gateway_packing.md R235). -/
theorem rxDatagram_error {b : List Byte} {e : Event} (h : rxDatagram b = .error e) :
    (∃ r, e = .datagramError r) ∨ ∃ r, e = .decodeError r := by
  unfold rxDatagram at h
  dsimp only at h
  split_ifs at h
  · exact .inl ⟨_, (Except.error.inj h).symm⟩
  · exact .inr ⟨_, (Except.error.inj h).symm⟩
  · exact .inl ⟨_, (Except.error.inj h).symm⟩
  · exact .inl ⟨_, (Except.error.inj h).symm⟩
  · cases hd : decodeSymbols (slice (unpack b) 0 (6 + be (slice (unpack b) 3 5))) with
    | ok f => simp [hd, Except.mapError] at h
    | error r => exact .inr ⟨r, by simpa [hd, Except.mapError] using h.symm⟩

/-- From a header on, the checks of length and pad decide before DECODESYM does (44_gateway_packing.md R234). -/
theorem rxDatagram_of_header {b : List Byte} {t c hi lo : Nib} {rest : List Nib} {n : Nat}
    (hx : unpack b = 15 :: t :: c :: hi :: lo :: rest) (hn : n = 6 + 16 * hi.toNat + lo.toNat) :
    rxDatagram b =
      if 2 * b.length ≠ n + n % 2 then .error (.datagramError .len)
      else if n % 2 = 1 ∧ (unpack b)[n]? ≠ some 0 then .error (.datagramError .pad)
      else (decodeSymbols ((unpack b).take n)).mapError .decodeError := by
  have hlength : (unpack b).length = 2 * b.length := unpack_length b
  have hlong : ¬ (unpack b).length < 6 := by
    have hcons := congrArg List.length hx
    simp only [List.length_cons] at hcons
    omega
  have hsof : (unpack b).getD 0 0 = sof := by rw [hx]; rfl
  have hdeclared : 6 + be (slice (unpack b) 3 5) = n := by
    rw [hn, hx, Nat.add_assoc]
    exact congrArg (6 + ·) (be_pair hi lo)
  simp only [rxDatagram, hlong, hsof, hdeclared, if_false, ne_eq, not_true_eq_false]
  rw [hlength]
  by_cases hlen : 2 * b.length = n + n % 2
  · have hpad : (n % 2 = 1 ∧ ¬ (unpack b).getD n 0 = 0) ↔ (n % 2 = 1 ∧ ¬ (unpack b)[n]? = some 0) := by
      refine and_congr_right fun hodd => not_congr ?_
      rw [List.getD, List.getElem?_eq_getElem (by omega)]
      simp
    simp only [hlen, hpad, not_true_eq_false, if_false]
    rfl
  · simp only [hlen, not_false_eq_true, if_true]

/-- The checks of a TYPE give no reason of the envelope (40_frame_codec.md R121 to R126). -/
theorem checkType_ne_lenMismatch (t : Nib) (a : List Nib) : checkType t a ≠ some .lenMismatch := by
  have hdata : checkData a ≠ some .lenMismatch := by unfold checkData; split_ifs <;> simp
  have hstatus : checkStatus a ≠ some .lenMismatch := by unfold checkStatus; split_ifs <;> simp
  have hipv4 : checkIPv4 a ≠ some .lenMismatch := by unfold checkIPv4; split_ifs <;> simp
  have hctl : checkIPv4Ctl a ≠ some .lenMismatch := by unfold checkIPv4Ctl; split_ifs <;> simp
  unfold checkType
  split
  · exact hdata
  · simp
  · exact hstatus
  · exact hipv4
  · exact hctl
  · simp

theorem decodeFrame_ne_lenMismatch (t c : Nib) (a : List Nib) : decodeFrame t c a ≠ .error .lenMismatch := by
  unfold decodeFrame
  split
  · simp
  · split
    · next r hr =>
      rintro ⟨rfl⟩
      exact checkType_ne_lenMismatch t a hr
    · simp

/-- Symbols as long as their header declares raise no DE_LEN_MISMATCH (40_frame_codec.md R128). -/
theorem decodeSymbols_ne_lenMismatch {l : List Nib} (h : l.length = 6 + be (slice l 3 5)) :
    decodeSymbols l ≠ .error .lenMismatch := by
  unfold decodeSymbols
  split_ifs with hsof heof hlen
  · simp
  · simp
  · exact absurd h hlen
  · exact decodeFrame_ne_lenMismatch _ _ _

/-- RXDG checks the declared length itself, so DECODESYM never finds it wrong (44_gateway_packing.md R234, D20). -/
theorem rxDatagram_ne_lenMismatch (b : List Byte) : rxDatagram b ≠ .error (.decodeError .lenMismatch) := by
  match b with
  | [] | [_] | [_, _] => simp [rxDatagram_of_short]
  | b0 :: b1 :: b2 :: bs =>
    by_cases hsof : (b0 >>> 4).setWidth 4 = (15 : Nib)
    · generalize hb : b0 :: b1 :: b2 :: bs = b
      obtain ⟨t, c, hi, lo, rest, hx⟩ : ∃ t c hi lo rest, unpack b = 15 :: t :: c :: hi :: lo :: rest := by
        rw [← hb, ← hsof]
        exact ⟨_, _, _, _, _, rfl⟩
      rw [rxDatagram_of_header hx rfl]
      split_ifs with hlen
      · simp
      · simp
      · have hslice : slice ((unpack b).take (6 + 16 * hi.toNat + lo.toNat)) 3 5 = [hi, lo] := by
          rw [hx, show 6 + 16 * hi.toNat + lo.toNat = 16 * hi.toNat + lo.toNat + 1 + 5 by omega]
          rfl
        have hdeclared := decodeSymbols_ne_lenMismatch (l := (unpack b).take (6 + 16 * hi.toNat + lo.toNat)) (by
          rw [hslice, be_pair, List.length_take, unpack_length]
          omega)
        revert hdeclared
        cases decodeSymbols _ <;> simp [Except.mapError]
    · rw [rxDatagram_of_noSof rfl (by simp) hsof]
      simp

/-! ## A Frame's datagram -/

theorem pack_frameSymbols (f : Frame) :
    pack (frameSymbols f) = .ofNat 8 (240 + f.type.toNat) ::
      .ofNat 8 (16 * f.code.toNat + (BitVec.ofNat 4 (f.args.length / 16)).toNat) ::
      pack (BitVec.ofNat 4 f.args.length :: f.args ++ [0]) := by
  rw [frameSymbols_eq]
  simp only [List.cons_append, pack, pack_byte_eq_ofNat]
  rfl

/-- The nibbles of a Frame's datagram: its symbols and, where their number is odd, the pad (44_gateway_packing.md
R233). -/
theorem unpack_pack_frameSymbols (f : Frame) :
    unpack (pack (frameSymbols f)) = frameSymbols f ++ List.replicate (f.args.length % 2) 0 := by
  have hparity : (frameSymbols f).length % 2 = f.args.length % 2 := by rw [frameSymbols_length]; omega
  rw [unpack_pack, hparity]
  obtain h | h := Nat.mod_two_eq_zero_or_one f.args.length <;> simp [h]

theorem rxDatagram_of_valid {f : Frame} (h : validFrame f = true) : rxDatagram (pack (frameSymbols f)) = .ok f := by
  have hl := length_nibbles (validFrame_length h)
  have hx := unpack_pack_frameSymbols f
  rw [rxDatagram_of_header (n := 6 + f.args.length) (t := f.type) (c := f.code)
    (hi := .ofNat 4 (f.args.length / 16)) (lo := .ofNat 4 f.args.length)
    (rest := f.args ++ [0] ++ List.replicate (f.args.length % 2) 0) hx (by omega), hx]
  have hlen : 2 * (pack (frameSymbols f)).length = 6 + f.args.length + (6 + f.args.length) % 2 := by
    rw [pack_length, frameSymbols_length]
    omega
  have htake : (frameSymbols f ++ List.replicate (f.args.length % 2) 0).take (6 + f.args.length) = frameSymbols f :=
    List.take_left' (frameSymbols_length f)
  have hpad : ¬ ((6 + f.args.length) % 2 = 1 ∧
      (frameSymbols f ++ List.replicate (f.args.length % 2) 0)[6 + f.args.length]? ≠ some 0) := by
    rintro ⟨hodd, hpad⟩
    refine hpad ?_
    rw [List.getElem?_append_right (by simp), frameSymbols_length, Nat.sub_self, show f.args.length % 2 = 1 by omega]
    rfl
  rw [if_neg (not_not.2 hlen), if_neg hpad, htake, decodeSymbols_of_valid h]
  rfl

/-! ## The statements -/

theorem exec_rxdg_ok {b : List Byte} {f : Frame} (s : State) (h : rxDatagram b = .ok f) :
    exec (.rxdg b) s = .next { s with out := [.frame f], events := [] } := by
  rw [show exec (.rxdg b) s = execRxdg b s from rfl, execRxdg, h]
  rfl

theorem exec_rxdg_error {b : List Byte} {e : Event} (s : State) (h : rxDatagram b = .error e) :
    exec (.rxdg b) s = .next { s with out := [.error e], events := [e] } := by
  rw [show exec (.rxdg b) s = execRxdg b s from rfl, execRxdg, h]
  rfl

/-- Settles O19: the datagram is the packed layout, whose nibbles pass RXDG's checks and decode to the Frame. -/
theorem datagramRoundTrip : Obligations.DatagramRoundTrip := by
  intro op f s hop hvalid
  have hl := validFrame_length hvalid
  have hhi : (BitVec.ofNat 4 (f.args.length / 16)).toNat = f.args.length / 16 := by
    rw [BitVec.toNat_ofNat]
    omega
  refine ⟨pack (frameSymbols f), exec_txdg_of_ok s hop (encodeFrame_of_valid hvalid),
    exec_rxdg_ok s (rxDatagram_of_valid hvalid), ?_, ?_, ?_⟩
  · rw [pack_length, frameSymbols_length]
    omega
  · rw [pack_frameSymbols]
    rfl
  · rw [pack_frameSymbols, hhi]
    rfl

/-- Settles O17: each direction by recursion on the list, two nibbles or one byte at a time. -/
theorem packingLaws : Obligations.PackingLaws := ⟨unpack_pack, pack_unpack⟩

/-- Settles O20: the header reached, the checks of length and pad stand before DECODESYM of the first `N` nibbles. -/
theorem rxDatagramReasonsInOrder : Obligations.RxDatagramReasonsInOrder := by
  intro b s
  refine ⟨fun h => exec_rxdg_error s (rxDatagram_of_short h),
    fun t c hi lo rest hx h ht => exec_rxdg_error s (rxDatagram_of_noSof hx h ht), ?_, ?_⟩
  · intro t c hi lo rest n hx hn
    have hheader := rxDatagram_of_header hx hn
    refine ⟨fun hlen => exec_rxdg_error s (hheader.trans (if_pos hlen)), fun hlen hodd hpad => ?_, fun hlen hpad => ?_⟩
    · refine exec_rxdg_error s (hheader.trans ?_)
      rw [if_neg (not_not.2 (by omega)), if_pos ⟨hodd, hpad⟩]
    · rw [if_neg (not_not.2 hlen), if_neg (fun h => h.2 (hpad h.1))] at hheader
      rw [exec_decodeSym]
      cases hd : decodeSymbols ((unpack b).take n) with
      | ok f => rw [answerDecode_ok s rfl, exec_rxdg_ok s (hheader.trans (by rw [hd]; rfl))]
      | error r => rw [answerDecode_error s rfl, exec_rxdg_error s (hheader.trans (by rw [hd]; rfl))]
  · intro t ht
    cases hr : rxDatagram b with
    | ok f =>
      rw [exec_rxdg_ok s hr] at ht
      cases ht
      simp
    | error e =>
      rw [exec_rxdg_error s hr] at ht
      cases ht
      rintro ⟨rfl⟩
      exact rxDatagram_ne_lenMismatch b hr

end Sys2Proof.Machine
end

section
/-! PROOFS. The host's records (Decode.lean): the record of a well-formed operation decodes to it, and what decodes is
well formed. -/

namespace Sys2Proof

/-! ## The keyed rows -/

/-- A frame_header record decodes to the row of its TYPE and CODE (30_encoding.md R92). -/
theorem decode_encodeHeader (t c : Nib) {args : List Nib} (h : argsFit args = true) (rest : List Byte) :
    decode (encodeHeader t c args ++ rest) = .ok (frameRow t c args, rest) := by
  obtain ⟨htype, hcode, -⟩ := keyOf_halves t c
  have hread : decode (encodeHeader t c args ++ rest) = readFrameRow (keyOf t c) (encodeNibs args ++ rest) := rfl
  rw [hread, readFrameRow, readNibs_encodeNibs, thenRead_ok, if_pos h, htype, hcode]

/-- Codes 13 to 15 of TYPE 1 are left to FRAME_DATACONTROL (30_encoding.md R80, R87). -/
theorem controlRow_of_unassigned {c : Nib} (h : 13 ≤ c.toNat) (args : List Nib) :
    controlRow c args = .frameDataControl c args := by
  unfold controlRow
  split
  case h_14 => rfl
  all_goals omega

theorem frameRow_of_reserved {t : Nib} (h : 5 ≤ t.toNat) (c : Nib) (args : List Nib) :
    frameRow t c args = .frameReservedType t c args := by
  unfold frameRow
  split
  case h_6 => rfl
  all_goals omega

/-- A parser_step record decodes to the row of its key (30_encoding.md R93). -/
theorem decode_parserKey {key : Byte} {i : Instr} (h : parserKeyRow key = .ok i) (rest : List Byte) :
    decode (key :: 1 :: rest) = .ok (i, rest) := by
  have hread : decode (key :: 1 :: rest) = (parserKeyRow key).map fun i => (i, rest) := rfl
  rw [hread, h]
  rfl

/-! The parser row of each key `pstate_code << 4 | y` (30_encoding.md R93, R95). -/

theorem parserKeyRow_idle (y : Nib) :
    parserKeyRow (keyOf 0 y) = .ok (if y = 15 then .pstepIdleSof else .pstepIdleNoise y) := by
  revert y
  decide

theorem parserKeyRow_type (y : Nib) : parserKeyRow (keyOf 1 y) = .ok (.pstepType y) := by
  revert y
  decide

theorem parserKeyRow_code (y : Nib) : parserKeyRow (keyOf 2 y) = .ok (.pstepCode y) := by
  revert y
  decide

theorem parserKeyRow_lenHi (y : Nib) : parserKeyRow (keyOf 3 y) = .ok (.pstepLenHi y) := by
  revert y
  decide

theorem parserKeyRow_lenLo (y : Nib) : parserKeyRow (keyOf 4 y) = .ok (.pstepLenLo y) := by
  revert y
  decide

theorem parserKeyRow_args (y : Nib) : parserKeyRow (keyOf 5 y) = .ok (.pstepArgs y) := by
  revert y
  decide

theorem parserKeyRow_expectEof (y : Nib) :
    parserKeyRow (keyOf 6 y) = .ok (if y = 0 then .pstepEofOk else .pstepEofBad y) := by
  revert y
  decide

theorem parserKeyRow_error (y : Nib) :
    parserKeyRow (keyOf 7 y) = .ok (if y = 0 then .pstepErrResync else .pstepErrAbsorb y) := by
  revert y
  decide

/-- An emitter_step record decodes to the row of its key (30_encoding.md R94). -/
theorem decode_emitterKey {key : Byte} {i : Instr} (h : emitterKeyRow key = .ok i) (rest : List Byte) :
    decode (key :: 2 :: rest) = .ok (i, rest) := by
  have hread : decode (key :: 2 :: rest) = (emitterKeyRow key).map fun i => (i, rest) := rfl
  rw [hread, h]
  rfl

/-! ## The port operations -/

theorem thenRead_of_ok {α β : Type} {r : Read α} {a : α} {bs : List Byte} (h : r = .ok (a, bs))
    (k : α → List Byte → Read β) : thenRead r k = k a bs := by
  rw [h, thenRead_ok]

/-- A TICK's record holds its symbol and the host's actions, ended by a byte 0 (log 2). -/
theorem readTick_encode (y : Nib) {acts : List HostAct} (h : acts.all HostAct.wellFormed = true) (rest : List Byte) :
    readTick (encodeNib y :: (encodeActs acts ++ rest)) = .ok (.tick y acts, rest) := by
  have hfuel : acts.length < (encodeActs acts ++ rest).length := by
    rw [List.length_append]
    exact Nat.lt_add_right _ (encodeActs_length acts)
  rw [readTick, readNib_encodeNib, thenRead_ok, readActs_encodeActs acts h rest _ hfuel, thenRead_ok]

theorem readDecode_encode (t c : Nib) (a : List Nib) (rest : List Byte) :
    readDecode (encodeNib t :: encodeNib c :: (encodeNibs a ++ rest)) = .ok (.decode t c a, rest) := by
  simp [readDecode]

/-- Settles O57: a key and its format select the row, and each operand is read back by the law of its reader. -/
theorem decodeOfEncodeIsTheOperation : Obligations.DecodeOfEncodeIsTheOperation := by
  intro i rest h
  cases i with
  | dctlNop args | dctlPortUnreachable args | dctlMalformedFrame args | dctlBlockBusy args | dctlEchoRequest args
  | dctlEchoReply args | dctlModeq args | dctlReset args | dctlSetport args | dctlStatusReply args
  | dctlHostUnreachable args | dctlNetworkError args | dctlTargetBusy args | frameData c args | frameStatus c args
  | frameIpv4 c args | frameIpv4Control c args => exact decode_encodeHeader _ _ h rest
  | frameDataControl c args =>
    obtain ⟨hc, hargs⟩ : 13 ≤ c.toNat ∧ argsFit args = true := by simpa [Instr.wellFormed] using h
    have hrow : frameRow 1 c args = .frameDataControl c args := controlRow_of_unassigned hc args
    exact (decode_encodeHeader 1 c hargs rest).trans (by rw [hrow])
  | frameReservedType t c args =>
    obtain ⟨ht, hargs⟩ : 5 ≤ t.toNat ∧ argsFit args = true := by simpa [Instr.wellFormed] using h
    exact (decode_encodeHeader t c hargs rest).trans (by rw [frameRow_of_reserved ht])
  | pstepIdleSof => exact decode_parserKey (parserKeyRow_idle 15) rest
  | pstepIdleNoise y =>
    have hy : y ≠ 15 := by simpa [Instr.wellFormed] using h
    exact decode_parserKey ((parserKeyRow_idle y).trans (by rw [if_neg hy])) rest
  | pstepType y => exact decode_parserKey (parserKeyRow_type y) rest
  | pstepCode y => exact decode_parserKey (parserKeyRow_code y) rest
  | pstepLenHi y => exact decode_parserKey (parserKeyRow_lenHi y) rest
  | pstepLenLo y => exact decode_parserKey (parserKeyRow_lenLo y) rest
  | pstepArgs y => exact decode_parserKey (parserKeyRow_args y) rest
  | pstepEofOk => exact decode_parserKey (parserKeyRow_expectEof 0) rest
  | pstepEofDecodeFail => exact decode_parserKey rfl rest
  | pstepEofBad y =>
    have hy : y ≠ 0 := by simpa [Instr.wellFormed] using h
    exact decode_parserKey ((parserKeyRow_expectEof y).trans (by rw [if_neg hy])) rest
  | pstepErrResync => exact decode_parserKey (parserKeyRow_error 0) rest
  | pstepErrAbsorb y =>
    have hy : y ≠ 0 := by simpa [Instr.wellFormed] using h
    exact decode_parserKey ((parserKeyRow_error y).trans (by rw [if_neg hy])) rest
  | estepIdleEmpty | estepIdleStart | estepOutSym | estepOutEnd => exact decode_emitterKey rfl rest
  | estep | reset => rfl
  | pstep y => exact thenRead_of_ok (readNib_encodeNib y rest) _
  | tick y acts => exact readTick_encode y h rest
  | enq f =>
    have hf : ∀ g, f = some g → g.wellFormed = true := by
      rintro g rfl
      exact h
    exact thenRead_of_ok (readFrameOp?_encodeFrameOp? f hf rest) _
  | read sel => exact thenRead_of_ok (readSelector_encodeSelector sel rest) _
  | encode f | txdg f => exact thenRead_of_ok (readFrameOp_encodeFrameOp f h rest) _
  | decode t c a => exact readDecode_encode t c a rest
  | decodeSym l | pack l => exact thenRead_of_ok (readNibs_encodeNibs l rest) _
  | unpack b | rxdg b => exact thenRead_of_ok (readBytes_encodeBytes b rest) _

/-! ## What decodes is well formed -/

theorem readField_lt {bs rest : List Byte} {n : Nat} (h : readField bs = .ok (n, rest)) : n < fieldBound := by
  unfold readField at h
  split at h
  · next b4 b3 b2 b1 b0 l =>
    obtain ⟨rfl, -⟩ := Prod.mk.inj (Except.ok.inj h)
    have hbytes := And.intro b4.isLt (And.intro b3.isLt (And.intro b2.isLt (And.intro b1.isLt b0.isLt)))
    simp only [fieldBound]
    omega
  · cases h

/-- A frame operand that was read holds fields of five bytes (log 2). -/
theorem readFrameOp_wellFormed {bs rest : List Byte} {op : FrameOp} (h : readFrameOp bs = .ok (op, rest)) :
    op.wellFormed = true := by
  cases bs with
  | nil => cases h
  | cons tag bs =>
    rw [readFrameOp] at h
    split at h
    · obtain ⟨x, l, -, h⟩ := thenRead_ok_iff.1 h
      cases h
      rfl
    · obtain ⟨d, l, hd, h⟩ := thenRead_ok_iff.1 h
      obtain ⟨s, l, hs, h⟩ := thenRead_ok_iff.1 h
      obtain ⟨p, l, -, h⟩ := thenRead_ok_iff.1 h
      obtain ⟨c, l, hc, h⟩ := thenRead_ok_iff.1 h
      cases h
      simp [FrameOp.wellFormed, readField_lt hd, readField_lt hs, readField_lt hc]
    · obtain ⟨o, l, ho, h⟩ := thenRead_ok_iff.1 h
      obtain ⟨a, l, -, h⟩ := thenRead_ok_iff.1 h
      cases h
      simp [FrameOp.wellFormed, readField_lt ho]
    · obtain ⟨c, l, hc, h⟩ := thenRead_ok_iff.1 h
      obtain ⟨p, l, hp, h⟩ := thenRead_ok_iff.1 h
      obtain ⟨d, l, hd, h⟩ := thenRead_ok_iff.1 h
      obtain ⟨e, l, he, h⟩ := thenRead_ok_iff.1 h
      cases h
      simp [FrameOp.wellFormed, readField_lt hc, readField_lt hp, readField_lt hd, readField_lt he]
    · obtain ⟨c, l, hc, h⟩ := thenRead_ok_iff.1 h
      obtain ⟨p, l, hp, h⟩ := thenRead_ok_iff.1 h
      obtain ⟨d, l, hd, h⟩ := thenRead_ok_iff.1 h
      obtain ⟨e, l, he, h⟩ := thenRead_ok_iff.1 h
      obtain ⟨ip, l, hip, h⟩ := thenRead_ok_iff.1 h
      obtain ⟨gp, l, hgp, h⟩ := thenRead_ok_iff.1 h
      cases h
      simp [FrameOp.wellFormed, readField_lt hc, readField_lt hp, readField_lt hd, readField_lt he, readField_lt hip,
        readField_lt hgp]
    · obtain ⟨c, l, hc, h⟩ := thenRead_ok_iff.1 h
      obtain ⟨di, l, hdi, h⟩ := thenRead_ok_iff.1 h
      obtain ⟨du, l, hdu, h⟩ := thenRead_ok_iff.1 h
      obtain ⟨si, l, hsi, h⟩ := thenRead_ok_iff.1 h
      obtain ⟨su, l, hsu, h⟩ := thenRead_ok_iff.1 h
      obtain ⟨f, l, -, h⟩ := thenRead_ok_iff.1 h
      cases h
      simp [FrameOp.wellFormed, readField_lt hc, readField_lt hdi, readField_lt hdu, readField_lt hsi, readField_lt hsu]
    · obtain ⟨c, l, hc, h⟩ := thenRead_ok_iff.1 h
      obtain ⟨di, l, hdi, h⟩ := thenRead_ok_iff.1 h
      obtain ⟨si, l, hsi, h⟩ := thenRead_ok_iff.1 h
      obtain ⟨x, l, -, h⟩ := thenRead_ok_iff.1 h
      cases h
      simp [FrameOp.wellFormed, readField_lt hc, readField_lt hdi, readField_lt hsi]
    · cases h

theorem readFrameOp?_wellFormed {bs rest : List Byte} {op : Option FrameOp} (h : readFrameOp? bs = .ok (op, rest)) :
    (HostAct.enq op).wellFormed = true := by
  cases bs with
  | nil => cases h
  | cons tag bs =>
    rw [readFrameOp?] at h
    split at h
    · cases h
      rfl
    · obtain ⟨f, l, hf, h⟩ := thenRead_ok_iff.1 h
      cases h
      exact readFrameOp_wellFormed hf

theorem readAct_wellFormed {bs rest : List Byte} {a : HostAct} (h : readAct bs = .ok (a, rest)) :
    a.wellFormed = true := by
  cases bs with
  | nil => cases h
  | cons tag bs =>
    rw [readAct] at h
    split at h
    · obtain ⟨f, l, hf, h⟩ := thenRead_ok_iff.1 h
      cases h
      exact readFrameOp?_wellFormed hf
    · cases h
      rfl
    · obtain ⟨sel, l, -, h⟩ := thenRead_ok_iff.1 h
      cases h
      rfl
    · cases h

theorem readActs_wellFormed {fuel : Nat} {bs rest : List Byte} {acts : List HostAct}
    (h : readActs fuel bs = .ok (acts, rest)) : acts.all HostAct.wellFormed = true := by
  induction fuel generalizing bs acts with
  | zero => cases h
  | succ fuel ih =>
    cases bs with
    | nil => cases h
    | cons tag bs =>
      rw [readActs] at h
      split at h
      · cases h
        rfl
      · obtain ⟨a, l, ha, h⟩ := thenRead_ok_iff.1 h
        obtain ⟨as, l', has, h⟩ := thenRead_ok_iff.1 h
        cases h
        rw [List.all_cons, readAct_wellFormed ha, ih has]
        rfl

theorem controlRow_wellFormed (c : Nib) {args : List Nib} (h : argsFit args = true) :
    (controlRow c args).wellFormed = true := by
  unfold controlRow
  split
  case h_14 =>
    have hc : 13 ≤ c.toNat := by
      simp only [imp_false] at *
      omega
    simp [Instr.wellFormed, hc, h]
  all_goals exact h

theorem frameRow_wellFormed (t c : Nib) {args : List Nib} (h : argsFit args = true) :
    (frameRow t c args).wellFormed = true := by
  unfold frameRow
  split
  case h_2 => exact controlRow_wellFormed c h
  case h_6 =>
    have ht : 5 ≤ t.toNat := by
      simp only [imp_false] at *
      omega
    simp [Instr.wellFormed, ht, h]
  all_goals exact h

/-- A parser key names the first row it matches (30_encoding.md R93). -/
theorem parserKeyRow_wellFormed {key : Byte} {i : Instr} (h : parserKeyRow key = .ok i) : i.wellFormed = true := by
  unfold parserKeyRow at h
  dsimp only at h
  split at h
  case h_1 | h_7 | h_8 =>
    cases h
    split
    · rfl
    · next hy => simpa [Instr.wellFormed] using hy
  case h_9 =>
    split at h
    · cases h
      rfl
    · cases h
  case h_10 => cases h
  all_goals
    cases h
    rfl

theorem emitterKeyRow_wellFormed {key : Byte} {i : Instr} (h : emitterKeyRow key = .ok i) : i.wellFormed = true := by
  unfold emitterKeyRow at h
  split at h <;> cases h <;> rfl

theorem readPortRow_wellFormed {key : Byte} {bs rest : List Byte} {i : Instr} (h : readPortRow key bs = .ok (i, rest)) :
    i.wellFormed = true := by
  unfold readPortRow at h
  split at h
  case h_2 | h_5 =>
    cases h
    rfl
  case h_3 =>
    obtain ⟨y, l, -, h⟩ := thenRead_ok_iff.1 h
    obtain ⟨acts, l', hacts, h⟩ := thenRead_ok_iff.1 h
    cases h
    exact readActs_wellFormed hacts
  case h_4 =>
    obtain ⟨f, l, hf, h⟩ := thenRead_ok_iff.1 h
    cases h
    have hwf := readFrameOp?_wellFormed hf
    cases f <;> exact hwf
  case h_7 | h_12 =>
    obtain ⟨f, l, hf, h⟩ := thenRead_ok_iff.1 h
    cases h
    exact readFrameOp_wellFormed hf
  case h_8 =>
    obtain ⟨t, l, -, h⟩ := thenRead_ok_iff.1 h
    obtain ⟨c, l, -, h⟩ := thenRead_ok_iff.1 h
    obtain ⟨a, l, -, h⟩ := thenRead_ok_iff.1 h
    cases h
    rfl
  case h_14 => cases h
  all_goals
    obtain ⟨x, l, -, h⟩ := thenRead_ok_iff.1 h
    cases h
    rfl

theorem readFrameRow_wellFormed {key : Byte} {bs rest : List Byte} {i : Instr}
    (h : readFrameRow key bs = .ok (i, rest)) : i.wellFormed = true := by
  obtain ⟨args, l, -, h⟩ := thenRead_ok_iff.1 h
  split at h
  · next hargs =>
    cases h
    exact frameRow_wellFormed _ _ hargs
  · cases h

/-- Settles O58: in each format the row read is well formed. -/
theorem decodedOperationsAreWellFormed : Obligations.DecodedOperationsAreWellFormed := by
  intro bs rest i h
  match bs with
  | [] | [_] => cases h
  | key :: format :: bs =>
    rw [decode] at h
    split at h
    · exact readFrameRow_wellFormed h
    · cases hrow : parserKeyRow key with
      | error e => simp [hrow, Except.map] at h
      | ok j =>
        obtain ⟨rfl, -⟩ : j = i ∧ bs = rest := by simpa [hrow, Except.map] using h
        exact parserKeyRow_wellFormed hrow
    · cases hrow : emitterKeyRow key with
      | error e => simp [hrow, Except.map] at h
      | ok j =>
        obtain ⟨rfl, -⟩ : j = i ∧ bs = rest := by simpa [hrow, Except.map] using h
        exact emitterKeyRow_wellFormed hrow
    · exact readPortRow_wellFormed h
    · cases h

/-- Settles O59: each record is short and the decoder runs on it. -/
theorem wordsOfTheTableDecode : Obligations.WordsOfTheTableDecode :=
  ⟨rfl, rfl, rfl, rfl, rfl, rfl, rfl, rfl, rfl, rfl, rfl⟩

end Sys2Proof
end

section
/-! PROOFS. The parser's transitions, one equation each (41_parser.md section 2), and the parser invariant
(10_state.md R39) along them. -/

namespace Sys2Proof.Machine

/-! ## One equation per transition -/

section
variable {s : State}

theorem parserStep_of_idle_sof (hp : s.pstate = .idle) : parserStep 15 s = .next (parserSof s) := by
  simp [parserStep, hp, sof]

theorem parserStep_of_idle_noise {y : Nib} (hp : s.pstate = .idle) (hy : y ≠ 15) :
    parserStep y s = .next (parserIgnore s) := by
  simp only [parserStep, hp]
  exact if_neg hy

theorem parserStep_of_type (hp : s.pstate = .type) (y : Nib) : parserStep y s = .next (parserAppend .code y s) := by
  simp only [parserStep, hp]

theorem parserStep_of_code (hp : s.pstate = .code) (y : Nib) : parserStep y s = .next (parserAppend .lenHi y s) := by
  simp only [parserStep, hp]

theorem parserStep_of_lenHi (hp : s.pstate = .lenHi) (y : Nib) : parserStep y s = .next (parserAppend .lenLo y s) := by
  simp only [parserStep, hp]

theorem parserStep_of_lenLo (hp : s.pstate = .lenLo) (y : Nib) : parserStep y s = parserLenLo y s := by
  simp only [parserStep, hp]

theorem parserStep_of_args (hp : s.pstate = .args) (y : Nib) : parserStep y s = .next (parserArgs y s) := by
  simp only [parserStep, hp]

theorem parserStep_of_eof (hp : s.pstate = .expectEof) : parserStep 0 s = parserEof s := by
  simp [parserStep, hp, eof]

theorem parserStep_of_eof_bad {y : Nib} (hp : s.pstate = .expectEof) (hy : y ≠ 0) :
    parserStep y s = .next (parserEofBad s) := by
  simp only [parserStep, hp]
  exact if_neg hy

theorem parserStep_of_error_zero (hp : s.pstate = .error) : parserStep 0 s = .next (parserResync s) := by
  simp [parserStep, hp, eof]

theorem parserStep_of_error_absorb {y : Nib} (hp : s.pstate = .error) (hy : y ≠ 0) :
    parserStep y s = .next (parserIgnore s) := by
  simp only [parserStep, hp]
  exact if_neg hy

/-! ## The transitions that read the buffer -/

/-- The declared length of two nibbles is at most 255, so LEN_LO never leaves the range (90_conflicts.md C1). -/
theorem declaredLength_le (hi lo : Nib) : 16 * hi.toNat + lo.toNat ≤ 255 := by
  have := hi.isLt
  have := lo.isLt
  omega

theorem parserLenLo_of_zero {y hi : Nib} (hbuf : (s.pbuf ++ [y])[2]? = some hi) (h0 : 16 * hi.toNat + y.toNat = 0) :
    parserLenLo y s = .next ((s.setParser .expectEof (s.pbuf ++ [y]) 0).quiet) := by
  simp only [parserLenLo, hbuf, be_pair, h0]
  rfl

theorem parserLenLo_of_pos {y hi : Nib} (hbuf : (s.pbuf ++ [y])[2]? = some hi) (h0 : 16 * hi.toNat + y.toNat ≠ 0) :
    parserLenLo y s =
      .next ((s.setParser .args (s.pbuf ++ [y]) (.ofNat 8 (16 * hi.toNat + y.toNat))).quiet) := by
  simp only [parserLenLo, hbuf, be_pair, h0, Nat.not_lt.2 (declaredLength_le hi y), if_false]

theorem parserLenLo_of_short {y : Nib} (h : s.pbuf.length < 2) : parserLenLo y s = .fault .parserBufferIndex := by
  have hbuf : (s.pbuf ++ [y])[2]? = none := by
    rw [List.getElem?_eq_none_iff, List.length_append, List.length_singleton]
    omega
  simp only [parserLenLo, hbuf]

theorem parserArgs_of_more {y : Nib} (h : s.pbuf.length + 1 < s.pexp.toNat + 4) :
    parserArgs y s = (s.setParser .args (s.pbuf ++ [y]) s.pexp).quiet := by
  simp only [parserArgs, List.length_append, List.length_singleton, Nat.ne_of_lt h, Nat.not_lt.2 (Nat.le_of_lt h),
    if_false]

theorem parserArgs_of_last {y : Nib} (h : s.pbuf.length + 1 = s.pexp.toNat + 4) :
    parserArgs y s = (s.setParser .expectEof (s.pbuf ++ [y]) s.pexp).quiet := by
  simp only [parserArgs, List.length_append, List.length_singleton, h, if_true]

theorem parserArgs_of_overrun {y : Nib} (h : s.pexp.toNat + 4 < s.pbuf.length + 1) :
    parserArgs y s = s.enterError .feArgsOverrun (s.pbuf ++ [y]) := by
  simp only [parserArgs, List.length_append, List.length_singleton, Nat.ne_of_gt h, h, if_false, if_true]

/-- The buffer of a frame under way decodes by its TYPE, CODE and the args after the length (41_parser.md R158). -/
theorem decodeBuffer_eq {buf : List Nib} {t c : Nib} {rest : List Nib} (h : buf = t :: c :: rest) :
    decodeBuffer buf = some (decodeFrame t c (buf.drop 4)) := by
  rw [h]
  rfl

theorem decodeBuffer_of_short {l : List Nib} (h : l.length < 2) : decodeBuffer l = none := by
  match l, h with
  | [], _ | [_], _ => rfl

theorem parserEof_of_ok {f : Frame} (h : decodeBuffer s.pbuf = some (.ok f)) : parserEof s = .next (s.commit f) := by
  simp only [parserEof, h]

theorem parserEof_of_error {r : DecodeReason} (h : decodeBuffer s.pbuf = some (.error r)) :
    parserEof s = .next (s.enterError (.feDecode r) s.pbuf) := by
  simp only [parserEof, h]

theorem parserEof_of_none (h : decodeBuffer s.pbuf = none) : parserEof s = .fault .parserBufferIndex := by
  simp only [parserEof, h]

end

/-! ## The parser invariant -/

/-- The parser invariant reads the parser's registers alone. -/
theorem ParserInv.congr {s t : State} (h : ParserInv s) (hp : t.pstate = s.pstate) (hb : t.pbuf = s.pbuf)
    (he : t.pexp = s.pexp) : ParserInv t := by
  unfold ParserInv at h ⊢
  rw [hp, hb, he]
  exact h

theorem slice_append_of_le {α : Type} {l : List α} {i j : Nat} (h : j ≤ l.length) (m : List α) :
    slice (l ++ m) i j = slice l i j := by
  rw [slice, slice, List.drop_append]
  by_cases hij : i ≤ j
  · rw [List.take_append_of_le_length (by rw [List.length_drop]; omega)]
  · rw [Nat.sub_eq_zero_of_le (Nat.le_of_not_le hij)]
    rfl

/-- What a parser step does from a state that meets the parser invariant, with the state it leads to: ERROR is entered
from EXPECT_EOF only, and left only for IDLE with empty registers (41_parser.md section 5). -/
structure ParserStepFromInv (s t : State) : Prop where
  inv : ParserInv t
  entersError : s.pstate ≠ .error → t.pstate = .error →
    s.pstate = .expectEof ∧ ∃ e, t.events = s.events ++ [e] ∧ (e = .feNoEof ∨ ∃ r, e = .feDecode r)
  leavesError : s.pstate = .error → t.pstate ≠ .error → t.pstate = .idle ∧ t.pbuf = [] ∧ t.pexp = 0

/-- A step between states other than ERROR. -/
theorem ParserStepFromInv.of_no_error {s t : State} (hs : s.pstate ≠ .error) (ht : t.pstate ≠ .error)
    (h : ParserInv t) : ParserStepFromInv s t :=
  ⟨h, fun _ he => absurd he ht, fun he => absurd he hs⟩

/-- From EXPECT_EOF the entry into ERROR keeps the buffer, hence the invariant (60_exceptions.md R254). -/
theorem ParserStepFromInv.of_enterError {s : State} {e : Event} (hp : s.pstate = .expectEof) (h : ParserInv s)
    (he : e = .feNoEof ∨ ∃ r, e = .feDecode r) : ParserStepFromInv s (s.enterError e s.pbuf) := by
  refine ⟨?_, fun _ _ => ⟨hp, e, rfl, he⟩, fun hs => ?_⟩
  · simp only [ParserInv, hp] at h
    exact h
  · rw [hp] at hs
    cases hs

/-- From the parser invariant every step completes and keeps it, and meets ERROR only as 41_parser.md section 5 says. -/
theorem parserStep_from_inv {s : State} (h : ParserInv s) (y : Nib) :
    ∃ t, parserStep y s = .next t ∧ ParserStepFromInv s t := by
  have hinv := h
  cases hp : s.pstate with
  | idle =>
    by_cases hy : y = 15
    · subst hy
      exact ⟨_, parserStep_of_idle_sof hp, .of_no_error (by simp [hp]) (by simp [parserSof, State.quiet]) ⟨rfl, rfl⟩⟩
    · exact ⟨_, parserStep_of_idle_noise hp hy,
        .of_no_error (by simp [hp]) (by simp [parserIgnore, State.quiet, hp]) (h.congr rfl rfl rfl)⟩
  | type =>
    simp only [ParserInv, hp] at h
    refine ⟨_, parserStep_of_type hp y, .of_no_error (by simp [hp]) (by simp [parserAppend, State.quiet]) ⟨?_, h.2⟩⟩
    simp [parserAppend, State.quiet, h.1]
  | code =>
    simp only [ParserInv, hp] at h
    refine ⟨_, parserStep_of_code hp y, .of_no_error (by simp [hp]) (by simp [parserAppend, State.quiet]) ⟨?_, h.2⟩⟩
    simp [parserAppend, State.quiet, h.1]
  | lenHi =>
    simp only [ParserInv, hp] at h
    refine ⟨_, parserStep_of_lenHi hp y, .of_no_error (by simp [hp]) (by simp [parserAppend, State.quiet]) ⟨?_, h.2⟩⟩
    simp [parserAppend, State.quiet, h.1]
  | lenLo =>
    simp only [ParserInv, hp] at h
    obtain ⟨t, c, hi, hbuf⟩ := List.length_eq_three.1 h.1
    have hhi : (s.pbuf ++ [y])[2]? = some hi := by rw [hbuf]; rfl
    have hslice : be (slice (s.pbuf ++ [y]) 2 4) = 16 * hi.toNat + y.toNat := by rw [hbuf]; exact be_pair hi y
    have hlength : (s.pbuf ++ [y]).length = 4 := by rw [hbuf]; rfl
    rw [parserStep_of_lenLo hp]
    by_cases h0 : 16 * hi.toNat + y.toNat = 0
    · refine ⟨_, parserLenLo_of_zero hhi h0, .of_no_error (by simp [hp]) (by simp [State.quiet]) ⟨hlength, ?_⟩⟩
      exact (hslice.trans h0).symm
    · have hexp : (BitVec.ofNat 8 (16 * hi.toNat + y.toNat)).toNat = 16 * hi.toNat + y.toNat := by
        rw [BitVec.toNat_ofNat]
        exact Nat.mod_eq_of_lt (Nat.lt_succ_of_le (declaredLength_le hi y))
      refine ⟨_, parserLenLo_of_pos hhi h0, .of_no_error (by simp [hp]) (by simp [State.quiet]) ⟨hlength.ge, ?_, ?_⟩⟩
      · refine hlength.trans_lt ?_
        rw [State.quiet, State.drive_pexp, State.setParser_pexp, hexp]
        omega
      · exact hexp.trans hslice.symm
  | args =>
    simp only [ParserInv, hp] at h
    obtain ⟨hlow, hhigh, hexp⟩ := h
    have hslice : s.pexp.toNat = be (slice (s.pbuf ++ [y]) 2 4) := by rw [slice_append_of_le hlow, hexp]
    rw [parserStep_of_args hp]
    obtain hmore | hlast : s.pbuf.length + 1 < s.pexp.toNat + 4 ∨ s.pbuf.length + 1 = s.pexp.toNat + 4 := by omega
    · refine ⟨_, rfl, ?_⟩
      rw [parserArgs_of_more hmore]
      refine .of_no_error (by simp [hp]) (by simp [State.quiet]) ⟨?_, ?_, hslice⟩ <;> simp [State.quiet] <;> omega
    · refine ⟨_, rfl, ?_⟩
      rw [parserArgs_of_last hlast]
      refine .of_no_error (by simp [hp]) (by simp [State.quiet]) ⟨?_, hslice⟩
      simp [State.quiet]
      omega
  | expectEof =>
    simp only [ParserInv, hp] at h
    by_cases hy : y = 0
    · subst hy
      rw [parserStep_of_eof hp]
      match hbuf : s.pbuf with
      | [] | [_] => simp [hbuf] at h; omega
      | t :: c :: l =>
        have hdecode := decodeBuffer_eq hbuf
        cases hf : decodeFrame t c (s.pbuf.drop 4) with
        | ok f =>
          refine ⟨_, parserEof_of_ok (hdecode.trans (congrArg some hf)), .of_no_error (by simp [hp]) ?_ ⟨rfl, rfl⟩⟩
          simp [State.commit, State.toIdle]
        | error r =>
          exact ⟨_, parserEof_of_error (hdecode.trans (congrArg some hf)), .of_enterError hp hinv (.inr ⟨r, rfl⟩)⟩
    · exact ⟨_, parserStep_of_eof_bad hp hy, .of_enterError hp hinv (.inl rfl)⟩
  | error =>
    by_cases hy : y = 0
    · subst hy
      exact ⟨_, parserStep_of_error_zero hp, ⟨rfl, rfl⟩, fun hs => absurd hp hs, fun _ _ => ⟨rfl, rfl, rfl⟩⟩
    · exact ⟨_, parserStep_of_error_absorb hp hy, hinv.congr rfl rfl rfl, fun hs => absurd hp hs,
        fun _ ht => absurd hp ht⟩

theorem parserStep_keeps_inv {y : Nib} {s t : State} (ht : parserStep y s = .next t) (h : ParserInv s) :
    ParserStepFromInv s t := by
  obtain ⟨u, hu, hstep⟩ := parserStep_from_inv h y
  rw [hu] at ht
  cases ht
  exact hstep

end Sys2Proof.Machine
end

section
/-! PROOFS. The invariants of 10_state.md section 8 through every operation and step, and that steps complete: no fault
from a state that meets them. -/

namespace Sys2Proof.Machine

/-! ## What each invariant reads -/

theorem EmitterInv.congr {s t : State} (h : EmitterInv s) (he : t.estate = s.estate) (hs : t.esyms = s.esyms)
    (hp : t.epos = s.epos) : EmitterInv t := by
  unfold EmitterInv at h ⊢
  rw [he, hs, hp]
  exact h

theorem QueueInv.congr {s t : State} (h : QueueInv s) (hq : t.queue = s.queue) : QueueInv t := by
  unfold QueueInv at h ⊢
  rw [hq]
  exact h

theorem StatusInv.congr {s t : State} (h : StatusInv s) (hf : t.eflags = s.eflags) (hw : t.cfg = s.cfg)
    (hparsed : t.framesParsed = s.framesParsed) (herrors : t.framingErrors = s.framingErrors)
    (hemitted : t.framesEmitted = s.framesEmitted) (hdrops : t.overflowDrops = s.overflowDrops) : StatusInv t := by
  unfold StatusInv at h ⊢
  rw [hf, hw, hparsed, herrors, hemitted, hdrops]
  exact h

/-- The host's records, its place in the tick and the record of outputs are no registers of the block. -/
theorem BlockInv.setOps {s : State} (h : BlockInv s) (bs : List Byte) : BlockInv (s.setOps bs) := h

theorem BlockInv.begin {s : State} (h : BlockInv s) : BlockInv s.begin := h

theorem BlockInv.setPhase {s : State} (h : BlockInv s) (p : TickPhase) : BlockInv (s.setPhase p) := h

/-- Every clean state meets the invariants (10_state.md section 8, 70_reset_and_hazards.md R283). -/
theorem blockInv_of_clean {s : State} (h : Clean s) : BlockInv s := by
  rw [h]
  have hpow : 0 < 2 ^ s.cfg.ctrW := by positivity
  have hreserved : (0 : BitVec 4) &&& 0b1100 = 0 := by decide
  have hframes : ∀ f ∈ ([] : List Frame), validFrame f = true := by simp
  exact ⟨⟨rfl, rfl⟩, ⟨rfl, rfl⟩, ⟨Nat.zero_le _, hframes⟩, hreserved, hpow, hpow, hpow, hpow, fun hn => absurd rfl hn,
    fun hn => absurd rfl hn⟩

/-! ## The status registers -/

theorem StatusInv.countParsed {s : State} (h : StatusInv s) : StatusInv s.countParsed := by
  obtain ⟨hreserved, -, herrors, hemitted, hdrops, hflags⟩ := h
  exact ⟨hreserved, ctrInc_lt _ _, herrors, hemitted, hdrops, hflags⟩

theorem StatusInv.countEmitted {s : State} (h : StatusInv s) : StatusInv s.countEmitted := by
  obtain ⟨hreserved, hparsed, herrors, -, hdrops, hflags⟩ := h
  exact ⟨hreserved, hparsed, herrors, ctrInc_lt _ _, hdrops, hflags⟩

theorem StatusInv.countFramingError {s : State} (h : StatusInv s) : StatusInv s.countFramingError := by
  obtain ⟨-, hparsed, -, hemitted, hdrops, -, hoverflow⟩ := h
  obtain ⟨hset, hkept⟩ := setFlag_framing_bits s.eflags
  exact ⟨setFlag_reserved _ _, hparsed, ctrInc_lt _ _, hemitted, hdrops, fun _ => hset,
    fun hn => hkept.trans (hoverflow hn)⟩

theorem StatusInv.countDrop {s : State} (h : StatusInv s) : StatusInv s.countDrop := by
  obtain ⟨-, hparsed, herrors, hemitted, -, hframing, -⟩ := h
  obtain ⟨hset, hkept⟩ := setFlag_overflow_bits s.eflags
  exact ⟨setFlag_reserved _ _, hparsed, herrors, hemitted, ctrInc_lt _ _, fun hn => hkept.trans (hframing hn),
    fun _ => hset⟩

/-! ## Parser step, host action, emitter step -/

theorem parserStep_keeps_blockInv {y : Nib} {s t : State} (ht : parserStep y s = .next t) (h : BlockInv s) :
    BlockInv t := by
  obtain ⟨hparser, hemitter, hqueue, hstatus⟩ := h
  obtain ⟨he, hs, hp, hq, -⟩ := parserStep_frame ht
  refine ⟨(parserStep_keeps_inv ht hparser).inv, hemitter.congr he hs hp, hqueue.congr hq, ?_⟩
  obtain ⟨p, b, n, rfl⟩ | rfl | ⟨e, b, -, -, rfl⟩ | ⟨f, -, rfl⟩ := parserStep_cases ht
  · exact hstatus
  · exact hstatus
  · exact StatusInv.countFramingError (s := s.setParser .error b s.pexp) hstatus
  · exact StatusInv.countParsed (s := s.toIdle) hstatus

theorem QueueInv.push {s : State} {f : Frame} (h : QueueInv s) (hvalid : validFrame f = true)
    (hroom : s.queue.length < queueCap) : QueueInv (s.push f) := by
  obtain ⟨-, hframes⟩ := h
  refine ⟨?_, fun g hg => ?_⟩
  · rw [State.push, State.setQueue_queue, List.length_append]
    exact hroom
  · obtain hg | hg := List.mem_append.1 hg
    · exact hframes g hg
    · exact List.mem_singleton.1 hg ▸ hvalid

theorem enqueue_keeps_blockInv {req : Option Frame} {s t : State} (ht : enqueue req s = .next t) (h : BlockInv s) :
    BlockInv t := by
  obtain ⟨hparser, hemitter, hqueue, hstatus⟩ := h
  obtain ⟨-, rfl⟩ | ⟨f, -, -, -, rfl⟩ | ⟨f, -, -, -, rfl⟩ | ⟨f, -, hvalid, hroom, rfl⟩ := enqueue_cases ht
  · exact ⟨hparser, hemitter, hqueue, hstatus⟩
  · exact ⟨hparser, hemitter, hqueue, hstatus.countDrop⟩
  · exact ⟨hparser, hemitter, hqueue, hstatus.countDrop⟩
  · exact ⟨hparser, hemitter, hqueue.push hvalid hroom, hstatus⟩

theorem runAct_keeps_blockInv {a : HostAct} {s t : State} (ht : runAct a s = .next t) (h : BlockInv s) :
    BlockInv t := by
  obtain ⟨req, ht⟩ | ⟨-, rfl⟩ | ⟨sel, rfl⟩ := runAct_cases ht
  · exact enqueue_keeps_blockInv ht h
  · exact blockInv_of_clean rfl
  · exact h

/-- A Frame has at most 261 symbols, so a 9-bit position never wraps before their end (10_state.md R28). -/
theorem epos_succ {s : State} (h : EmitterInv s) (he : s.estate = .outputting) (hl : symbolsLeft s = true) :
    (s.epos + 1).toNat = s.epos.toNat + 1 := by
  simp only [EmitterInv, he] at h
  obtain ⟨⟨f, hvalid, hsyms⟩, -⟩ := h
  have hlength := validFrame_length hvalid
  have hleft := symbolsLeft_iff.1 hl
  rw [hsyms, frameSymbols_length] at hleft
  rw [BitVec.toNat_add]
  exact Nat.mod_eq_of_lt (Nat.lt_of_le_of_lt (Nat.succ_le_of_lt hleft) (by omega))

theorem emitterStep_keeps_blockInv {s t : State} (ht : emitterStep s = .next t) (h : BlockInv s) : BlockInv t := by
  obtain ⟨hparser, hemitter, hqueue, hstatus⟩ := h
  obtain ⟨-, -, rfl⟩ | ⟨f, q, -, hq, -, rfl⟩ | ⟨he, hl, rfl⟩ | ⟨-, -, rfl⟩ := emitterStep_cases ht
  · exact ⟨hparser, hemitter, hqueue, hstatus⟩
  · obtain ⟨hcap, hframes⟩ := hqueue
    rw [hq] at hcap hframes
    have hpos : 1 ≤ (frameSymbols f).length := by rw [frameSymbols_length]; omega
    exact ⟨hparser, ⟨⟨f, hframes f List.mem_cons_self, rfl⟩, le_refl 1, hpos⟩,
      ⟨Nat.le_of_succ_le hcap, fun g hg => hframes g (List.mem_cons_of_mem f hg)⟩, hstatus⟩
  · have hpos := epos_succ hemitter he hl
    simp only [EmitterInv, he] at hemitter
    refine ⟨hparser, ?_, hqueue, hstatus⟩
    simp only [EmitterInv, emitterSymbol, State.drive_estate, State.setEmitter_estate, he, State.drive_esyms,
      State.setEmitter_esyms, State.drive_epos, State.setEmitter_epos, hpos]
    exact ⟨hemitter.1, Nat.le_add_left 1 _, symbolsLeft_iff.1 hl⟩
  · exact ⟨hparser, ⟨rfl, rfl⟩, hqueue, StatusInv.countEmitted (s := s.setEmitter .idle [] 0) hstatus⟩

/-! ## Every operation -/

theorem exec_keeps_blockInv {i : Instr} {s t : State} (ht : exec i s = .next t) (h : BlockInv s) : BlockInv t := by
  obtain ⟨-, o, e, rfl⟩ | ⟨-, y, p, -, -, ht⟩ | ⟨-, p, -, ht⟩ | ⟨y, acts, -, ht⟩ | ⟨f, req, -, ht⟩ | ⟨-, rfl⟩ :=
    exec_cases ht
  · exact h
  · exact parserStep_keeps_blockInv ht h
  · exact emitterStep_keeps_blockInv ht h
  · exact execTick_keeps (fun _ _ => parserStep_keeps_blockInv) (fun _ _ _ _ => runAct_keeps_blockInv)
      (fun _ _ => emitterStep_keeps_blockInv) ht h
  · exact enqueue_keeps_blockInv ht h
  · exact blockInv_of_clean rfl

/-- Settles O51: taking a record off and beginning an operation touch no register, and every operation keeps the
invariants. -/
theorem everyStepKeepsTheInvariants : Obligations.EveryStepKeepsTheInvariants := fun _ _ h ht =>
  step_keeps (fun _ bs h => h.setOps bs) (fun _ h => h.begin) (fun _ _ _ => exec_keeps_blockInv) ht h

/-- Settles O50: the reset state is written out, it is Clean, and every Clean state meets the invariants. -/
theorem resetStateIsCleanAndMeetsTheInvariants : Obligations.ResetStateIsCleanAndMeetsTheInvariants :=
  ⟨rfl, rfl, rfl, rfl, rfl, rfl, rfl, rfl, rfl, rfl, rfl, rfl, rfl, ⟨rfl, rfl, rfl, fun _ _ => rfl⟩,
    fun _ => blockInv_of_clean⟩

/-! ## Parser and emitter steps complete -/

/-- A parser step drives `commit` and `ferr`, never both (41_parser.md R150). -/
theorem parserStep_drives {y : Nib} {s t : State} (h : parserStep y s = .next t) :
    ∃ c e, t.out = s.out ++ [.pstep c e] ∧ (c ≠ none → e = false) := by
  obtain ⟨p, b, n, rfl⟩ | rfl | ⟨e, b, -, -, rfl⟩ | ⟨f, -, rfl⟩ := parserStep_cases h
  · exact ⟨none, false, rfl, fun _ => rfl⟩
  · exact ⟨none, false, rfl, fun _ => rfl⟩
  · exact ⟨none, true, rfl, fun hc => absurd rfl hc⟩
  · exact ⟨some f, false, rfl, fun _ => rfl⟩

theorem emitterStep_drives {s t : State} (h : emitterStep s = .next t) : ∃ y d, t.out = s.out ++ [.estep y d] := by
  obtain ⟨-, -, rfl⟩ | ⟨f, q, -, -, -, rfl⟩ | ⟨-, -, rfl⟩ | ⟨-, -, rfl⟩ := emitterStep_cases h <;> exact ⟨_, _, rfl⟩

theorem encodeFrame_of_tooLong {f : Frame} (h : 255 < f.args.length) : encodeFrame f = .error f.args.length :=
  if_neg (Nat.not_le.2 h)

/-- A head frame of at most 255 args starts with its SOF (42_emitter.md R181). -/
theorem emitterStart_of_length {f : Frame} (h : f.args.length ≤ 255) (q : List Frame) (s : State) :
    emitterStart f q s =
      .next (((s.setQueue q).setEmitter .outputting (frameSymbols f) 1).drive (.estep sof false)) := by
  simp only [emitterStart, (encodeFrame_ok_iff f _).2 ⟨h, rfl⟩]
  rfl

theorem emitterStep_idle {s : State} (he : s.estate = .idle) (hq : s.queue = []) :
    emitterStep s = .next (emitterIdle s) := by
  simp only [emitterStep, he, hq]

theorem emitterStep_start {s : State} {f : Frame} {q : List Frame} (he : s.estate = .idle) (hq : s.queue = f :: q)
    (hl : f.args.length ≤ 255) :
    emitterStep s =
      .next (((s.setQueue q).setEmitter .outputting (frameSymbols f) 1).drive (.estep sof false)) := by
  simp only [emitterStep, he, hq]
  exact emitterStart_of_length hl q s

theorem emitterStep_completes {s : State} (h : QueueInv s) : ∃ t, emitterStep s = .next t := by
  cases he : s.estate with
  | idle =>
    cases hq : s.queue with
    | nil => exact ⟨_, emitterStep_idle he hq⟩
    | cons f q => exact ⟨_, emitterStep_start he hq (validFrame_length (h.2 f (hq ▸ List.mem_cons_self)))⟩
  | outputting =>
    cases hl : symbolsLeft s with
    | true => exact ⟨_, emitterStep_symbol he hl⟩
    | false => exact ⟨_, emitterStep_end he hl⟩

theorem emitterStep_keeps_queueInv {s t : State} (ht : emitterStep s = .next t) (h : QueueInv s) : QueueInv t := by
  obtain ⟨-, -, rfl⟩ | ⟨f, q, -, hq, -, rfl⟩ | ⟨-, -, rfl⟩ | ⟨-, -, rfl⟩ := emitterStep_cases ht
  · exact h
  · obtain ⟨hcap, hframes⟩ := h
    rw [hq] at hcap hframes
    exact ⟨Nat.le_of_succ_le hcap, fun g hg => hframes g (List.mem_cons_of_mem f hg)⟩
  · exact h
  · exact h

/-- Settles O30: in the tick order each is one step of its part, which completes under the part's invariant. -/
theorem stepsAlwaysComplete : Obligations.StepsAlwaysComplete := by
  constructor
  · intro s y p hp h
    obtain ⟨t, ht, hstep⟩ := parserStep_from_inv (s := s.begin.setPhase p) h y
    obtain ⟨c, e, hout, hce⟩ := parserStep_drives ht
    obtain ⟨-, -, -, -, -, -, -, hphase, -⟩ := parserStep_frame ht
    exact ⟨t, c, e, (exec_pstep hp).trans ht, hout, hstep.inv, hce, hphase⟩
  · intro s p hp h
    obtain ⟨t, ht⟩ := emitterStep_completes (s := s.begin.setPhase p) h
    obtain ⟨y, d, hout⟩ := emitterStep_drives ht
    obtain ⟨-, -, -, -, -, -, -, -, hphase, -⟩ := emitterStep_frame ht
    exact ⟨t, y, d, (exec_estep hp).trans ht, hout, emitterStep_keeps_queueInv ht h, hphase⟩

/-! ## A TICK completes -/

/-- A defined action presents none or a candidate, or is a RESET or a READ: it completes (43_queue_and_control.md
R205). -/
theorem runAct_of_defined {a : HostAct} (h : actDefined a = true) (s : State) : ∃ t, runAct a s = .next t := by
  match a with
  | .reset | .read _ | .enq none => exact ⟨_, rfl⟩
  | .enq (some op) =>
    cases hop : evalFrameOp op with
    | error r => simp [actDefined, hop] at h
    | ok f =>
      have hcandidate : validCandidate f = true := by simpa [actDefined, hop] using h
      have hrun : runAct (.enq (some op)) s = enqueue (some f) s := withFrame_of_eval _ hop
      rw [hrun]
      simp only [enqueue, hcandidate, Bool.not_true, Bool.false_eq_true, if_false]
      split_ifs <;> exact ⟨_, rfl⟩

theorem runActs_of_defined {acts : List HostAct} (h : acts.all actDefined = true) (s : State) :
    ∃ t, runActs acts s = .next t := by
  induction acts generalizing s with
  | nil => exact ⟨s, rfl⟩
  | cons a acts ih =>
    rw [List.all_cons, Bool.and_eq_true] at h
    obtain ⟨u, hu⟩ := runAct_of_defined h.1 s
    obtain ⟨t, ht⟩ := ih h.2 u
    exact ⟨t, by rw [runActs, hu, andThen_next, ht]⟩

/-- A host action writes neither the launch fields, the host's records nor its place in the tick. -/
theorem runAct_frame {a : HostAct} {s t : State} (h : runAct a s = .next t) :
    t.cfg = s.cfg ∧ t.ops = s.ops ∧ t.phase = s.phase := by
  obtain ⟨req, h⟩ | ⟨-, rfl⟩ | ⟨sel, rfl⟩ := runAct_cases h
  · obtain ⟨-, rfl⟩ | ⟨f, -, -, -, rfl⟩ | ⟨f, -, -, -, rfl⟩ | ⟨f, -, -, -, rfl⟩ := enqueue_cases h <;>
      exact ⟨rfl, rfl, rfl⟩
  · exact ⟨rfl, rfl, rfl⟩
  · exact ⟨rfl, rfl, rfl⟩

theorem runActs_frame {acts : List HostAct} {s t : State} (h : runActs acts s = .next t) :
    t.cfg = s.cfg ∧ t.ops = s.ops ∧ t.phase = s.phase := by
  refine runActs_keeps (P := fun t => t.cfg = s.cfg ∧ t.ops = s.ops ∧ t.phase = s.phase) ?_ h ⟨rfl, rfl, rfl⟩
  rintro a - u v hv ⟨hcfg, hops, hphase⟩
  obtain ⟨hcfg', hops', hphase'⟩ := runAct_frame hv
  exact ⟨hcfg'.trans hcfg, hops'.trans hops, hphase'.trans hphase⟩

/-- A TICK that answers ends between ticks. -/
theorem execTick_phase {y : Nib} {acts : List HostAct} {s t : State} (h : execTick y acts s = .next t) :
    t.phase = .between := by
  obtain ⟨-, u, v, hu, hv, ht⟩ := execTick_next_iff.1 h
  obtain ⟨-, -, -, -, -, -, -, hparser, -⟩ := parserStep_frame hu
  obtain ⟨-, -, hacts⟩ := runActs_frame hv
  obtain ⟨-, -, -, -, -, -, -, -, hemitter, -⟩ := emitterStep_frame ht
  exact hemitter.trans (hacts.trans hparser)

/-- Settles O47: the parser step completes by the parser invariant, the actions because they are defined, the emitter
step by the queue invariant they keep. -/
theorem tickCompletes : Obligations.TickCompletes := by
  intro y acts s h hphase hdefined
  obtain ⟨u, hu, -⟩ := parserStep_from_inv (s := s.begin.setPhase .between) h.1 y
  have huInv : BlockInv u := parserStep_keeps_blockInv hu (h.begin.setPhase .between)
  obtain ⟨v, hv⟩ := runActs_of_defined hdefined u
  have hvInv : BlockInv v := runActs_keeps (fun _ _ _ _ => runAct_keeps_blockInv) hv huInv
  obtain ⟨t, ht⟩ := emitterStep_completes hvInv.2.2.1
  have hexec : execTick y acts s = .next t := execTick_next_iff.2 ⟨hphase, u, v, hu, hv, ht⟩
  exact ⟨t, hexec, emitterStep_keeps_blockInv ht hvInv, execTick_phase hexec⟩

/-! ## No fault -/

theorem inOrder_ne_fault {p : Option TickPhase} {k : State → Result} {s : State} {e : Fault}
    (h : ∀ q, k (s.begin.setPhase q) ≠ .fault e) : inOrder p k s ≠ .fault e := by
  cases p with
  | none => simp [inOrder]
  | some q => exact h q

theorem whenRow_ne_fault {m : String} {c : Bool} {r : Result} {e : Fault} (h : c = true → r ≠ .fault e) :
    whenRow m c r ≠ .fault e := by
  cases c
  · simp [whenRow]
  · exact h rfl

/-- A parser row faults only where its condition holds and its transition faults (log 8). -/
theorem parserRow_ne_fault {m : String} {c : State → Bool} {r : State → Result} {s : State} {e : Fault}
    (h : ∀ p, c (s.begin.setPhase p) = true → r (s.begin.setPhase p) ≠ .fault e) :
    parserTurn s (fun u => whenRow m (c u) (r u)) ≠ .fault e :=
  inOrder_ne_fault (k := fun u => whenRow m (c u) (r u)) fun p => whenRow_ne_fault (h p)

/-- The same of an emitter row. -/
theorem emitterRow_ne_fault {m : String} {c : State → Bool} {r : State → Result} {s : State} {e : Fault}
    (h : ∀ p, c (s.begin.setPhase p) = true → r (s.begin.setPhase p) ≠ .fault e) :
    emitterTurn s (fun u => whenRow m (c u) (r u)) ≠ .fault e :=
  inOrder_ne_fault (k := fun u => whenRow m (c u) (r u)) fun p => whenRow_ne_fault (h p)

theorem andThen_ne_fault {r : Result} {k : State → Result} {e : Fault} (hr : r ≠ .fault e)
    (hk : ∀ t, r = .next t → k t ≠ .fault e) : andThen r k ≠ .fault e := by
  cases r with
  | next t => exact hk t rfl
  | fault f => exact hr
  | refused x => simp [andThen]

theorem withFrame_ne_fault {op : FrameOp} {k : Frame → Result} {e : Fault} (h : ∀ f, k f ≠ .fault e) :
    withFrame op k ≠ .fault e := by
  unfold withFrame
  split
  · exact h _
  · simp

theorem answerDecode_ne_fault (r : Except DecodeReason Frame) (s : State) (e : Fault) :
    answerDecode r s ≠ .fault e := by
  cases r <;> simp [answerDecode]

theorem enqueue_ne_fault (req : Option Frame) (s : State) (e : Fault) : enqueue req s ≠ .fault e := by
  cases req with
  | none => simp [enqueue]
  | some f =>
    unfold enqueue
    dsimp only
    split_ifs <;> simp

theorem withCandidate_ne_fault {op : Option FrameOp} {k : Option Frame → Result} {e : Fault} (h : ∀ r, k r ≠ .fault e) :
    withCandidate op k ≠ .fault e := by
  cases op with
  | none => exact h none
  | some op => exact withFrame_ne_fault fun f => h (some f)

theorem runActs_ne_fault (acts : List HostAct) (s : State) (e : Fault) : runActs acts s ≠ .fault e := by
  induction acts generalizing s with
  | nil => simp [runActs]
  | cons a acts ih =>
    refine andThen_ne_fault ?_ fun t _ => ih t
    cases a with
    | enq f => exact withCandidate_ne_fault fun req => enqueue_ne_fault req s e
    | reset | read => simp [runAct]

theorem parserStep_ne_fault {s : State} (h : ParserInv s) (y : Nib) (e : Fault) : parserStep y s ≠ .fault e := by
  obtain ⟨t, ht, -⟩ := parserStep_from_inv h y
  simp [ht]

theorem emitterStep_ne_fault {s : State} (h : QueueInv s) (e : Fault) : emitterStep s ≠ .fault e := by
  obtain ⟨t, ht⟩ := emitterStep_completes h
  simp [ht]

theorem execTick_ne_fault {s : State} (h : BlockInv s) (y : Nib) (acts : List HostAct) (e : Fault) :
    execTick y acts s ≠ .fault e := by
  refine inOrder_ne_fault fun q =>
    andThen_ne_fault (parserStep_ne_fault (s := s.begin.setPhase q) h.1 y e) fun u hu => ?_
  have huInv : BlockInv u := parserStep_keeps_blockInv hu (h.begin.setPhase q)
  have hcallback : runCallback u = runActs ((commits [u.out]).flatMap (callbackOf u.cfg.callback)) u :=
    runCallback_of_parserStep hu rfl
  rw [hcallback]
  refine andThen_ne_fault (runActs_ne_fault _ u e) fun v hv =>
    andThen_ne_fault (runActs_ne_fault acts v e) fun w hw => ?_
  have hvInv : BlockInv v := runActs_keeps (fun _ _ _ _ => runAct_keeps_blockInv) hv huInv
  have hwInv : BlockInv w := runActs_keeps (fun _ _ _ _ => runAct_keeps_blockInv) hw hvInv
  exact emitterStep_ne_fault hwInv.2.2.1 e

/-- From the invariants no operation faults: the only rows that could read the parser's buffer or encode the queue's
head (60_exceptions.md R265). -/
theorem exec_ne_fault {s : State} (h : BlockInv s) (i : Instr) (e : Fault) : exec i s ≠ .fault e := by
  obtain ⟨hparser, -, hqueue, -⟩ := id h
  cases i with
  | dctlNop | dctlPortUnreachable | dctlMalformedFrame | dctlBlockBusy | dctlEchoRequest | dctlEchoReply | dctlModeq
  | dctlReset | dctlSetport | dctlStatusReply | dctlHostUnreachable | dctlNetworkError | dctlTargetBusy
  | frameData | frameDataControl | frameStatus | frameIpv4 | frameIpv4Control | frameReservedType
  | decode | decodeSym => exact answerDecode_ne_fault _ s e
  | pstepIdleSof | pstepIdleNoise | pstepType | pstepCode | pstepLenHi | pstepArgs | pstepEofBad | pstepErrResync
  | pstepErrAbsorb =>
    dsimp only [exec]
    exact parserRow_ne_fault fun _ _ => by simp
  | estepIdleEmpty | estepOutSym | estepOutEnd =>
    dsimp only [exec]
    exact emitterRow_ne_fault fun _ _ => by simp
  | pstepLenLo y =>
    dsimp only [exec]
    refine parserRow_ne_fault fun q hc => ?_
    rw [← parserStep_of_lenLo (by simpa using hc)]
    exact parserStep_ne_fault (s := s.begin.setPhase q) hparser y e
  | pstepEofOk | pstepEofDecodeFail =>
    dsimp only [exec]
    refine parserRow_ne_fault fun q hc => ?_
    rw [← parserStep_of_eof (by simpa using (Bool.and_eq_true_iff.1 hc).1)]
    exact parserStep_ne_fault (s := s.begin.setPhase q) hparser 0 e
  | estepIdleStart =>
    dsimp only [exec, execEstepIdleStart, emitterTurn]
    refine inOrder_ne_fault fun q => ?_
    cases hq : s.queue with
    | nil => simp [hq]
    | cons f rest =>
      have hlength : f.args.length ≤ 255 := validFrame_length (hqueue.2 f (hq ▸ List.mem_cons_self))
      simp only [State.setPhase_queue, State.begin_queue, hq, emitterStart_of_length hlength]
      exact whenRow_ne_fault fun _ => by simp
  | pstep y => exact inOrder_ne_fault fun q => parserStep_ne_fault (s := s.begin.setPhase q) hparser y e
  | estep => exact inOrder_ne_fault fun q => emitterStep_ne_fault (s := s.begin.setPhase q) hqueue e
  | tick y acts => exact execTick_ne_fault h y acts e
  | enq f => exact withCandidate_ne_fault fun req => enqueue_ne_fault req s.begin e
  | reset | read | pack | unpack => exact nofun
  | encode op => exact withFrame_ne_fault fun f => by split <;> simp
  | txdg op => exact withFrame_ne_fault fun f => by split <;> simp
  | rxdg b =>
    rw [show exec (.rxdg b) s = execRxdg b s from rfl, execRxdg]
    split <;> simp

/-- Settles O52: a step performs an operation, waits or refuses, and no operation faults. -/
theorem noStepFaults : Obligations.NoStepFaults := by
  intro s e h
  unfold step
  split
  · simp [await]
  · exact exec_ne_fault (h.setOps _) _ e
  · simp

end Sys2Proof.Machine
end

section
/-! PROOFS. The rows of the parser and of the emitter (30_encoding.md R93, R94): what each does where its condition
holds, where it stops, and that PSTEP and ESTEP take the row their key names. -/

namespace Sys2Proof.Machine

/-! ## A row in the tick order and out of it -/

section
variable {s : State} {m : String} {c : State → Bool} {r : State → Result}

/-- In the tick order a parser row whose condition holds is its transition. -/
theorem parserTurn_row {p : TickPhase} (hp : phaseAfterPstep s.phase = some p) (hc : c (s.begin.setPhase p) = true) :
    parserTurn s (fun u => whenRow m (c u) (r u)) = r (s.begin.setPhase p) := by
  rw [parserTurn, inOrder_some hp, whenRow, hc, if_pos rfl]

theorem emitterTurn_row {p : TickPhase} (hp : phaseAfterEstep s.phase = some p) (hc : c (s.begin.setPhase p) = true) :
    emitterTurn s (fun u => whenRow m (c u) (r u)) = r (s.begin.setPhase p) := by
  rw [emitterTurn, inOrder_some hp, whenRow, hc, if_pos rfl]

/-- In the tick order a parser row whose condition does not hold is refused by its name (log 8). -/
theorem parserTurn_refused (hphase : s.phase ≠ .inside) (hc : ∀ p, c (s.begin.setPhase p) = false) :
    parserTurn s (fun u => whenRow m (c u) (r u)) = .refused (.rowNotSelected m) := by
  obtain ⟨p, hp⟩ := phaseAfterPstep_of_outside hphase
  rw [parserTurn, inOrder_some hp, whenRow, hc, if_neg Bool.false_ne_true]

theorem emitterTurn_refused (hphase : s.phase ≠ .between) (hc : ∀ p, c (s.begin.setPhase p) = false) :
    emitterTurn s (fun u => whenRow m (c u) (r u)) = .refused (.rowNotSelected m) := by
  obtain ⟨p, hp⟩ := phaseAfterEstep_of_due hphase
  rw [emitterTurn, inOrder_some hp, whenRow, hc, if_neg Bool.false_ne_true]

/-- A parser row whose condition holds does what PSTEP does where its transition is the parser's, in order or not. -/
theorem parserTurn_row_eq {y : Nib} (h : ∀ p, c (s.begin.setPhase p) = true ∧
    parserStep y (s.begin.setPhase p) = r (s.begin.setPhase p)) :
    exec (.pstep y) s = parserTurn s (fun u => whenRow m (c u) (r u)) := by
  have hpstep : exec (.pstep y) s = parserTurn s (parserStep y) := rfl
  rw [hpstep, parserTurn, parserTurn]
  cases phaseAfterPstep s.phase with
  | none => rfl
  | some p =>
    obtain ⟨hc, hr⟩ := h p
    rw [inOrder_some rfl, inOrder_some rfl, hr, whenRow, hc, if_pos rfl]

theorem emitterTurn_row_eq (h : ∀ p, c (s.begin.setPhase p) = true ∧
    emitterStep (s.begin.setPhase p) = r (s.begin.setPhase p)) :
    exec .estep s = emitterTurn s (fun u => whenRow m (c u) (r u)) := by
  have hestep : exec .estep s = emitterTurn s emitterStep := rfl
  rw [hestep, emitterTurn, emitterTurn]
  cases phaseAfterEstep s.phase with
  | none => rfl
  | some p =>
    obtain ⟨hc, hr⟩ := h p
    rw [inOrder_some rfl, inOrder_some rfl, hr, whenRow, hc, if_pos rfl]

end

/-- Inside a tick the parser has no move (60_exceptions.md R266). -/
theorem parserTurn_of_inside {s : State} (h : s.phase = .inside) (k : State → Result) :
    parserTurn s k = .refused .outOfTickOrder := by
  rw [parserTurn, h]
  rfl

theorem emitterTurn_of_between {s : State} (h : s.phase = .between) (k : State → Result) :
    emitterTurn s k = .refused .outOfTickOrder := by
  rw [emitterTurn, h]
  rfl

/-! ## The parser rows -/

/-- Settles O22: each row is its transition, which sets the registers named or none. -/
theorem sofStartsAndNoiseIsIgnored : Obligations.SofStartsAndNoiseIsIgnored := by
  intro s y p hp
  refine ⟨fun hs => ?_, fun hs hy => ?_, fun hs hy => ?_⟩
  · exact (parserTurn_row hp (by simp [hs]) : execPstepIdleSof s = _)
  · exact (parserTurn_row hp (by simp [hs, sof]; exact hy) : execPstepIdleNoise y s = _)
  · exact (parserTurn_row hp (by simp [hs, eof]; exact hy) : execPstepErrAbsorb y s = _)

/-- Settles O23: each row appends its symbol and advances. -/
theorem headerNibblesAreAppendedVerbatim : Obligations.HeaderNibblesAreAppendedVerbatim := by
  intro s y p hp
  refine ⟨fun hs => ?_, fun hs => ?_, fun hs => ?_⟩
  · exact (parserTurn_row hp (by simp [hs]) : execPstepType y s = _)
  · exact (parserTurn_row hp (by simp [hs]) : execPstepCode y s = _)
  · exact (parserTurn_row hp (by simp [hs]) : execPstepLenHi y s = _)

/-- Settles O24: the two length nibbles make a number of at most 255, so only 0 and the rest differ. -/
theorem lengthChoosesArgsOrEof : Obligations.LengthChoosesArgsOrEof := by
  intro s y hi p hp hs hhi
  have hrow : exec (.pstepLenLo y) s = parserLenLo y (s.begin.setPhase p) :=
    (parserTurn_row hp (by simp [hs]) : execPstepLenLo y s = _)
  refine ⟨fun h0 => ?_, fun h0 => ?_⟩
  · exact hrow.trans (parserLenLo_of_zero hhi h0)
  · exact hrow.trans (parserLenLo_of_pos hhi h0)

/-- Settles O25: the number of args read is below, at or above the declared length. -/
theorem argsAreCountedAgainstTheLength : Obligations.ArgsAreCountedAgainstTheLength := by
  intro s y p hp hs
  have hrow : exec (.pstepArgs y) s = .next (parserArgs y (s.begin.setPhase p)) :=
    (parserTurn_row hp (by simp [hs]) : execPstepArgs y s = _)
  refine ⟨fun h => ?_, fun h => ?_, fun h => ?_⟩
  · rw [hrow, parserArgs_of_more (s := s.begin.setPhase p) h, ← hs]
    rfl
  · rw [hrow, parserArgs_of_last (s := s.begin.setPhase p) h]
    rfl
  · rw [hrow, parserArgs_of_overrun (s := s.begin.setPhase p) h]
    rfl

theorem bufferDecodes_of_ok {s : State} {f : Frame} (h : decodeBuffer s.pbuf = some (.ok f)) :
    bufferDecodes s = true ∧ bufferFails s = false := by
  simp [bufferDecodes, bufferFails, h]

theorem bufferDecodes_of_error {s : State} {r : DecodeReason} (h : decodeBuffer s.pbuf = some (.error r)) :
    bufferDecodes s = false ∧ bufferFails s = true := by
  simp [bufferDecodes, bufferFails, h]

theorem bufferDecodes_of_none {s : State} (h : decodeBuffer s.pbuf = none) :
    bufferDecodes s = true ∧ bufferFails s = true := by
  simp [bufferDecodes, bufferFails, h]

/-- Settles O26: the buffer decodes, so the row commits the Frame. -/
theorem eofCommitsTheFrame : Obligations.EofCommitsTheFrame := by
  intro s p t c rest f hp hs hbuf hf
  have hdecode : decodeBuffer s.pbuf = some (.ok f) := (decodeBuffer_eq hbuf).trans (congrArg some hf)
  have hcondition : bufferDecodes (s.begin.setPhase p) = true := (bufferDecodes_of_ok hdecode).1
  have hrow : exec .pstepEofOk s = parserEof (s.begin.setPhase p) :=
    (parserTurn_row hp (by simp [hs, hcondition]) : execPstepEofOk s = _)
  exact hrow.trans (parserEof_of_ok hdecode)

/-- Settles O27: both rows enter ERROR with the buffer they found. -/
theorem badEofEntersError : Obligations.BadEofEntersError := by
  intro s p hp
  refine ⟨fun t c rest r hs hbuf hr => ?_, fun y hs hy => ?_⟩
  · have hdecode : decodeBuffer s.pbuf = some (.error r) := (decodeBuffer_eq hbuf).trans (congrArg some hr)
    have hcondition : bufferFails (s.begin.setPhase p) = true := (bufferDecodes_of_error hdecode).2
    have hrow : exec .pstepEofDecodeFail s = parserEof (s.begin.setPhase p) :=
      (parserTurn_row hp (by simp [hs, hcondition]) : execPstepEofDecodeFail s = _)
    exact hrow.trans (parserEof_of_error hdecode)
  · exact (parserTurn_row hp (by simp [hs, eof]; exact hy) : execPstepEofBad y s = _)

/-- Settles O28: the row is the return to IDLE. -/
theorem zeroResynchronises : Obligations.ZeroResynchronises := fun s _ hp hs =>
  (parserTurn_row hp (by simp [hs]) : execPstepErrResync s = _)

/-! ## PSTEP takes the row of its key -/

theorem parserKey_eq (s : State) (y : Nib) : parserKey s y = keyOf ((pstateCode s.pstate).setWidth 4) y := by
  cases h : s.pstate <;> simp [parserKey, keyOf, h, pstateCode]

/-- PSTEP and the row it selects do the same in every state, in the tick order or out of it (41_parser.md R165). -/
theorem exec_parserRow (s : State) (y : Nib) : exec (.pstep y) s = exec (parserRow s y) s := by
  unfold parserRow
  cases hs : s.pstate with
  | idle =>
    by_cases hy : y = 15
    · subst hy
      exact (parserTurn_row_eq fun p => ⟨by simp [hs], parserStep_of_idle_sof (s := s.begin.setPhase p) hs⟩ :
        _ = execPstepIdleSof s)
    · simp only [sof, hy, if_false]
      exact (parserTurn_row_eq fun p =>
        ⟨by simp [hs, sof]; exact hy,
          parserStep_of_idle_noise (s := s.begin.setPhase p) hs hy⟩ : _ = execPstepIdleNoise y s)
  | type =>
    exact (parserTurn_row_eq fun p => ⟨by simp [hs], parserStep_of_type (s := s.begin.setPhase p) hs y⟩ :
      _ = execPstepType y s)
  | code =>
    exact (parserTurn_row_eq fun p => ⟨by simp [hs], parserStep_of_code (s := s.begin.setPhase p) hs y⟩ :
      _ = execPstepCode y s)
  | lenHi =>
    exact (parserTurn_row_eq fun p => ⟨by simp [hs], parserStep_of_lenHi (s := s.begin.setPhase p) hs y⟩ :
      _ = execPstepLenHi y s)
  | lenLo =>
    exact (parserTurn_row_eq fun p => ⟨by simp [hs], parserStep_of_lenLo (s := s.begin.setPhase p) hs y⟩ :
      _ = execPstepLenLo y s)
  | args =>
    exact (parserTurn_row_eq fun p => ⟨by simp [hs], parserStep_of_args (s := s.begin.setPhase p) hs y⟩ :
      _ = execPstepArgs y s)
  | expectEof =>
    by_cases hy : y = 0
    · subst hy
      have heof (p : TickPhase) := parserStep_of_eof (s := s.begin.setPhase p) hs
      simp only [eof, if_true]
      cases hd : decodeBuffer s.pbuf with
      | none =>
        have hb (p : TickPhase) := (bufferDecodes_of_none (s := s.begin.setPhase p) hd).1
        exact (parserTurn_row_eq fun p => ⟨by simp [hs, hb], heof p⟩ : _ = execPstepEofOk s)
      | some r =>
        cases r with
        | ok f =>
          have hb (p : TickPhase) := (bufferDecodes_of_ok (s := s.begin.setPhase p) hd).1
          exact (parserTurn_row_eq fun p => ⟨by simp [hs, hb], heof p⟩ : _ = execPstepEofOk s)
        | error e =>
          have hb (p : TickPhase) := (bufferDecodes_of_error (s := s.begin.setPhase p) hd).2
          exact (parserTurn_row_eq fun p => ⟨by simp [hs, hb], heof p⟩ : _ = execPstepEofDecodeFail s)
    · simp only [eof, hy, if_false]
      exact (parserTurn_row_eq fun p =>
        ⟨by simp [hs, eof]; exact hy, parserStep_of_eof_bad (s := s.begin.setPhase p) hs hy⟩ : _ = execPstepEofBad y s)
  | error =>
    by_cases hy : y = 0
    · subst hy
      exact (parserTurn_row_eq fun p => ⟨by simp [hs], parserStep_of_error_zero (s := s.begin.setPhase p) hs⟩ :
        _ = execPstepErrResync s)
    · simp only [eof, hy, if_false]
      exact (parserTurn_row_eq fun p =>
        ⟨by simp [hs, eof]; exact hy,
          parserStep_of_error_absorb (s := s.begin.setPhase p) hs hy⟩ : _ = execPstepErrAbsorb y s)

/-- The row PSTEP selects is the row of its key; only a failed decode at EOF has a row without a key (log 2). -/
theorem parserKeyRow_parserKey (s : State) (y : Nib) :
    (parserRow s y ≠ .pstepEofDecodeFail → parserKeyRow (parserKey s y) = .ok (parserRow s y)) ∧
    (parserRow s y = .pstepEofDecodeFail → parserKey s y = keyOf 6 0) := by
  rw [parserKey_eq]
  unfold parserRow
  cases s.pstate with
  | idle => exact ⟨fun _ => parserKeyRow_idle y, by dsimp only; split <;> nofun⟩
  | type => exact ⟨fun _ => parserKeyRow_type y, nofun⟩
  | code => exact ⟨fun _ => parserKeyRow_code y, nofun⟩
  | lenHi => exact ⟨fun _ => parserKeyRow_lenHi y, nofun⟩
  | lenLo => exact ⟨fun _ => parserKeyRow_lenLo y, nofun⟩
  | args => exact ⟨fun _ => parserKeyRow_args y, nofun⟩
  | expectEof =>
    by_cases hy : y = 0
    · subst hy
      simp only [eof, if_true]
      split
      · exact ⟨fun h => absurd rfl h, fun _ => rfl⟩
      · exact ⟨fun _ => parserKeyRow_expectEof 0, nofun⟩
    · simp only [eof, hy, if_false]
      exact ⟨fun _ => (parserKeyRow_expectEof y).trans (by rw [if_neg hy]), nofun⟩
  | error => exact ⟨fun _ => parserKeyRow_error y, by dsimp only; split <;> nofun⟩

/-- Settles O29: the selected row is PSTEP's transition, and its key is the state's code and the symbol. -/
theorem pstepTakesItsRow : Obligations.PstepTakesItsRow := by
  intro s y rest
  obtain ⟨hkey, hfail⟩ := parserKeyRow_parserKey s y
  refine ⟨exec_parserRow s y, fun h => decode_parserKey (hkey h) rest, fun h => ?_⟩
  rw [hfail h]
  exact ⟨decode_parserKey (parserKeyRow_expectEof 0) rest, rfl⟩

/-! ## ESTEP takes the row of its key -/

theorem exec_emitterRow (s : State) : exec .estep s = exec (emitterRow s) s := by
  unfold emitterRow
  cases he : s.estate with
  | idle =>
    cases hq : s.queue with
    | nil =>
      exact (emitterTurn_row_eq fun p => ⟨by simp [he, hq], emitterStep_idle (s := s.begin.setPhase p) he hq⟩ :
        _ = execEstepIdleEmpty s)
    | cons f q =>
      have hstart : execEstepIdleStart s = emitterTurn s fun u =>
          whenRow "ESTEP_IDLE_START" (u.estate == .idle) (emitterStart f q u) := by
        rw [execEstepIdleStart, emitterTurn, emitterTurn]
        cases phaseAfterEstep s.phase with
        | none => rfl
        | some p => simp only [inOrder, State.setPhase_queue, State.begin_queue, hq]
      refine Eq.trans ?_ hstart.symm
      exact emitterTurn_row_eq fun p => ⟨by simp [he], by simp only [emitterStep, State.setPhase_estate,
        State.begin_estate, State.setPhase_queue, State.begin_queue, he, hq]⟩
  | outputting =>
    cases hl : symbolsLeft s with
    | true =>
      exact (emitterTurn_row_eq fun p => ⟨by simp [he, hl], emitterStep_symbol (s := s.begin.setPhase p) he hl⟩ :
        _ = execEstepOutSym s)
    | false =>
      exact (emitterTurn_row_eq fun p => ⟨by simp [he, hl], emitterStep_end (s := s.begin.setPhase p) he hl⟩ :
        _ = execEstepOutEnd s)

/-- The row ESTEP selects is the row of its key `e << 2 | n << 1 | p` (30_encoding.md R94). -/
theorem emitterKeyRow_emitterKey (s : State) : emitterKeyRow (emitterKey s) = .ok (emitterRow s) := by
  unfold emitterKey emitterRow
  cases s.estate <;> cases s.queue.isEmpty <;> cases symbolsLeft s <;> rfl

/-- Settles O37: the selected row is ESTEP's transition, and the key's three bits select it. -/
theorem estepTakesItsRow : Obligations.EstepTakesItsRow := fun s rest =>
  ⟨exec_emitterRow s, decode_emitterKey (emitterKeyRow_emitterKey s) rest⟩

/-! ## The emitter rows -/

/-- A head frame in the queue: ESTEP_IDLE_START in the tick order (42_emitter.md R181). -/
theorem exec_estepIdleStart {s : State} {p : TickPhase} {f : Frame} {q : List Frame}
    (hp : phaseAfterEstep s.phase = some p) (he : s.estate = .idle) (hq : s.queue = f :: q) :
    exec .estepIdleStart s = emitterStart f q (s.begin.setPhase p) ∧
    exec .estep s = emitterStart f q (s.begin.setPhase p) := by
  have hestep : exec .estep s = emitterStart f q (s.begin.setPhase p) := by
    rw [exec_estep hp]
    simp only [emitterStep, State.setPhase_estate, State.begin_estate, State.setPhase_queue, State.begin_queue, he, hq]
  have hrow : emitterRow s = .estepIdleStart := by simp [emitterRow, he, hq]
  exact ⟨by rw [← hrow, ← exec_emitterRow, hestep], hestep⟩

/-- Settles O35: an empty queue idles, a head frame starts, and one that cannot be encoded is the fault. -/
theorem idleEmitterStartsTheHeadFrame : Obligations.IdleEmitterStartsTheHeadFrame := by
  intro s p hp he
  refine ⟨fun hq => ?_, fun f q hq hl => ?_, fun f q hq hl => ?_⟩
  · exact (emitterTurn_row hp (by simp [he, hq]) : execEstepIdleEmpty s = _)
  · rw [(exec_estepIdleStart hp he hq).1, emitterStart_of_length hl, frameSymbols_eq]
    rfl
  · have hfault : emitterStart f q (s.begin.setPhase p) = .fault .emitterEncodeFailure := by
      simp only [emitterStart, encodeFrame_of_tooLong hl]
    obtain ⟨hrow, hestep⟩ := exec_estepIdleStart hp he hq
    exact ⟨hrow.trans hfault, hestep.trans hfault⟩

/-- Settles O36: a symbol at the position is emitted, and past the last one the frame ends. -/
theorem outputtingEmitterEmitsThenEnds : Obligations.OutputtingEmitterEmitsThenEnds := by
  intro s p hp he
  refine ⟨fun y hy => ?_, fun hl => ?_⟩
  · obtain ⟨hlt, -⟩ := List.getElem?_eq_some_iff.1 hy
    have hsymbol : s.esyms.getD s.epos.toNat 0 = y := by simp [List.getD, hy]
    have hrow : exec .estepOutSym s = .next (emitterSymbol (s.begin.setPhase p)) :=
      (emitterTurn_row hp (by simp [he, symbolsLeft_iff.2 hlt]) : execEstepOutSym s = _)
    rw [hrow, ← hsymbol]
    rfl
  · have hleft : symbolsLeft s = false := by simpa [symbolsLeft] using hl
    exact (emitterTurn_row hp (by simp [he, hleft]) : execEstepOutEnd s = _)

/-! ## Where rows stop -/

/-- The parser's operations have no move inside a tick (60_exceptions.md R266, D25). -/
theorem exec_parserOp_of_inside {s : State} {i : Instr} (h : s.phase = .inside) (hi : parserOp i = true) :
    exec i s = .refused .outOfTickOrder := by
  cases i with
  | pstep | pstepIdleSof | pstepIdleNoise | pstepType | pstepCode | pstepLenHi | pstepLenLo | pstepArgs | pstepEofOk
  | pstepEofDecodeFail | pstepEofBad | pstepErrResync | pstepErrAbsorb =>
    dsimp only [exec]
    exact parserTurn_of_inside h _
  | _ => simp [parserOp] at hi

/-- The emitter's operations have no move between ticks (60_exceptions.md R266, D25). -/
theorem exec_emitterOp_of_between {s : State} {i : Instr} (h : s.phase = .between) (hi : emitterOp i = true) :
    exec i s = .refused .outOfTickOrder := by
  cases i with
  | estep | estepIdleEmpty | estepIdleStart | estepOutSym | estepOutEnd =>
    dsimp only [exec]
    exact emitterTurn_of_between h _
  | _ => simp [emitterOp] at hi

/-- A row's condition on a state and a symbol fails where one half does. -/
theorem rowCondition_false {α β : Type} [BEq α] [LawfulBEq α] [BEq β] [LawfulBEq β] {a x : α} {b z : β}
    (h : a ≠ x ∨ b = z) :
    (a == x && b != z) = false := by
  obtain h | h := h <;> simp [h]

/-- ESTEP_IDLE_START names no step where the emitter is not IDLE or nothing is queued (42_emitter.md R181, log 8). -/
theorem exec_estepIdleStart_refused {s : State} (h : s.phase ≠ .between) (hs : s.estate ≠ .idle ∨ s.queue = []) :
    exec .estepIdleStart s = .refused (.rowNotSelected "ESTEP_IDLE_START") := by
  obtain ⟨p, hp⟩ := phaseAfterEstep_of_due h
  rw [show exec .estepIdleStart s = execEstepIdleStart s from rfl, execEstepIdleStart, emitterTurn, inOrder_some hp]
  cases hq : s.queue with
  | nil => simp [hq]
  | cons f q =>
    have he : (s.estate == .idle) = false := by simpa [hq] using hs
    simp [hq, he, whenRow]

/-- Settles O31: out of the tick order there is no move; in it a row's condition fails, or the buffer is too short. -/
theorem rowsStopOutsideTheirCondition : Obligations.RowsStopOutsideTheirCondition := by
  intro s y
  refine ⟨fun h => ⟨fun i hi => exec_parserOp_of_inside h hi, fun acts => ?_⟩,
    fun h i hi => exec_emitterOp_of_between h hi,
    fun h => ?_, fun h => ?_⟩
  · rw [show exec (.tick y acts) s = execTick y acts s from rfl, execTick, h]
    rfl
  · obtain ⟨p, hp⟩ := phaseAfterPstep_of_outside h
    refine ⟨fun hs => (parserTurn_refused h fun _ => beq_false_of_ne hs : execPstepIdleSof s = _),
      fun hs => (parserTurn_refused h fun _ => rowCondition_false hs : execPstepIdleNoise y s = _),
      fun hs => (parserTurn_refused h fun _ => beq_false_of_ne hs : execPstepType y s = _),
      fun hs => (parserTurn_refused h fun _ => beq_false_of_ne hs : execPstepCode y s = _),
      fun hs => (parserTurn_refused h fun _ => beq_false_of_ne hs : execPstepLenHi y s = _),
      fun hs => (parserTurn_refused h fun _ => beq_false_of_ne hs : execPstepLenLo y s = _),
      fun hs => (parserTurn_refused h fun _ => beq_false_of_ne hs : execPstepArgs y s = _),
      fun hs => (parserTurn_refused h fun _ => by simp [hs] : execPstepEofOk s = _),
      fun hs => (parserTurn_refused h fun _ => by simp [hs] : execPstepEofDecodeFail s = _),
      fun r hd => ?_, fun f hd => ?_,
      fun hs => (parserTurn_refused h fun _ => rowCondition_false hs : execPstepEofBad y s = _),
      fun hs => (parserTurn_refused h fun _ => beq_false_of_ne hs : execPstepErrResync s = _),
      fun hs => (parserTurn_refused h fun _ => rowCondition_false hs : execPstepErrAbsorb y s = _),
      fun hs hl => ?_, fun hs hl => ?_⟩
    · have hb (p : TickPhase) := (bufferDecodes_of_error (s := s.begin.setPhase p) hd).1
      exact (parserTurn_refused h fun p => by simp [hb p] : execPstepEofOk s = _)
    · have hb (p : TickPhase) := (bufferDecodes_of_ok (s := s.begin.setPhase p) hd).2
      exact (parserTurn_refused h fun p => by simp [hb p] : execPstepEofDecodeFail s = _)
    · exact (parserTurn_row hp (beq_iff_eq.2 hs) : execPstepLenLo y s = _).trans (parserLenLo_of_short hl)
    · have hd : decodeBuffer s.pbuf = none := decodeBuffer_of_short hl
      obtain ⟨hdecodes, hfails⟩ := bufferDecodes_of_none (s := s.begin.setPhase p) hd
      exact ⟨(parserTurn_row hp (by simp [hs, hdecodes]) : execPstepEofOk s = _).trans (parserEof_of_none hd),
        (parserTurn_row hp (by simp [hs, hfails]) : execPstepEofDecodeFail s = _).trans (parserEof_of_none hd)⟩
  · refine ⟨fun hs => (emitterTurn_refused h fun _ => ?_ : execEstepIdleEmpty s = _), exec_estepIdleStart_refused h,
      fun hs => (emitterTurn_refused h fun _ => ?_ : execEstepOutSym s = _),
      fun hs => (emitterTurn_refused h fun _ => ?_ : execEstepOutEnd s = _)⟩
    · obtain hs | hs := hs <;> simp [hs]
    · obtain hs | hs := hs
      · simp [hs]
      · simp [symbolsLeft, Nat.not_lt.2 hs]
    · obtain hs | hs := hs
      · simp [hs]
      · simp [symbolsLeft, hs]

end Sys2Proof.Machine
end

section
/-! PROOFS. The control operations (43_queue_and_control.md), what each operation leaves unchanged, and one step of the
machine. -/

namespace Sys2Proof.Machine

/-! ## ENQ, RESET and READ -/

/-- A Frame meets a full queue: it is dropped (43_queue_and_control.md R202). -/
theorem enqueue_frame_of_full {f : Frame} {s : State} (hvalid : validFrame f = true)
    (hfull : queueCap ≤ s.queue.length) :
    enqueue (some f) s = .next (s.drop .ovQueueFull) := by
  have hcandidate : validCandidate f = true := candidate_of_valid hvalid
  have hlength : ¬ maxArgs < f.args.length := Nat.not_lt.2 (validFrame_length hvalid)
  simp [enqueue, hcandidate, hlength, hfull]

theorem enqueue_of_tooLong {f : Frame} {s : State} (hcandidate : validCandidate f = true)
    (hlong : maxArgs < f.args.length) :
    enqueue (some f) s = .next (s.drop .ovTooLong) := by
  simp [enqueue, hcandidate, hlong]

theorem enqueue_of_malformed {f : Frame} (s : State) (h : validCandidate f = false) :
    enqueue (some f) s = .refused .malformedCandidate := by
  simp [enqueue, h]

/-- Settles O41: the Frame passes the checks on a candidate and meets the full queue. -/
theorem fullQueueDropsAFrame : Obligations.FullQueueDropsAFrame := by
  intro s op f hop hvalid hfull
  rw [exec_enq_of_ok s hop]
  exact enqueue_frame_of_full (s := s.begin) hvalid hfull.ge

/-- Settles O42: the check of the candidate comes first, then its length, before the queue is looked at. -/
theorem overlongAndMalformedCandidates : Obligations.OverlongAndMalformedCandidates := by
  intro s op f hop
  rw [exec_enq_of_ok s hop]
  exact ⟨fun hcandidate hlong => enqueue_of_tooLong (s := s.begin) hcandidate hlong, enqueue_of_malformed s.begin⟩

/-- Settles O44: RESET is the state after power-on but for the fields that are no registers. -/
theorem resetClearsTheBlock : Obligations.ResetClearsTheBlock := fun _ => rfl

theorem readFlags_toNat (f : BitVec 4) : (readFlags f).toNat = f.toNat % 4 := by
  revert f
  decide

/-- Settles O45: each selector reads its register, and the flags are masked. -/
theorem readAnswersTheCounters : Obligations.ReadAnswersTheCounters := by
  intro s
  refine ⟨rfl, rfl, rfl, rfl, rfl, ?_⟩
  rw [← readFlags_toNat]
  rfl

/-- ENQs of Frames, as many as the queue has room for, append them in order (43_queue_and_control.md R204). -/
theorem runOps_enq_of_room {ops : List FrameOp} {fs : List Frame} {s : State} (hops : ops.map evalFrameOp = fs.map .ok)
    (hvalid : ∀ f ∈ fs, validFrame f = true) (hroom : s.queue.length + fs.length ≤ queueCap) :
    ∃ t, runOps (ops.map fun o => .enq (some o)) s = some (t, List.replicate fs.length [.enqOk true]) ∧
      t.queue = s.queue ++ fs ∧ t.overflowDrops = s.overflowDrops ∧ t.cfg = s.cfg := by
  induction ops generalizing fs s with
  | nil =>
    obtain rfl : fs = [] := by simpa using hops.symm
    exact ⟨s, rfl, by simp⟩
  | cons op ops ih =>
    obtain ⟨f, gs, rfl⟩ : ∃ f gs, fs = f :: gs := by cases fs <;> simp_all
    obtain ⟨hop, hops⟩ : evalFrameOp op = .ok f ∧ ops.map evalFrameOp = gs.map .ok := by simpa using hops
    rw [List.length_cons] at hroom
    have hfirst : exec (.enq (some op)) s = .next ((s.begin.push f).drive (.enqOk true)) := by
      rw [exec_enq_of_ok s hop]
      exact enqueue_frame_of_room (s := s.begin) (hvalid f List.mem_cons_self) (by rw [State.begin_queue]; omega)
    have hqueue : ((s.begin.push f).drive (.enqOk true)).queue = s.queue ++ [f] := rfl
    obtain ⟨t, hrun, htqueue, htdrops, htcfg⟩ := ih (s := (s.begin.push f).drive (.enqOk true)) hops
      (fun g hg => hvalid g (List.mem_cons_of_mem f hg))
      (by rw [hqueue, List.length_append, List.length_singleton]; omega)
    refine ⟨t, runOps_cons hfirst hrun, ?_, htdrops, htcfg⟩
    rw [htqueue, hqueue, List.append_assoc, List.singleton_append]

/-- Settles O43: 64 ENQs fill the queue, and the next meets it full. -/
theorem sixtyFourFramesFillTheQueue : Obligations.SixtyFourFramesFillTheQueue := by
  intro ops fs op f s hops hvalid hlength hop hf hempty
  obtain ⟨t, hrun, hqueue, hdrops, hcfg⟩ := runOps_enq_of_room hops hvalid (s := s) (by rw [hempty, hlength]; decide)
  rw [hempty, List.nil_append] at hqueue
  have hlast : exec (.enq (some op)) t = .next (t.begin.drop .ovQueueFull) := by
    rw [exec_enq_of_ok t hop]
    exact enqueue_frame_of_full (s := t.begin) hf (by rw [State.begin_queue, hqueue, hlength]; decide)
  refine ⟨t.begin.drop .ovQueueFull, ?_, hqueue, ?_, (setFlag_overflow_bits t.eflags).1⟩
  · rw [List.map_append, ← hlength]
    exact runOps_append hrun (runOps_cons hlast (runOps_nil _))
  · rw [← hdrops, ← hcfg]
    rfl

/-! ## One step -/

/-- Settles O60: the three cases of what the host presents. -/
theorem stepRunsTheDecodedOperation : Obligations.StepRunsTheDecodedOperation := by
  intro s
  refine ⟨fun i rest h => ?_, fun h => ?_, fun r hne h => ?_⟩
  · cases hops : s.ops with
    | nil => simp [hops, decode] at h
    | cons b bs =>
      rw [hops] at h
      simp only [step, fetch, hops, h]
      rfl
  · have hfetch : fetch s = .waiting := by simp only [fetch, h]
    rw [step, hfetch]
    rfl
  · cases hops : s.ops with
    | nil => exact absurd hops hne
    | cons b bs =>
      rw [hops] at h
      simp only [step, fetch, hops, h]

/-! ## What operations leave unchanged -/

/-- Settles O53: a pure operation or READ answers a state that differs in the record of outputs and events alone. -/
theorem pureOperationsChangeNoState : Obligations.PureOperationsChangeNoState := by
  intro i s t hi ht
  obtain ⟨o, e, rfl⟩ := readsOnly_next hi ht
  rfl

/-- ENQ leaves the parser, the emitter and the other counters alone (43_queue_and_control.md R200 to R205). -/
theorem enqueue_frame {req : Option Frame} {s t : State} (h : enqueue req s = .next t) :
    t.pstate = s.pstate ∧ t.pbuf = s.pbuf ∧ t.pexp = s.pexp ∧ t.estate = s.estate ∧ t.esyms = s.esyms ∧
    t.epos = s.epos ∧ t.framesParsed = s.framesParsed ∧ t.framingErrors = s.framingErrors ∧
    t.framesEmitted = s.framesEmitted ∧ t.cfg = s.cfg ∧ t.ops = s.ops ∧ t.phase = s.phase := by
  obtain ⟨-, rfl⟩ | ⟨f, -, -, -, rfl⟩ | ⟨f, -, -, -, rfl⟩ | ⟨f, -, -, -, rfl⟩ := enqueue_cases h <;>
    simp [State.drop, State.push]

theorem execTick_frame {y : Nib} {acts : List HostAct} {s t : State} (h : execTick y acts s = .next t) :
    t.cfg = s.cfg ∧ t.ops = s.ops := by
  refine execTick_keeps (P := fun t => t.cfg = s.cfg ∧ t.ops = s.ops) ?_ ?_ ?_ h ⟨rfl, rfl⟩
  · rintro u v hv ⟨hcfg, hops⟩
    obtain ⟨-, -, -, -, -, -, hcfg', -, hops'⟩ := parserStep_frame hv
    exact ⟨hcfg'.trans hcfg, hops'.trans hops⟩
  · rintro a - u v hv ⟨hcfg, hops⟩
    obtain ⟨hcfg', hops', -⟩ := runAct_frame hv
    exact ⟨hcfg'.trans hcfg, hops'.trans hops⟩
  · rintro u v hv ⟨hcfg, hops⟩
    obtain ⟨-, -, -, -, -, -, -, hcfg', -, hops'⟩ := emitterStep_frame hv
    exact ⟨hcfg'.trans hcfg, hops'.trans hops⟩

/-- No operation writes a launch field or the host's later records (70_reset_and_hazards.md R283, log 1). -/
theorem exec_frame {i : Instr} {s t : State} (h : exec i s = .next t) : t.cfg = s.cfg ∧ t.ops = s.ops := by
  obtain ⟨-, o, e, rfl⟩ | ⟨-, y, p, -, -, h⟩ | ⟨-, p, -, h⟩ | ⟨y, acts, -, h⟩ | ⟨f, req, -, h⟩ | ⟨-, rfl⟩ :=
    exec_cases h
  · exact ⟨rfl, rfl⟩
  · obtain ⟨-, -, -, -, -, -, hcfg, -, hops⟩ := parserStep_frame h
    exact ⟨hcfg, hops⟩
  · obtain ⟨-, -, -, -, -, -, -, hcfg, -, hops⟩ := emitterStep_frame h
    exact ⟨hcfg, hops⟩
  · exact execTick_frame h
  · obtain ⟨-, -, -, -, -, -, -, -, -, hcfg, hops, -⟩ := enqueue_frame h
    exact ⟨hcfg, hops⟩
  · exact ⟨rfl, rfl⟩

/-- Only the operations of the tick move the host's place in it (log 7). -/
theorem exec_phase {i : Instr} {s t : State} (h : exec i s = .next t) (hp : parserOp i = false)
    (he : emitterOp i = false) (hi : ∀ y acts, i ≠ .tick y acts) : t.phase = s.phase := by
  obtain ⟨-, o, e, rfl⟩ | ⟨hp', -⟩ | ⟨he', -⟩ | ⟨y, acts, hi', -⟩ | ⟨f, req, -, h⟩ | ⟨-, rfl⟩ := exec_cases h
  · rfl
  · simp [hp] at hp'
  · simp [he] at he'
  · exact absurd hi' (hi y acts)
  · obtain ⟨-, -, -, -, -, -, -, -, -, -, -, hphase⟩ := enqueue_frame h
    exact hphase
  · rfl

/-- Settles O54: each operation is a step of its part, and the part's frame says what it leaves alone. -/
theorem eachPartLeavesTheOthersAlone : Obligations.EachPartLeavesTheOthersAlone := by
  intro i s t h
  obtain ⟨hcfg, hops⟩ := exec_frame h
  refine ⟨hcfg, hops, fun hi => ?_, fun hi => ?_, ?_, ?_, exec_phase h⟩
  · obtain ⟨y, p, -, hp, hstep⟩ := parserStep_of_row hi h
    obtain ⟨he, hs, hpos, hq, hemitted, hdrops, -, hphase, -⟩ := parserStep_frame hstep
    exact ⟨he, hs, hpos, hq, hemitted, hdrops, by rw [hphase]; exact hp⟩
  · obtain ⟨p, hp, hstep⟩ := emitterStep_of_row hi h
    obtain ⟨hps, hb, hx, hparsed, herrors, hdrops, hflags, -, hphase, -⟩ := emitterStep_frame hstep
    exact ⟨hps, hb, hx, hparsed, herrors, hdrops, hflags, by rw [hphase]; exact hp⟩
  · rintro f rfl
    obtain ⟨req, hreq⟩ := withCandidate_next (show withCandidate f (fun req => enqueue req s.begin) = _ from h)
    obtain ⟨hps, hb, hx, he, hs, hpos, hparsed, herrors, hemitted, -⟩ := enqueue_frame hreq
    exact ⟨hps, hb, hx, he, hs, hpos, hparsed, herrors, hemitted⟩
  · rintro y acts rfl
    exact ⟨(execTick_next_iff.1 h).1, execTick_phase h⟩

/-! ## Sticky flags -/

/-- Both error flags, where set in `s`, are set in `t` (10_state.md R32). -/
def FlagsKept (s t : State) : Prop :=
  (s.eflags.getLsbD 0 = true → t.eflags.getLsbD 0 = true) ∧ (s.eflags.getLsbD 1 = true → t.eflags.getLsbD 1 = true)

theorem FlagsKept.of_eq {s t : State} (h : t.eflags = s.eflags) : FlagsKept s t := by
  simp [FlagsKept, h]

theorem FlagsKept.trans {s t u : State} (h : FlagsKept s t) (h' : FlagsKept t u) : FlagsKept s u :=
  ⟨fun hb => h'.1 (h.1 hb), fun hb => h'.2 (h.2 hb)⟩

theorem FlagsKept.countFramingError (s : State) : FlagsKept s s.countFramingError :=
  ⟨fun hb => (setFlag_framing_bits s.eflags).2.trans hb, fun _ => (setFlag_framing_bits s.eflags).1⟩

theorem FlagsKept.countDrop (s : State) : FlagsKept s s.countDrop :=
  ⟨fun _ => (setFlag_overflow_bits s.eflags).1, fun hb => (setFlag_overflow_bits s.eflags).2.trans hb⟩

theorem parserStep_keeps_flags {y : Nib} {s t : State} (h : parserStep y s = .next t) : FlagsKept s t := by
  obtain ⟨p, b, n, rfl⟩ | rfl | ⟨e, b, -, -, rfl⟩ | ⟨f, -, rfl⟩ := parserStep_cases h
  · exact .of_eq rfl
  · exact .of_eq rfl
  · exact FlagsKept.countFramingError (s.setParser .error b s.pexp)
  · exact .of_eq rfl

theorem enqueue_keeps_flags {req : Option Frame} {s t : State} (h : enqueue req s = .next t) : FlagsKept s t := by
  obtain ⟨-, rfl⟩ | ⟨f, -, -, -, rfl⟩ | ⟨f, -, -, -, rfl⟩ | ⟨f, -, -, -, rfl⟩ := enqueue_cases h
  · exact .of_eq rfl
  · exact .countDrop s
  · exact .countDrop s
  · exact .of_eq rfl

theorem runAct_keeps_flags {a : HostAct} {s t : State} (ha : a ≠ .reset) (h : runAct a s = .next t) :
    FlagsKept s t := by
  obtain ⟨req, h⟩ | ⟨rfl, -⟩ | ⟨sel, rfl⟩ := runAct_cases h
  · exact enqueue_keeps_flags h
  · exact absurd rfl ha
  · exact .of_eq rfl

theorem emitterStep_keeps_flags {s t : State} (h : emitterStep s = .next t) : FlagsKept s t := by
  obtain ⟨-, -, -, -, -, -, hflags, -⟩ := emitterStep_frame h
  exact .of_eq hflags

/-- The actions of a TICK that performs no RESET hold none. -/
theorem ne_reset_of_mem_tickActs {y : Nib} {acts : List HostAct} {s : State} (h : mayReset s (.tick y acts) = false)
    {a : HostAct} (ha : a ∈ tickActs s y acts) : a ≠ .reset := by
  rintro rfl
  simp [mayReset, ha] at h

/-- Settles O55: flags are only ever set, by a framing error or a drop; RESET alone clears them. -/
theorem errorFlagsAreSticky : Obligations.ErrorFlagsAreSticky := by
  intro i s t hr ht
  obtain ⟨-, o, e, rfl⟩ | ⟨-, y, p, -, -, ht⟩ | ⟨-, p, -, ht⟩ | ⟨y, acts, rfl, ht⟩ | ⟨f, req, -, ht⟩ | ⟨rfl, -⟩ :=
    exec_cases ht
  · exact FlagsKept.of_eq rfl
  · exact (parserStep_keeps_flags ht : FlagsKept (s.begin.setPhase p) t)
  · exact (emitterStep_keeps_flags ht : FlagsKept (s.begin.setPhase p) t)
  · exact execTick_keeps (P := FlagsKept s) (fun _ _ h hs => hs.trans (parserStep_keeps_flags h))
      (fun _ ha _ _ h hs => hs.trans (runAct_keeps_flags (ne_reset_of_mem_tickActs hr ha) h))
      (fun _ _ h hs => hs.trans (emitterStep_keeps_flags h)) ht (.of_eq rfl)
  · exact (enqueue_keeps_flags ht : FlagsKept s.begin t)
  · simp [mayReset] at hr

/-! ## Counters -/

/-- The output carries `ferr` 1. -/
def drivesFerr : PortOut → Bool
  | .pstep _ e => e
  | _ => false

/-- The output carries `edone` 1. -/
def drivesEdone : PortOut → Bool
  | .estep _ d => d
  | _ => false

def isOverflow (e : Event) : Bool := e == .ovTooLong || e == .ovQueueFull

/-- From `s` on, each counter of `t` advanced once per event that `t` records, the launch fields being those of `s`. -/
structure Counted (s t : State) : Prop where
  cfg : t.cfg = s.cfg
  parsed : t.framesParsed = (ctrInc s.cfg.ctrW)^[(commits [t.out]).length] s.framesParsed
  errors : t.framingErrors = (ctrInc s.cfg.ctrW)^[t.out.countP drivesFerr] s.framingErrors
  emitted : t.framesEmitted = (ctrInc s.cfg.ctrW)^[t.out.countP drivesEdone] s.framesEmitted
  drops : t.overflowDrops = (ctrInc s.cfg.ctrW)^[t.events.countP isOverflow] s.overflowDrops

/-- An operation that begins has counted nothing yet. -/
theorem Counted.begin (s : State) (p : TickPhase) : Counted s (s.begin.setPhase p) := ⟨rfl, rfl, rfl, rfl, rfl⟩

/-- One more output and one more event, each with the count it stands for. -/
theorem Counted.step {s t u : State} (h : Counted s t) {o : PortOut} {es : List Event} (hout : u.out = t.out ++ [o])
    (hevents : u.events = t.events ++ es) (hcfg : u.cfg = t.cfg)
    (hparsed : u.framesParsed = (ctrInc t.cfg.ctrW)^[(committedFrame o).toList.length] t.framesParsed)
    (herrors : u.framingErrors = (ctrInc t.cfg.ctrW)^[[o].countP drivesFerr] t.framingErrors)
    (hemitted : u.framesEmitted = (ctrInc t.cfg.ctrW)^[[o].countP drivesEdone] t.framesEmitted)
    (hdrops : u.overflowDrops = (ctrInc t.cfg.ctrW)^[es.countP isOverflow] t.overflowDrops) : Counted s u := by
  obtain ⟨hc, hp, he, hm, hd⟩ := h
  refine ⟨hcfg.trans hc, ?_, ?_, ?_, ?_⟩
  · rw [hparsed, hp, hc, hout, commits_snoc, List.length_append, Nat.add_comm, Function.iterate_add_apply]
  · rw [herrors, he, hc, hout, List.countP_append, Nat.add_comm, Function.iterate_add_apply]
  · rw [hemitted, hm, hc, hout, List.countP_append, Nat.add_comm, Function.iterate_add_apply]
  · rw [hdrops, hd, hc, hevents, List.countP_append, Nat.add_comm, Function.iterate_add_apply]

theorem Counted.parserStep {s t u : State} {y : Nib} (h : Counted s t) (hu : parserStep y t = .next u) :
    Counted s u := by
  obtain ⟨p, b, n, rfl⟩ | rfl | ⟨e, b, hlong, hfull, rfl⟩ | ⟨f, -, rfl⟩ := parserStep_cases hu
  · exact h.step (o := .pstep none false) (es := []) rfl (List.append_nil _).symm rfl rfl rfl rfl rfl
  · exact h.step (o := .pstep none false) (es := []) rfl (List.append_nil _).symm rfl rfl rfl rfl rfl
  · have hnone : [e].countP isOverflow = 0 := by simp [isOverflow, hlong, hfull]
    exact h.step (o := .pstep none true) (es := [e]) rfl rfl rfl rfl rfl rfl (by rw [hnone]; rfl)
  · exact h.step (o := .pstep (some f) false) (es := []) rfl (List.append_nil _).symm rfl rfl rfl rfl rfl

theorem Counted.enqueue {s t u : State} {req : Option Frame} (h : Counted s t) (hu : enqueue req t = .next u) :
    Counted s u := by
  obtain ⟨-, rfl⟩ | ⟨f, -, -, -, rfl⟩ | ⟨f, -, -, -, rfl⟩ | ⟨f, -, -, -, rfl⟩ := enqueue_cases hu
  · exact h.step (o := .enqOk false) (es := []) rfl (List.append_nil _).symm rfl rfl rfl rfl rfl
  · exact h.step (o := .enqOk false) (es := [.ovTooLong]) rfl rfl rfl rfl rfl rfl rfl
  · exact h.step (o := .enqOk false) (es := [.ovQueueFull]) rfl rfl rfl rfl rfl rfl rfl
  · exact h.step (o := .enqOk true) (es := []) rfl (List.append_nil _).symm rfl rfl rfl rfl rfl

theorem Counted.runAct {s t u : State} {a : HostAct} (ha : a ≠ .reset) (h : Counted s t) (hu : runAct a t = .next u) :
    Counted s u := by
  obtain ⟨req, hu⟩ | ⟨rfl, -⟩ | ⟨sel, rfl⟩ := runAct_cases hu
  · exact h.enqueue hu
  · exact absurd rfl ha
  · exact h.step (o := .read sel (t.selected sel)) (es := []) rfl (List.append_nil _).symm rfl rfl rfl rfl rfl

theorem Counted.emitterStep {s t u : State} (h : Counted s t) (hu : emitterStep t = .next u) : Counted s u := by
  obtain ⟨-, -, rfl⟩ | ⟨f, q, -, -, -, rfl⟩ | ⟨-, -, rfl⟩ | ⟨-, -, rfl⟩ := emitterStep_cases hu
  · exact h.step (o := .estep 0 false) (es := []) rfl (List.append_nil _).symm rfl rfl rfl rfl rfl
  · exact h.step (o := .estep sof false) (es := []) rfl (List.append_nil _).symm rfl rfl rfl rfl rfl
  · exact h.step (o := .estep (t.esyms.getD t.epos.toNat 0) false) (es := []) rfl (List.append_nil _).symm
      rfl rfl rfl rfl rfl
  · exact h.step (o := .estep 0 true) (es := []) rfl (List.append_nil _).symm rfl rfl rfl rfl rfl

/-- One output of another port and an event that is no overflow count nothing. -/
theorem Counted.of_answer {s : State} {o : PortOut} {es : List Event}
    (ho : committedFrame o = none ∧ drivesFerr o = false ∧ drivesEdone o = false) (he : es.countP isOverflow = 0) :
    Counted s { s with out := [o], events := es } := by
  obtain ⟨hc, hf, hd⟩ := ho
  refine (Counted.begin s s.phase).step (o := o) (es := es) rfl rfl rfl ?_ ?_ ?_ ?_
  · rw [hc]; rfl
  · rw [List.countP_singleton, hf]; rfl
  · rw [List.countP_singleton, hd]; rfl
  · rw [he]; rfl

theorem Counted.answerDecode {r : Except DecodeReason Frame} {s t : State} (h : answerDecode r s = .next t) :
    Counted s t := by
  unfold Machine.answerDecode at h
  split at h <;> cases h <;> exact .of_answer ⟨rfl, rfl, rfl⟩ rfl

/-- A pure operation or READ drives no counted output and raises no overflow (60_exceptions.md R252). -/
theorem Counted.readsOnly {i : Instr} {s t : State} (hi : readsOnly i = true) (h : exec i s = .next t) :
    Counted s t := by
  cases i with
  | read | pack | unpack => cases h; exact .of_answer ⟨rfl, rfl, rfl⟩ rfl
  | encode op =>
    obtain ⟨f, -, h⟩ := withFrame_next_iff.1 h
    split at h <;> cases h <;> exact .of_answer ⟨rfl, rfl, rfl⟩ rfl
  | txdg op =>
    obtain ⟨f, -, h⟩ := withFrame_next_iff.1 h
    split at h <;> cases h
    exact .of_answer ⟨rfl, rfl, rfl⟩ rfl
  | rxdg b =>
    cases hr : rxDatagram b with
    | ok f =>
      rw [exec_rxdg_ok s hr] at h
      cases h
      exact .of_answer ⟨rfl, rfl, rfl⟩ rfl
    | error e =>
      rw [exec_rxdg_error s hr] at h
      cases h
      obtain ⟨r, rfl⟩ | ⟨r, rfl⟩ := rxDatagram_error hr <;> exact .of_answer ⟨rfl, rfl, rfl⟩ rfl
  | dctlNop | dctlPortUnreachable | dctlMalformedFrame | dctlBlockBusy | dctlEchoRequest | dctlEchoReply | dctlModeq
  | dctlReset | dctlSetport | dctlStatusReply | dctlHostUnreachable | dctlNetworkError | dctlTargetBusy
  | frameData | frameDataControl | frameStatus | frameIpv4 | frameIpv4Control | frameReservedType
  | decode | decodeSym => exact .answerDecode h
  | _ => simp [Machine.readsOnly] at hi

/-- Settles O56: each part counts as it drives and raises, and a TICK is its parts one after another. -/
theorem countersCountTheirEvents : Obligations.CountersCountTheirEvents := by
  intro i s t hr ht
  have counted : Counted s t := by
    obtain ⟨hi, -⟩ | ⟨-, y, p, -, -, ht⟩ | ⟨-, p, -, ht⟩ | ⟨y, acts, rfl, ht⟩ | ⟨f, req, -, ht⟩ | ⟨rfl, -⟩ :=
      exec_cases ht
    · exact .readsOnly hi ht
    · exact (Counted.begin s p).parserStep ht
    · exact (Counted.begin s p).emitterStep ht
    · exact execTick_keeps (fun _ _ hu h => h.parserStep hu)
        (fun _ ha _ _ hu h => h.runAct (ne_reset_of_mem_tickActs hr ha) hu) (fun _ _ hu h => h.emitterStep hu) ht
        (.begin s .between)
    · exact (Counted.begin s s.phase).enqueue ht
    · simp [mayReset] at hr
  obtain ⟨-, hparsed, herrors, hemitted, hdrops⟩ := counted
  exact ⟨hparsed, herrors, hemitted, hdrops⟩

end Sys2Proof.Machine
end

section
/-! PROOFS. The constructors of frames (40_frame_codec.md section 3): when they have a result, and what its views give
back; ENCODE and TXDG of records that need not be Frames. -/

namespace Sys2Proof.Machine

/-! ## When a constructor has a result -/

theorem fits_one {v : Nat} : fits 1 v = true ↔ v < 16 := by simp [fits]

theorem fits_four {v : Nat} : fits 4 v = true ↔ v < 65536 := by simp [fits]

theorem fits_eight {v : Nat} : fits 8 v = true ↔ v < 4294967296 := by simp [fits]

/-- A check that refuses was passed where there is a result. -/
theorem refusal_ite_ok_iff {c : Prop} [Decidable c] {e : Refusal} {r : Except Refusal Frame} {f : Frame} :
    (if c then .error e else r) = .ok f ↔ ¬ c ∧ r = .ok f := by
  split_ifs with h <;> simp [h]

/-- `mkData` (40_frame_codec.md R113). -/
theorem mkData_ok_iff {d s : Nat} {p : List Nib} {c : Nat} {f : Frame} : mkData d s p c = .ok f ↔
    ((d < 65536 ∧ s < 65536) ∧ c < 16) ∧ p.length ≤ 247 ∧ ⟨0, .ofNat 4 c, nibs 4 d ++ nibs 4 s ++ p⟩ = f := by
  simp only [mkData, refusal_ite_ok_iff, Bool.not_eq_true', Bool.not_eq_false, Bool.and_eq_true, fits_one, fits_four,
    Nat.not_lt, Except.ok.injEq]

/-- `mkCtl` (40_frame_codec.md R114). -/
theorem mkCtl_ok_iff {o : Nat} {a : List Nib} {f : Frame} : mkCtl o a = .ok f ↔
    o < 16 ∧ a.length ≤ 255 ∧ ⟨1, .ofNat 4 o, a⟩ = f := by
  simp only [mkCtl, refusal_ite_ok_iff, Bool.not_eq_true', Bool.not_eq_false, fits_one, Nat.not_lt, Except.ok.injEq]

/-- `mkStatus` (40_frame_codec.md R115). -/
theorem mkStatus_ok_iff {c p d e : Nat} {f : Frame} : mkStatus c p d e = .ok f ↔
    (((c < 16 ∧ p < 65536) ∧ d < 16) ∧ e < 16) ∧
      ⟨2, .ofNat 4 c, [statusSig] ++ nibs 4 p ++ [.ofNat 4 d, .ofNat 4 e]⟩ = f := by
  simp only [mkStatus, refusal_ite_ok_iff, Bool.not_eq_true', Bool.not_eq_false, Bool.and_eq_true, fits_one, fits_four,
    Except.ok.injEq]

/-- `mkStatusExt` (40_frame_codec.md R116). -/
theorem mkStatusExt_ok_iff {c p d e ip gp : Nat} {f : Frame} : mkStatusExt c p d e ip gp = .ok f ↔
    (((((c < 16 ∧ p < 65536) ∧ d < 16) ∧ e < 16) ∧ ip < 4294967296) ∧ gp < 65536) ∧
      ⟨2, .ofNat 4 c, [statusSig] ++ nibs 4 p ++ [.ofNat 4 d, .ofNat 4 e] ++ nibs 8 ip ++ nibs 4 gp ++ [0]⟩ = f := by
  simp only [mkStatusExt, refusal_ite_ok_iff, Bool.not_eq_true', Bool.not_eq_false, Bool.and_eq_true, fits_one,
    fits_four, fits_eight, Except.ok.injEq]

/-- `mkIPv4` (40_frame_codec.md R117). -/
theorem mkIPv4_ok_iff {c di du si su : Nat} {g f : Frame} : mkIPv4 c di du si su g = .ok f ↔
    ((((c < 16 ∧ di < 4294967296) ∧ du < 65536) ∧ si < 4294967296) ∧ su < 65536) ∧
      (g.type.toNat ≤ 1 ∧ validFrame g = true) ∧ g.args.length ≤ 227 ∧
      ⟨3, .ofNat 4 c, nibs 8 di ++ nibs 4 du ++ nibs 8 si ++ nibs 4 su ++ [g.type, g.code] ++ nibs 2 g.args.length ++
        g.args⟩ = f := by
  simp only [mkIPv4, refusal_ite_ok_iff, Bool.not_eq_true', Bool.not_eq_false, Bool.and_eq_true, fits_one, fits_four,
    fits_eight, decide_eq_true_eq, Nat.not_lt, Except.ok.injEq]

/-- `mkIPv4Ctl` (40_frame_codec.md R118). -/
theorem mkIPv4Ctl_ok_iff {c di si : Nat} {x : List Nib} {f : Frame} : mkIPv4Ctl c di si x = .ok f ↔
    ((c < 16 ∧ di < 4294967296) ∧ si < 4294967296) ∧ x.length ≤ 239 ∧
      ⟨4, .ofNat 4 c, nibs 8 di ++ nibs 8 si ++ x⟩ = f := by
  simp only [mkIPv4Ctl, refusal_ite_ok_iff, Bool.not_eq_true', Bool.not_eq_false, Bool.and_eq_true, fits_one,
    fits_eight, Nat.not_lt, Except.ok.injEq]

/-- A constructor call without a result refuses every operation on it (40_frame_codec.md R111). -/
theorem withFrame_of_refused {op : FrameOp} {r : Refusal} (k : Frame → Result) (h : evalFrameOp op = .error r) :
    withFrame op k = .refused r := by
  simp only [withFrame, h]

/-- Settles O14: a result is there exactly where every check is passed. -/
theorem constructorsRefuseWhatDoesNotFit : Obligations.ConstructorsRefuseWhatDoesNotFit := by
  refine ⟨fun d s p c => ?_, fun o a => ?_, fun c p d e => ?_, fun c p d e ip gp => ?_, fun c di du si su g => ?_,
    fun c di si x => ?_, fun op r s h => ?_⟩
  · simp only [mkData_ok_iff, exists_and_left, exists_eq', and_true, and_assoc]
  · simp only [mkCtl_ok_iff, exists_and_left, exists_eq', and_true]
  · simp only [mkStatus_ok_iff, exists_and_left, exists_eq', and_true, and_assoc]
  · simp only [mkStatusExt_ok_iff, exists_and_left, exists_eq', and_true, and_assoc]
  · simp only [mkIPv4_ok_iff, exists_and_left, exists_eq', and_true, and_assoc]
  · simp only [mkIPv4Ctl_ok_iff, exists_and_left, exists_eq', and_true, and_assoc]
  · exact ⟨withFrame_of_refused _ h, withFrame_of_refused _ h, withFrame_of_refused _ h⟩

/-! ## What the views give back -/

theorem toNat_ofNat_of_lt {v : Nat} (h : v < 16) : (BitVec.ofNat 4 v).toNat = v := by
  rw [BitVec.toNat_ofNat]
  exact Nat.mod_eq_of_lt h

/-! A slice of a layout is the field that stands there (40_frame_codec.md R111). -/

theorem slice_append_right {α : Type} {l m : List α} {i j : Nat} (h : l.length ≤ i) :
    slice (l ++ m) i j = slice m (i - l.length) (j - l.length) := by
  rw [slice, slice, List.drop_append, List.drop_eq_nil_of_le h, List.nil_append]
  congr 1
  omega

theorem slice_cons_succ {α : Type} (x : α) (l : List α) (i j : Nat) : slice (x :: l) (i + 1) (j + 1) = slice l i j := by
  rw [slice, slice, List.drop_succ_cons, Nat.add_sub_add_right]

theorem slice_nibs_append (k v : Nat) (l : List Nib) : slice (nibs k v ++ l) 0 k = nibs k v :=
  slice_first _ _ k (nibs_length k v)

theorem be_nibs_of_lt {k v : Nat} (h : v < 16 ^ k) : be (nibs k v) = v := be_nibs_of_fits (decide_eq_true h)

/-- A data frame of the constructor (40_frame_codec.md R113). -/
theorem mkData_views {d s : Nat} {p : List Nib} {c : Nat} {f : Frame} (h : mkData d s p c = .ok f) :
    validFrame f = true ∧ f.type = 0 ∧ f.code.toNat = c ∧ dataDstPort f = d ∧ dataSrcPort f = s ∧
      dataPayload f = p := by
  obtain ⟨⟨⟨hd, hs⟩, hc⟩, hp, rfl⟩ := mkData_ok_iff.1 h
  have hlength : (nibs 4 d ++ nibs 4 s ++ p).length = 8 + p.length := by simp; omega
  refine ⟨(validFrame_iff _).2 ⟨by rw [hlength]; omega, (checkData_eq_none_iff _).2 (by rw [hlength]; omega)⟩, rfl,
    toNat_ofNat_of_lt hc, ?_, ?_, List.drop_left' (by simp)⟩
  · simp [dataDstPort, List.append_assoc, slice_nibs_append, be_nibs_of_lt (k := 4) hd]
  · simp [dataSrcPort, List.append_assoc, slice_append_right, slice_nibs_append, be_nibs_of_lt (k := 4) hs]

theorem mkCtl_views {o : Nat} {a : List Nib} {f : Frame} (h : mkCtl o a = .ok f) :
    validFrame f = true ∧ f.type = 1 ∧ (ctlOpcode f).toNat = o ∧ ctlArgs f = a := by
  obtain ⟨ho, ha, rfl⟩ := mkCtl_ok_iff.1 h
  exact ⟨(validFrame_iff _).2 ⟨ha, rfl⟩, rfl, toNat_ofNat_of_lt ho, rfl⟩

theorem mkStatus_views {c p d e : Nat} {f : Frame} (h : mkStatus c p d e = .ok f) :
    validFrame f = true ∧ f.type = 2 ∧ f.code.toNat = c ∧ f.args.length = 7 ∧ statusSignature f = 0xA ∧
    statusPort f = p ∧ (statusRxDepth f).toNat = d ∧ (statusErrorFlags f).toNat = e := by
  obtain ⟨⟨⟨⟨hc, hp⟩, hd⟩, he⟩, rfl⟩ := mkStatus_ok_iff.1 h
  refine ⟨(validFrame_iff _).2 ⟨by simp, (checkStatus_eq_none_iff _).2 ⟨by simp, rfl⟩⟩, rfl, toNat_ofNat_of_lt hc,
    by simp, rfl, ?_, toNat_ofNat_of_lt hd, toNat_ofNat_of_lt he⟩
  simp [statusPort, slice_cons_succ, slice_nibs_append, be_nibs_of_lt (k := 4) hp]

theorem mkStatusExt_views {c p d e ip gp : Nat} {f : Frame} (h : mkStatusExt c p d e ip gp = .ok f) :
    validFrame f = true ∧ f.type = 2 ∧ f.code.toNat = c ∧ f.args.length = 20 ∧ statusSignature f = 0xA ∧
    statusPort f = p ∧ (statusRxDepth f).toNat = d ∧ (statusErrorFlags f).toNat = e ∧
    statusLocalIp f = some ip ∧ statusGatewayPort f = some gp ∧ f.args[19]? = some 0 := by
  obtain ⟨⟨⟨⟨⟨⟨hc, hp⟩, hd⟩, he⟩, hip⟩, hgp⟩, rfl⟩ := mkStatusExt_ok_iff.1 h
  refine ⟨(validFrame_iff _).2 ⟨by simp, (checkStatus_eq_none_iff _).2 ⟨by simp, rfl⟩⟩, rfl, toNat_ofNat_of_lt hc,
    by simp, rfl, ?_, toNat_ofNat_of_lt hd, toNat_ofNat_of_lt he, ?_, ?_, rfl⟩
  · simp [statusPort, slice_cons_succ, slice_nibs_append, be_nibs_of_lt (k := 4) hp]
  · simp [statusLocalIp, slice_cons_succ, slice_append_right, slice_nibs_append, be_nibs_of_lt (k := 8) hip]
  · simp [statusGatewayPort, slice_cons_succ, slice_append_right, slice_nibs_append, be_nibs_of_lt (k := 4) hgp]

/-- The inner header and args in the args of an IPv4 frame, after the 24 nibbles of addresses (40_frame_codec.md
R117). -/
theorem inner_of_layout {A a : List Nib} {g : Frame} (hA : A.length = 24)
    (ha : a = A ++ [g.type, g.code] ++ nibs 2 g.args.length ++ g.args) :
    a.length = 28 + g.args.length ∧ a[24]? = some g.type ∧ a[25]? = some g.code ∧
    a[26]? = some (.ofNat 4 (g.args.length / 16)) ∧ a[27]? = some (.ofNat 4 g.args.length) ∧ a.drop 28 = g.args := by
  have hdrop : a.drop 24 = g.type :: g.code :: nibs 2 g.args.length ++ g.args := by
    rw [ha, List.append_assoc, List.append_assoc, List.drop_left' hA]
    rfl
  have get (i : Nat) : a[24 + i]? = (a.drop 24)[i]? := List.getElem?_drop.symm
  refine ⟨?_, by rw [get 0, hdrop]; rfl, by rw [get 1, hdrop]; rfl, by rw [get 2, hdrop]; rfl,
    by rw [get 3, hdrop]; rfl, ?_⟩
  · simp [ha, hA]
    omega
  · rw [show 28 = 24 + 4 from rfl, ← List.drop_drop, hdrop]
    rfl

theorem mkIPv4_views {c di du si su : Nat} {g f : Frame} (h : mkIPv4 c di du si su g = .ok f) :
    validFrame f = true ∧ f.type = 3 ∧ f.code.toNat = c ∧ ipv4DstIp f = di ∧ ipv4DstUdpPort f = du ∧
    ipv4SrcIp f = si ∧ ipv4SrcUdpPort f = su ∧ ipv4Inner f = g := by
  obtain ⟨⟨⟨⟨⟨hc, hdi⟩, hdu⟩, hsi⟩, hsu⟩, ⟨htype, hvalid⟩, hl, rfl⟩ := mkIPv4_ok_iff.1 h
  obtain ⟨hlength, h24, h25, h26, h27, hinner⟩ := inner_of_layout
    (A := nibs 8 di ++ nibs 4 du ++ nibs 8 si ++ nibs 4 su)
    (g := g) (by simp) rfl
  refine ⟨(validFrame_iff _).2 ⟨by rw [hlength]; omega, ?_⟩, rfl, toNat_ofNat_of_lt hc, ?_, ?_, ?_, ?_, ?_⟩
  · refine (checkIPv4_of_header (ic := g.code) h24 h26 h27).trans ?_
    have hdeclared := length_nibbles (n := g.args.length) (by omega)
    have hvalidArgs : validArgs g.type g.code g.args = true := hvalid
    rw [hinner, hlength, if_neg (Nat.not_lt.2 htype), if_neg (by omega), if_pos hvalidArgs]
  · simp [ipv4DstIp, slice_nibs_append, be_nibs_of_lt (k := 8) hdi]
  · simp [ipv4DstUdpPort, slice_append_right, slice_nibs_append, be_nibs_of_lt (k := 4) hdu]
  · simp [ipv4SrcIp, slice_append_right, slice_nibs_append, be_nibs_of_lt (k := 8) hsi]
  · simp [ipv4SrcUdpPort, slice_append_right, slice_nibs_append, be_nibs_of_lt (k := 4) hsu]
  · rw [ipv4Inner, List.getD, List.getD, h24, h25, hinner]
    rfl

theorem mkIPv4Ctl_views {c di si : Nat} {x : List Nib} {f : Frame} (h : mkIPv4Ctl c di si x = .ok f) :
    validFrame f = true ∧ f.type = 4 ∧ f.code.toNat = c ∧ ipv4CtlDstIp f = di ∧ ipv4CtlSrcIp f = si ∧
    ipv4CtlContext f = x := by
  obtain ⟨⟨⟨hc, hdi⟩, hsi⟩, hx, rfl⟩ := mkIPv4Ctl_ok_iff.1 h
  have hlength : (nibs 8 di ++ nibs 8 si ++ x).length = 16 + x.length := by simp; omega
  refine ⟨(validFrame_iff _).2 ⟨by rw [hlength]; omega, (checkIPv4Ctl_eq_none_iff _).2 (by rw [hlength]; omega)⟩, rfl,
    toNat_ofNat_of_lt hc, ?_, ?_, List.drop_left' (by simp)⟩
  · simp [ipv4CtlDstIp, slice_nibs_append, be_nibs_of_lt (k := 8) hdi]
  · simp [ipv4CtlSrcIp, slice_append_right, slice_nibs_append, be_nibs_of_lt (k := 8) hsi]

/-- Settles O13: in each layout a view's slice is the field put there. -/
theorem constructorsGiveTheirFieldsBack : Obligations.ConstructorsGiveTheirFieldsBack :=
  ⟨fun _ _ _ _ _ => mkData_views, fun _ _ _ => mkCtl_views, fun _ _ _ _ _ => mkStatus_views,
    fun _ _ _ _ _ _ _ => mkStatusExt_views, fun _ _ _ _ _ _ _ => mkIPv4_views, fun _ _ _ _ _ => mkIPv4Ctl_views⟩

/-! ## ENCODE and TXDG of any record -/

/-- Settles O7: the layout reads the fields and the length alone, and above 255 args there is none. -/
theorem encodeOfAnyRecord : Obligations.EncodeOfAnyRecord := by
  intro op f s hop
  refine ⟨fun h => ?_, fun h => ⟨?_, ?_⟩⟩
  · have hencode : encodeFrame f = .ok (frameSymbols f) := (encodeFrame_ok_iff f _).2 ⟨h, rfl⟩
    exact ⟨exec_encode_of_ok s hop hencode, exec_txdg_of_ok s hop hencode⟩
  · rw [show exec (.encode op) s = execEncode op s from rfl, execEncode, withFrame_of_eval _ hop,
      encodeFrame_of_tooLong h]
    rfl
  · rw [show exec (.txdg op) s = execTxdg op s from rfl, execTxdg, withFrame_of_eval _ hop, txDatagram,
      encodeFrame_of_tooLong h]

end Sys2Proof.Machine
end

section
/-! PROOFS. TICK (43_queue_and_control.md R210 to R213): as its parts one after another, with the callback's frame on
the same tick, and in a quiescent state. -/

namespace Sys2Proof.Machine

/-! ## The PSTEP of a tick -/

/-- A PSTEP of its own is the parser step that the tick performs, in whatever phase (log 7). -/
theorem parserStep_of_pstep {y : Nib} {s u : State} (h : exec (.pstep y) s = .next u) :
    phaseAfterPstep s.phase = some u.phase ∧ ∀ q, parserStep y (s.begin.setPhase q) = .next (u.setPhase q) := by
  obtain ⟨p, hp, h⟩ := parserTurn_next_iff.1 (show execPstep y s = _ from h)
  obtain ⟨-, -, -, -, -, -, -, hphase, -⟩ := parserStep_frame h
  exact ⟨by rw [hphase]; exact hp, fun q => parserStep_setPhase (s := s.begin.setPhase p) q h⟩

theorem outside_of_phaseAfterPstep {s : State} {p : TickPhase} (h : phaseAfterPstep s.phase = some p) :
    s.phase ≠ .inside := by
  intro hi
  simp [hi, phaseAfterPstep] at h

/-- The tick's actions are `A(c)` of what its PSTEP drives on `commit`, then the host's own (log 6). -/
theorem tickActs_of_pstep {y : Nib} {s u : State} (h : exec (.pstep y) s = .next u) (acts : List HostAct) :
    tickActs s y acts = (commits [u.out]).flatMap (callbackOf s.cfg.callback) ++ acts := by
  have hstep : parserStep y s.begin = .next (u.setPhase s.phase) := (parserStep_of_pstep h).2 s.phase
  simp only [tickActs, hstep, State.setPhase_out]

/-! ## A part of a tick as an operation of its own -/

/-- `s` inside a tick that has driven `o` and raised `e` before, in the phase `q`. -/
def State.amid (o : List PortOut) (e : List Event) (q : TickPhase) (s : State) : State :=
  { s with phase := q, out := o ++ s.out, events := e ++ s.events }

section
variable (o : List PortOut) (e : List Event) (q : TickPhase)

theorem State.amid_drive (x : PortOut) (s : State) : (s.drive x).amid o e q = (s.amid o e q).drive x := by
  simp [State.amid, State.drive]

theorem State.amid_raise (x : Event) (s : State) : (s.raise x).amid o e q = (s.amid o e q).raise x := by
  simp [State.amid, State.raise]

theorem State.amid_drop (x : Event) (s : State) : (s.drop x).amid o e q = (s.amid o e q).drop x := by
  simp only [State.drop, State.amid_drive, State.amid_raise]
  rfl

/-- ENQ does the same amid a tick as at an operation's begin. -/
theorem enqueue_amid {req : Option Frame} {s t : State} (h : enqueue req s = .next t) :
    enqueue req (s.amid o e q) = .next (t.amid o e q) := by
  cases req with
  | none =>
    cases h
    rw [State.amid_drive]
    rfl
  | some f =>
    have hqueue : (s.amid o e q).queue = s.queue := rfl
    simp only [enqueue, hqueue] at h ⊢
    split_ifs at h ⊢ <;> cases h
    · rw [State.amid_drop]
    · rw [State.amid_drop]
    · rw [State.amid_drive]
      rfl

theorem emitterStep_amid {s t : State} (h : emitterStep s = .next t) :
    emitterStep (s.amid o e q) = .next (t.amid o e q) := by
  obtain ⟨he, hq, rfl⟩ | ⟨f, r, he, hq, hl, rfl⟩ | ⟨he, hl, rfl⟩ | ⟨he, hl, rfl⟩ := emitterStep_cases h
  · rw [emitterIdle, State.amid_drive]
    exact emitterStep_idle (s := s.amid o e q) he hq
  · rw [State.amid_drive]
    exact emitterStep_start (s := s.amid o e q) he hq hl
  · rw [emitterSymbol, State.amid_drive]
    exact emitterStep_symbol (s := s.amid o e q) he hl
  · rw [emitterEnd, State.amid_drive]
    exact emitterStep_end (s := s.amid o e q) he hl

/-- A host action amid a tick is the host's operation of its own (43_queue_and_control.md R213). -/
theorem runAct_amid {a : HostAct} {s t : State} (h : exec (actOperation a) s = .next t) :
    runAct a (s.begin.amid o e q) = .next (t.amid o e q) := by
  cases a with
  | enq f =>
    cases f with
    | none => exact enqueue_amid o e q (show enqueue none s.begin = _ from h)
    | some op =>
      obtain ⟨f, hop, h⟩ := withFrame_next_iff.1 h
      exact (withFrame_of_eval _ hop).trans (enqueue_amid o e q h)
  | reset =>
    cases h
    rfl
  | read sel =>
    cases h
    rw [readPort, State.amid_drive]
    rfl

end

/-- A state of a tick goes on from what it has driven and raised so far. -/
theorem State.amid_eq_begin_amid (o : List PortOut) (e : List Event) (q : TickPhase) (s : State) :
    s.amid o e q = s.begin.amid (o ++ s.out) (e ++ s.events) q := by
  simp [State.amid, State.begin]

/-- A host action of its own leaves the host's place in the tick (log 7). -/
theorem actOperation_phase {a : HostAct} {s t : State} (h : exec (actOperation a) s = .next t) : t.phase = s.phase := by
  cases a <;> exact exec_phase h rfl rfl nofun

/-- Actions and an ESTEP performed one after another leave and drive what they do amid a tick. -/
theorem runActs_emitterStep_amid {acts : List HostAct} {s t : State} {outs : List (List PortOut)} (o : List PortOut)
    (e : List Event) (q : TickPhase) (h : runOps (acts.map actOperation ++ [.estep]) s = some (t, outs)) :
    phaseAfterEstep s.phase = some t.phase ∧ ∃ v ev, runActs acts (s.begin.amid o e q) = .next v ∧
      emitterStep v = .next { t with phase := q, out := o ++ outs.flatten, events := ev } := by
  induction acts generalizing s o e outs with
  | nil =>
    obtain ⟨u, rest, hu, hrest, rfl⟩ := runOps_cons_iff.1 h
    cases hrest
    obtain ⟨p, hp, hstep⟩ := emitterTurn_next_iff.1 (show execEstep s = _ from hu)
    obtain ⟨-, -, -, -, -, -, -, -, hphase, -⟩ := emitterStep_frame hstep
    have hamid : emitterStep ((s.begin.setPhase p).amid o e q) = .next (t.amid o e q) := emitterStep_amid o e q hstep
    refine ⟨by rw [hphase]; exact hp, _, e ++ t.events, rfl, ?_⟩
    rw [List.flatten_singleton]
    exact hamid
  | cons a acts ih =>
    obtain ⟨u, rest, hu, hrest, rfl⟩ := runOps_cons_iff.1 h
    obtain ⟨hphase, v, ev, hacts, hstep⟩ := ih (o ++ u.out) (e ++ u.events) hrest
    rw [actOperation_phase hu] at hphase
    refine ⟨hphase, v, ev, ?_, ?_⟩
    · rw [runActs, runAct_amid o e q hu, andThen_next, State.amid_eq_begin_amid, hacts]
    · rw [List.flatten_cons, ← List.append_assoc]
      exact hstep

/-- Settles O46: PSTEP's state inside the tick goes on through the actions and the ESTEP, its outputs before theirs;
before the first TICK the order is begun by the TICK itself. -/
theorem tickIsPstepCallbackEstep : Obligations.TickIsPstepCallbackEstep := by
  intro y acts s
  constructor
  · intro u v outs hphase hu hrun
    obtain ⟨hpstep, hstep⟩ := parserStep_of_pstep hu
    obtain ⟨hestep, w, ev, hacts, hemit⟩ := runActs_emitterStep_amid u.out u.events .between hrun
    have hv : v.phase = .between := by
      rw [hphase] at hpstep
      rw [← Option.some.inj hpstep] at hestep
      exact (Option.some.inj hestep).symm
    rw [← tickActs_of_pstep hu] at hacts
    have hu' : u.begin.amid u.out u.events .between = u.setPhase .between := by
      simp [State.amid, State.begin, State.setPhase]
    rw [hu'] at hacts
    refine ⟨ev, execTick_next_iff.2 ⟨outside_of_phaseAfterPstep hpstep, u.setPhase .between, w, hstep .between, hacts,
      ?_⟩⟩
    rw [hemit, ← hv]
  · intro hphase
    rw [exec_tick (by rw [hphase]; simp), exec_tick (s := { s with phase := .between }) (by simp)]
    rfl

/-- Settles O48: the callback's ENQ finds the queue empty, so the ESTEP of the tick finds its Frame at the head. -/
theorem callbackFrameStartsOnTheSameTick : Obligations.CallbackFrameStartsOnTheSameTick := by
  intro s u y c f op hu hout he hq hcallback hop hvalid
  obtain ⟨hpstep, hstep⟩ := parserStep_of_pstep hu
  obtain ⟨hue, -, -, huq, -⟩ := parserStep_frame (hstep .between)
  have hacts : tickActs s y [] = [.enq (some op)] := by
    rw [tickActs_of_pstep hu, hout]
    simp [commits, committedFrame, hcallback]
  have hempty : (u.setPhase .between).queue = [] := huq.trans hq
  have henq : runActs [.enq (some op)] (u.setPhase .between) =
      .next (((u.setPhase .between).push f).drive (.enqOk true)) := by
    have hrun : runAct (.enq (some op)) (u.setPhase .between) = enqueue (some f) (u.setPhase .between) :=
      withFrame_of_eval _ hop
    rw [runActs, hrun, enqueue_frame_of_room hvalid (by rw [hempty]; decide)]
    rfl
  have hhead : (((u.setPhase .between).push f).drive (.enqOk true)).queue = [f] := by
    rw [State.drive_queue, State.push, State.setQueue_queue, hempty, List.nil_append]
  have hstart := emitterStep_start (s := ((u.setPhase .between).push f).drive (.enqOk true)) (hue.trans he) hhead
    (validFrame_length hvalid)
  refine ⟨_, execTick_next_iff.2 ⟨outside_of_phaseAfterPstep hpstep, _, _, hstep .between, ?_, hstart⟩, ?_, rfl, rfl,
    rfl, rfl⟩
  · rw [hacts, henq]
  · simp [State.push, hout, sof]

/-- Settles O49: 0 is noise to an IDLE parser, nothing is committed, and the emitter idles. -/
theorem quiescentTickChangesNothing : Obligations.QuiescentTickChangesNothing := by
  rintro s ⟨hp, he, hq⟩ hphase
  have hnoise : parserStep 0 (s.begin.setPhase .between) = .next (s.begin.setPhase .between).quiet :=
    parserStep_of_idle_noise (s := s.begin.setPhase .between) hp (by decide)
  have hidle : emitterStep (s.begin.setPhase .between).quiet = .next (emitterIdle (s.begin.setPhase .between).quiet) :=
    emitterStep_idle (s := (s.begin.setPhase .between).quiet) he hq
  rw [exec_tick hphase, hnoise, andThen_next]
  exact hidle

end Sys2Proof.Machine
end

section
/-! PROOFS. Runs of the parser (41_parser.md section 5): rounds of a PSTEP with or without an ESTEP complete, zeros
reach IDLE, and ERROR is entered only where EOF is due. -/

namespace Sys2Proof.Machine

/-! ## Rounds -/

/-- A PSTEP before the first TICK completes and is one parser step. -/
theorem exec_pstep_unstarted {s : State} (h : ParserInv s) (hphase : s.phase = .unstarted) (y : Nib) :
    ∃ t, exec (.pstep y) s = .next t ∧ parserStep y s.begin = .next t ∧ ParserInv t ∧ t.phase = .unstarted := by
  have hp : phaseAfterPstep s.phase = some .unstarted := by rw [hphase]; rfl
  have hbegin : s.begin.setPhase .unstarted = s.begin := by rw [← hphase]; rfl
  obtain ⟨t, ht, hstep⟩ := parserStep_from_inv (s := s.begin) h y
  obtain ⟨-, -, -, -, -, -, -, htphase, -⟩ := parserStep_frame ht
  exact ⟨t, by rw [exec_pstep hp, hbegin, ht], ht, hstep.inv, htphase.trans hphase⟩

/-- After a PSTEP in the tick order an ESTEP is in order, and leaves no tick open (log 7). -/
theorem phaseAfterEstep_of_pstep {p q : TickPhase} (h : phaseAfterPstep p = some q) :
    ∃ r, phaseAfterEstep q = some r ∧ r ≠ .inside := by
  cases p <;> cases h <;> exact ⟨_, rfl, nofun⟩

/-- Outside a tick a PSTEP and an ESTEP complete, one step of each part (log 7). -/
theorem exec_pstep_estep {s : State} (h : ParserInv s) (hq : QueueInv s) (hphase : s.phase ≠ .inside) (y : Nib) :
    ∃ u t p q, exec (.pstep y) s = .next u ∧ exec .estep u = .next t ∧ parserStep y (s.begin.setPhase p) = .next u ∧
      emitterStep (u.begin.setPhase q) = .next t ∧ ParserInv t ∧ QueueInv t ∧ t.phase ≠ .inside := by
  obtain ⟨p, hp⟩ := phaseAfterPstep_of_outside hphase
  obtain ⟨u, hu, hstep⟩ := parserStep_from_inv (s := s.begin.setPhase p) h y
  obtain ⟨-, -, -, huq, -, -, -, huphase, -⟩ := parserStep_frame hu
  have huQueue : QueueInv u := hq.congr huq
  obtain ⟨q, hestep, hqout⟩ := phaseAfterEstep_of_pstep hp
  have hqphase : phaseAfterEstep u.phase = some q := by rw [huphase]; exact hestep
  obtain ⟨t, ht⟩ := emitterStep_completes (s := u.begin.setPhase q) huQueue
  obtain ⟨htp, htb, htx, -, -, -, -, -, htphase, -⟩ := emitterStep_frame ht
  refine ⟨u, t, p, q, (exec_pstep hp).trans hu, (exec_estep hqphase).trans ht, hu, ht, hstep.inv.congr htp htb htx,
    emitterStep_keeps_queueInv ht huQueue, ?_⟩
  rw [htphase]
  exact hqout

/-- What rounds keep, any number of rounds keeps, and they complete. -/
theorem runOps_flatMap {P : State → Prop} {round : Nib → List Instr}
    (hround : ∀ y s, P s → ∃ t outs, runOps (round y) s = some (t, outs) ∧ P t) (l : List Nib) {s : State} (h : P s) :
    ∃ t outs, runOps (l.flatMap round) s = some (t, outs) ∧ P t := by
  induction l generalizing s with
  | nil => exact ⟨s, [], rfl, h⟩
  | cons y l ih =>
    obtain ⟨u, o, hu, hPu⟩ := hround y s h
    obtain ⟨t, outs, ht, hPt⟩ := ih hPu
    exact ⟨t, o ++ outs, runOps_append hu ht, hPt⟩

theorem feed_eq_flatMap (l : List Nib) : feed l = l.flatMap fun y => [.pstep y] := by
  simp [feed, List.map_eq_flatMap]

/-- A FEED before the first TICK completes (41_parser.md R150). -/
theorem feed_completes {s : State} (h : ParserInv s) (hphase : s.phase = .unstarted) (l : List Nib) :
    ∃ t outs, runOps (feed l) s = some (t, outs) ∧ ParserInv t ∧ t.phase = .unstarted := by
  rw [feed_eq_flatMap]
  refine runOps_flatMap (P := fun s => ParserInv s ∧ s.phase = .unstarted) ?_ l ⟨h, hphase⟩
  rintro y s ⟨h, hphase⟩
  obtain ⟨t, ht, -, hinv, htphase⟩ := exec_pstep_unstarted h hphase y
  exact ⟨t, _, runOps_cons ht (runOps_nil t), hinv, htphase⟩

/-- Ticks without host actions complete outside a tick (43_queue_and_control.md R213). -/
theorem feedTicks_completes {s : State} (h : ParserInv s) (hq : QueueInv s) (hphase : s.phase ≠ .inside)
    (l : List Nib) :
    ∃ t outs, runOps (feedTicks l) s = some (t, outs) := by
  obtain ⟨t, outs, hrun, -⟩ := runOps_flatMap (P := fun s => ParserInv s ∧ QueueInv s ∧ s.phase ≠ .inside)
    (round := fun y => [.pstep y, .estep]) (by
      rintro y s ⟨h, hq, hphase⟩
      obtain ⟨u, t, -, -, hu, ht, -, -, hrest⟩ := exec_pstep_estep h hq hphase y
      exact ⟨t, _, runOps_cons hu (runOps_cons ht (runOps_nil t)), hrest⟩) l ⟨h, hq, hphase⟩
  exact ⟨t, outs, hrun⟩

/-! ## Zeros reach IDLE -/

/-- The most 0 symbols it takes to reach IDLE (41_parser.md R167). -/
def zerosToIdle (s : State) : Nat :=
  match s.pstate with
  | .idle => 0
  | .error => 1
  | _ => zerosToEof s + 2

theorem zerosToIdle_le (s : State) : zerosToIdle s ≤ zerosToEof s + 2 := by
  unfold zerosToIdle
  split <;> omega

theorem idle_of_zerosToIdle {s : State} (h : zerosToIdle s = 0) : s.pstate = .idle := by
  unfold zerosToIdle at h
  split at h
  · assumption
  · omega
  · omega

theorem zerosToIdle_congr {s t : State} (hp : t.pstate = s.pstate) (hb : t.pbuf = s.pbuf) (hx : t.pexp = s.pexp) :
    zerosToIdle t = zerosToIdle s := by
  simp only [zerosToIdle, zerosToEof, hp, hb, hx]

theorem zerosToEof_le (s : State) : zerosToEof s ≤ 255 := by
  unfold zerosToEof
  split
  · decide
  · decide
  · decide
  · have := (s.pbuf.getD 2 0).isLt
    omega
  · have := s.pexp.isLt
    omega
  · decide

/-- Each 0 brings a parser outside IDLE nearer to it (41_parser.md section 5). -/
theorem zerosToIdle_step {s t : State} (h : ParserInv s) (ht : parserStep 0 s = .next t) (hpos : 0 < zerosToIdle s) :
    zerosToIdle t < zerosToIdle s := by
  cases hp : s.pstate with
  | idle => simp [zerosToIdle, hp] at hpos
  | type =>
    rw [parserStep_of_type hp] at ht
    cases ht
    simp [zerosToIdle, zerosToEof, hp, parserAppend, State.quiet]
  | code =>
    rw [parserStep_of_code hp] at ht
    cases ht
    simp [zerosToIdle, zerosToEof, hp, parserAppend, State.quiet]
  | lenHi =>
    simp only [ParserInv, hp] at h
    rw [parserStep_of_lenHi hp] at ht
    cases ht
    simp [zerosToIdle, zerosToEof, hp, parserAppend, State.quiet, h.1]
  | lenLo =>
    simp only [ParserInv, hp] at h
    obtain ⟨a, b, hi, hbuf⟩ := List.length_eq_three.1 h.1
    have hhi : (s.pbuf ++ [0])[2]? = some hi := by rw [hbuf]; rfl
    have hlow : zerosToIdle s = 1 + 16 * hi.toNat + 2 := by simp [zerosToIdle, zerosToEof, hp, hbuf]
    rw [parserStep_of_lenLo hp] at ht
    by_cases h0 : 16 * hi.toNat + (0 : Nib).toNat = 0
    · rw [parserLenLo_of_zero hhi h0] at ht
      cases ht
      rw [hlow]
      simp only [zerosToIdle, zerosToEof, State.quiet, State.drive_pstate, State.setParser_pstate]
      omega
    · rw [parserLenLo_of_pos hhi h0] at ht
      cases ht
      have hexp : (BitVec.ofNat 8 (16 * hi.toNat + (0 : Nib).toNat)).toNat = 16 * hi.toNat := by
        rw [BitVec.toNat_ofNat]
        exact Nat.mod_eq_of_lt (Nat.lt_succ_of_le (declaredLength_le hi 0))
      rw [hlow]
      simp only [zerosToIdle, zerosToEof, State.quiet, State.drive_pstate, State.setParser_pstate, State.drive_pexp,
        State.setParser_pexp, hexp]
      omega
  | args =>
    simp only [ParserInv, hp] at h
    obtain ⟨hlow, hhigh, -⟩ := h
    rw [parserStep_of_args hp] at ht
    cases ht
    obtain hmore | hlast : s.pbuf.length + 1 < s.pexp.toNat + 4 ∨ s.pbuf.length + 1 = s.pexp.toNat + 4 := by omega
    · rw [parserArgs_of_more hmore]
      simp [zerosToIdle, zerosToEof, hp, State.quiet]
      omega
    · rw [parserArgs_of_last hlast]
      simp [zerosToIdle, zerosToEof, hp, State.quiet]
      omega
  | expectEof =>
    have hlow : zerosToIdle s = 2 := by simp [zerosToIdle, zerosToEof, hp]
    rw [hlow]
    rw [parserStep_of_eof hp, parserEof] at ht
    split at ht
    · cases ht
    · cases ht
      exact (by decide : 0 < 2)
    · cases ht
      exact (by decide : 1 < 2)
  | error =>
    rw [parserStep_of_error_zero hp] at ht
    cases ht
    simp [zerosToIdle, hp, parserResync, State.quiet, State.toIdle]

/-- Rounds on 0 that complete and bring the parser nearer to IDLE reach it. -/
theorem zeros_reach_idle {P : State → Prop} {round : Nib → List Instr}
    (hround : ∀ s, P s → ∃ t outs, runOps (round 0) s = some (t, outs) ∧ P t ∧
      (0 < zerosToIdle s → zerosToIdle t < zerosToIdle s)) {s : State} (h : P s) :
    ∃ k t outs, k ≤ zerosToIdle s ∧ runOps ((List.replicate k 0).flatMap round) s = some (t, outs) ∧
      t.pstate = .idle := by
  induction hn : zerosToIdle s using Nat.strong_induction_on generalizing s with
  | _ n ih =>
    by_cases h0 : n = 0
    · exact ⟨0, s, [], Nat.zero_le n, rfl, idle_of_zerosToIdle (hn.trans h0)⟩
    · obtain ⟨u, o, hu, hPu, hless⟩ := hround s h
      have hless : zerosToIdle u < n := hn ▸ hless (by omega)
      obtain ⟨k, t, outs, hk, hrun, ht⟩ := ih _ hless hPu rfl
      refine ⟨k + 1, t, o ++ outs, by omega, ?_, ht⟩
      rw [List.replicate_succ, List.flatMap_cons]
      exact runOps_append hu hrun

/-- Settles O33: every 0 brings the parser nearer to IDLE, in a FEED and where an ESTEP follows each PSTEP. -/
theorem zerosReachIdle : Obligations.ZerosReachIdle := by
  intro s h
  refine ⟨zerosToEof_le s, fun hphase => ?_, fun hphase hq => ?_⟩
  · obtain ⟨k, t, outs, hk, hrun, ht⟩ := zeros_reach_idle (P := fun s => ParserInv s ∧ s.phase = .unstarted)
      (round := fun y => [.pstep y]) (by
        rintro s ⟨h, hphase⟩
        obtain ⟨t, ht, hstep, hrest⟩ := exec_pstep_unstarted h hphase 0
        exact ⟨t, _, runOps_cons ht (runOps_nil t), hrest, zerosToIdle_step (s := s.begin) h hstep⟩) ⟨h, hphase⟩
    exact ⟨k, t, outs, hk.trans (zerosToIdle_le s), by rw [feed_eq_flatMap]; exact hrun, ht⟩
  · obtain ⟨k, t, outs, hk, hrun, ht⟩ := zeros_reach_idle (P := fun s => ParserInv s ∧ QueueInv s ∧ s.phase ≠ .inside)
      (round := fun y => [.pstep y, .estep]) (by
        rintro s ⟨h, hq, hphase⟩
        obtain ⟨u, t, p, q, hu, ht, hstep, hemit, hrest⟩ := exec_pstep_estep h hq hphase 0
        obtain ⟨htp, htb, htx, -⟩ := emitterStep_frame hemit
        refine ⟨t, _, runOps_cons hu (runOps_cons ht (runOps_nil t)), hrest, ?_⟩
        rw [show zerosToIdle t = zerosToIdle u from zerosToIdle_congr htp htb htx]
        exact zerosToIdle_step (s := s.begin.setPhase p) h hstep) ⟨h, hq, hphase⟩
    exact ⟨k, t, outs, hk.trans (zerosToIdle_le s), hrun, ht⟩

/-! ## ERROR -/

/-- What an entry into ERROR records: the EOF's error first, then only overflows (60_exceptions.md R252, R254). -/
def EofErrorFirst (events : List Event) : Prop :=
  ∃ e rest, events = e :: rest ∧ (e = .feNoEof ∨ ∃ r, e = .feDecode r) ∧ ∀ x ∈ rest, x = .ovTooLong ∨ x = .ovQueueFull

/-- A host action raises nothing but overflows, and leaves the parser as it is or resets it. -/
theorem runAct_parser {a : HostAct} {s t : State} (h : runAct a s = .next t) :
    (t.pstate = s.pstate ∧ t.pbuf = s.pbuf ∧ t.pexp = s.pexp ∨ t.pstate = .idle ∧ t.pbuf = [] ∧ t.pexp = 0) ∧
    ∃ es, t.events = s.events ++ es ∧ ∀ x ∈ es, x = .ovTooLong ∨ x = .ovQueueFull := by
  obtain ⟨req, h⟩ | ⟨-, rfl⟩ | ⟨sel, rfl⟩ := runAct_cases h
  · obtain ⟨-, rfl⟩ | ⟨f, -, -, -, rfl⟩ | ⟨f, -, -, -, rfl⟩ | ⟨f, -, -, -, rfl⟩ := enqueue_cases h
    · exact ⟨.inl ⟨rfl, rfl, rfl⟩, [], (List.append_nil _).symm, nofun⟩
    · exact ⟨.inl ⟨rfl, rfl, rfl⟩, [.ovTooLong], rfl, by simp⟩
    · exact ⟨.inl ⟨rfl, rfl, rfl⟩, [.ovQueueFull], rfl, by simp⟩
    · exact ⟨.inl ⟨rfl, rfl, rfl⟩, [], (List.append_nil _).symm, nofun⟩
  · exact ⟨.inr ⟨rfl, rfl, rfl⟩, [], (List.append_nil _).symm, nofun⟩
  · exact ⟨.inl ⟨rfl, rfl, rfl⟩, [], (List.append_nil _).symm, nofun⟩

theorem EofErrorFirst.append {l es : List Event} (h : EofErrorFirst l)
    (hes : ∀ x ∈ es, x = .ovTooLong ∨ x = .ovQueueFull) : EofErrorFirst (l ++ es) := by
  obtain ⟨e, rest, rfl, he, hrest⟩ := h
  refine ⟨e, rest ++ es, rfl, he, fun x hx => ?_⟩
  obtain hx | hx := List.mem_append.1 hx
  · exact hrest x hx
  · exact hes x hx

theorem emitterStep_events {s t : State} (h : emitterStep s = .next t) : t.events = s.events := by
  obtain ⟨-, -, rfl⟩ | ⟨f, q, -, -, -, rfl⟩ | ⟨-, -, rfl⟩ | ⟨-, -, rfl⟩ := emitterStep_cases h <;> rfl

/-- A TICK enters ERROR by its PSTEP, after which its actions only add overflows or reset the parser. -/
theorem execTick_enters_error {y : Nib} {acts : List HostAct} {s t : State} (h : ParserInv s)
    (ht : execTick y acts s = .next t) (hs : s.pstate ≠ .error) (hte : t.pstate = .error) :
    s.pstate = .expectEof ∧ EofErrorFirst t.events := by
  obtain ⟨-, u, v, hu, hv, hemit⟩ := execTick_next_iff.1 ht
  have hstep := parserStep_keeps_inv (s := s.begin.setPhase .between) hu h
  obtain ⟨htp, -⟩ := emitterStep_frame hemit
  have hacts : v.pstate = .error → s.pstate = .expectEof ∧ EofErrorFirst v.events := by
    refine runActs_keeps (P := fun v => v.pstate = .error → s.pstate = .expectEof ∧ EofErrorFirst v.events) ?_ hv ?_
    · intro a _ w x hx hw hxe
      obtain ⟨hregs, es, hevents, hes⟩ := runAct_parser hx
      obtain ⟨hp, -⟩ | ⟨hp, -⟩ := hregs
      · obtain ⟨heof, hfirst⟩ := hw (hp ▸ hxe)
        exact ⟨heof, hevents ▸ hfirst.append hes⟩
      · rw [hp] at hxe
        cases hxe
    · intro hue
      obtain ⟨heof, e, hevents, he⟩ := hstep.entersError hs hue
      exact ⟨heof, e, [], hevents, he, nofun⟩
  rw [emitterStep_events hemit]
  exact hacts (htp ▸ hte)

/-- A TICK leaves ERROR for IDLE with empty registers, by its PSTEP or by a RESET. -/
theorem execTick_leaves_error {y : Nib} {acts : List HostAct} {s t : State} (h : ParserInv s)
    (ht : execTick y acts s = .next t) (hs : s.pstate = .error) (hte : t.pstate ≠ .error) :
    t.pstate = .idle ∧ t.pbuf = [] ∧ t.pexp = 0 := by
  obtain ⟨-, u, v, hu, hv, hemit⟩ := execTick_next_iff.1 ht
  have hstep := parserStep_keeps_inv (s := s.begin.setPhase .between) hu h
  obtain ⟨htp, htb, htx, -⟩ := emitterStep_frame hemit
  have hacts : v.pstate ≠ .error → v.pstate = .idle ∧ v.pbuf = [] ∧ v.pexp = 0 := by
    refine runActs_keeps (P := fun v => v.pstate ≠ .error → v.pstate = .idle ∧ v.pbuf = [] ∧ v.pexp = 0) ?_ hv
      (hstep.leavesError hs)
    intro a _ w x hx hw hxe
    obtain ⟨⟨hp, hb, hexp⟩ | hreset, -⟩ := runAct_parser hx
    · rw [hp] at hxe
      rw [hp, hb, hexp]
      exact hw hxe
    · exact hreset
  rw [htp, htb, htx]
  exact hacts (htp ▸ hte)

/-- Settles O34: only a parser step enters ERROR, where EOF is due; a parser step or a RESET leaves it for IDLE. -/
theorem errorIsEnteredOnlyAtEof : Obligations.ErrorIsEnteredOnlyAtEof := by
  intro i s t h ht
  have same (hp : t.pstate = s.pstate) : (s.pstate ≠ .error → t.pstate = .error → False) ∧
      (s.pstate = .error → t.pstate ≠ .error → False) := by
    rw [hp]
    exact ⟨fun hne he => hne he, fun he hne => hne he⟩
  obtain ⟨-, o, e, rfl⟩ | ⟨hi, y, p, -, -, hstep⟩ | ⟨-, p, -, hstep⟩ | ⟨y, acts, rfl, htick⟩ | ⟨f, req, -, henq⟩ |
    ⟨-, rfl⟩ :=
    exec_cases ht
  · exact ⟨fun hs hte => absurd hte hs, fun hs hte => absurd hs hte⟩
  · have hinv := parserStep_keeps_inv (s := s.begin.setPhase p) hstep h
    refine ⟨fun hs hte => ?_, hinv.leavesError⟩
    obtain ⟨heof, e, hevents, he⟩ := hinv.entersError hs hte
    exact ⟨heof, e, [], hevents, he, fun _ => rfl, nofun⟩
  · obtain ⟨hp, -⟩ := emitterStep_frame hstep
    exact ⟨fun hs hte => ((same hp).1 hs hte).elim, fun hs hte => ((same hp).2 hs hte).elim⟩
  · refine ⟨fun hs hte => ?_, execTick_leaves_error h htick⟩
    obtain ⟨heof, e, rest, hevents, he, hrest⟩ := execTick_enters_error h htick hs hte
    exact ⟨heof, e, rest, hevents, he, nofun, hrest⟩
  · obtain ⟨hp, -⟩ := enqueue_frame henq
    exact ⟨fun hs hte => ((same hp).1 hs hte).elim, fun hs hte => ((same hp).2 hs hte).elim⟩
  · exact ⟨nofun, fun _ _ => ⟨rfl, rfl, rfl⟩⟩

end Sys2Proof.Machine
end

section
/-! PROOFS. The parser reading a line of frames (41_parser.md section 5, 42_emitter.md section 5): what it holds amid
a frame, symbol by symbol, and what a run that feeds it the line commits. -/

namespace Sys2Proof.Machine

/-! ## Amid a frame -/

/-- The symbols of a frame between SOF and EOF (40_frame_codec.md R112): what the parser's buffer collects. -/
def frameBody (f : Frame) : List Nib :=
  f.type :: f.code :: .ofNat 4 (f.args.length / 16) :: .ofNat 4 f.args.length :: f.args

theorem frameSymbols_eq_body (f : Frame) : frameSymbols f = 15 :: (frameBody f ++ [0]) := rfl

theorem frameBody_length (f : Frame) : (frameBody f).length = f.args.length + 4 := rfl

/-- The parser state after `k` symbols of a frame's body. -/
def stateAmid (f : Frame) : Nat → PState
  | 0 => .type
  | 1 => .code
  | 2 => .lenHi
  | 3 => .lenLo
  | k + 4 => if k = f.args.length then .expectEof else .args

/-- The parser has read SOF and the first `k` symbols of the body of `f`. -/
structure MidFrame (f : Frame) (k : Nat) (s : State) : Prop where
  state : s.pstate = stateAmid f k
  buf : s.pbuf = (frameBody f).take k
  exp : s.pexp = if k < 4 then 0 else .ofNat 8 f.args.length

theorem MidFrame.congr {f : Frame} {k : Nat} {s t : State} (h : MidFrame f k s) (hp : t.pstate = s.pstate)
    (hb : t.pbuf = s.pbuf) (hx : t.pexp = s.pexp) : MidFrame f k t :=
  ⟨hp.trans h.state, hb.trans h.buf, hx.trans h.exp⟩

/-- Amid a frame each symbol of the body is read quietly (41_parser.md R153 to R157). -/
theorem MidFrame.step {f : Frame} {k : Nat} {s : State} {y : Nib} (h : MidFrame f k s) (hl : f.args.length ≤ 255)
    (hy : (frameBody f)[k]? = some y) :
    ∃ p b n, parserStep y s = .next ((s.setParser p b n).quiet) ∧ MidFrame f (k + 1) ((s.setParser p b n).quiet) := by
  obtain ⟨hstate, hbuf, hexp⟩ := h
  have htake : s.pbuf ++ [y] = (frameBody f).take (k + 1) := by
    rw [hbuf, List.take_add_one, hy]
    rfl
  obtain ⟨hk, -⟩ := List.getElem?_eq_some_iff.1 hy
  rw [frameBody_length] at hk
  match k with
  | 0 => exact ⟨_, _, _, parserStep_of_type hstate y, rfl, htake, hexp⟩
  | 1 => exact ⟨_, _, _, parserStep_of_code hstate y, rfl, htake, hexp⟩
  | 2 => exact ⟨_, _, _, parserStep_of_lenHi hstate y, rfl, htake, hexp⟩
  | 3 =>
    have hhi : (s.pbuf ++ [y])[2]? = some (.ofNat 4 (f.args.length / 16)) := by rw [htake]; rfl
    have hlo : y = .ofNat 4 f.args.length := (Option.some.inj hy).symm
    have hlength : 16 * (BitVec.ofNat 4 (f.args.length / 16)).toNat + y.toNat = f.args.length := by
      rw [hlo, length_nibbles hl]
    by_cases h0 : f.args.length = 0
    · refine ⟨_, _, _, (parserStep_of_lenLo hstate y).trans (parserLenLo_of_zero hhi (hlength.trans h0)), ?_, htake, ?_⟩
      · simp [State.quiet, stateAmid, h0]
      · simp [State.quiet, h0]
    · refine ⟨_, _, _, (parserStep_of_lenLo hstate y).trans (parserLenLo_of_pos hhi (hlength.symm ▸ h0)), ?_, htake, ?_⟩
      · simp [State.quiet, stateAmid, Ne.symm h0]
      · exact (congrArg (BitVec.ofNat 8) hlength).trans (if_neg (by decide)).symm
  | k + 4 =>
    have hmore : ¬ k = f.args.length := by omega
    have hargs : s.pstate = .args := hstate.trans (if_neg hmore)
    have hexp : s.pexp = .ofNat 8 f.args.length := hexp.trans (if_neg (by omega))
    have hexpNat : s.pexp.toNat = f.args.length := by
      rw [hexp, BitVec.toNat_ofNat]
      exact Nat.mod_eq_of_lt (Nat.lt_succ_of_le hl)
    have hlen : s.pbuf.length = k + 4 := by
      rw [hbuf, List.length_take, frameBody_length]
      omega
    by_cases hlast : k + 1 = f.args.length
    · refine ⟨_, _, _, (parserStep_of_args hargs y).trans (by rw [parserArgs_of_last (by omega)]), ?_, htake, ?_⟩
      · exact (if_pos hlast).symm
      · exact hexp.trans (if_neg (by omega)).symm
    · refine ⟨_, _, _, (parserStep_of_args hargs y).trans (by rw [parserArgs_of_more (by omega)]), ?_, htake, ?_⟩
      · exact (if_neg hlast).symm
      · exact hexp.trans (if_neg (by omega)).symm

/-- With the whole body of a Frame read, EOF commits the Frame (41_parser.md R158). -/
theorem MidFrame.commit {f : Frame} {s : State} (h : MidFrame f (f.args.length + 4) s) (hvalid : validFrame f = true) :
    parserStep 0 s = .next (s.commit f) := by
  obtain ⟨hstate, hbuf, -⟩ := h
  have heof : s.pstate = .expectEof := hstate.trans (if_pos rfl)
  have hbuf : s.pbuf = frameBody f := hbuf.trans (List.take_of_length_le (frameBody_length f).le)
  have hdecode : decodeBuffer s.pbuf = some (.ok f) := by
    rw [decodeBuffer_eq hbuf, hbuf]
    exact congrArg some (decodeFrame_of_valid hvalid)
  rw [parserStep_of_eof heof, parserEof_of_ok hdecode]

/-- SOF opens a frame (41_parser.md R151). -/
theorem MidFrame.of_sof {s : State} (f : Frame) : MidFrame f 0 (parserSof s) := ⟨rfl, rfl, rfl⟩

/-- The rest of a frame's body and EOF, by PSTEPs before the first TICK: quiet steps, then the commit. -/
theorem MidFrame.feed {f : Frame} {k : Nat} {s : State} (h : MidFrame f k s) (hvalid : validFrame f = true)
    (hk : k ≤ f.args.length + 4) (hphase : s.phase = .unstarted) :
    runOps (feed ((frameBody f).drop k ++ [0])) s =
      some ({ s with
          pstate := .idle, pbuf := [], pexp := 0, framesParsed := ctrInc s.cfg.ctrW s.framesParsed,
          out := [.pstep (some f) false], events := [] },
        List.replicate (f.args.length + 4 - k) [.pstep none false] ++ [[.pstep (some f) false]]) := by
  have hexec (s : State) (hphase : s.phase = .unstarted) (y : Nib) : exec (.pstep y) s = parserStep y s.begin := by
    rw [exec_pstep (p := .unstarted) (by rw [hphase]; rfl), ← hphase]
    rfl
  induction hn : f.args.length + 4 - k generalizing k s with
  | zero =>
    obtain rfl : k = f.args.length + 4 := by omega
    rw [List.drop_of_length_le (frameBody_length f).le]
    have hcommit : exec (.pstep 0) s = .next (s.begin.commit f) :=
      (hexec s hphase 0).trans ((h.congr (t := s.begin) rfl rfl rfl).commit hvalid)
    exact runOps_cons hcommit (runOps_nil _)
  | succ n ih =>
    have hlt : k < (frameBody f).length := by rw [frameBody_length]; omega
    obtain ⟨p, b, m, hstep, hmid⟩ := (h.congr (t := s.begin) rfl rfl rfl).step (validFrame_length hvalid)
      (List.getElem?_eq_getElem hlt)
    rw [List.drop_eq_getElem_cons hlt]
    exact runOps_cons ((hexec s hphase _).trans hstep) (ih hmid (by omega) hphase (by omega))

/-! ## A line of frames -/

/-- The symbols of a frame on the line, SOF first and an idle 0 last, before what follows. -/
theorem lineSymbols_append (f : Frame) (l : List Nib) : lineSymbols f ++ l = 15 :: (frameBody f ++ 0 :: 0 :: l) := by
  simp [lineSymbols, frameSymbols_eq_body]

/-- The parser is in IDLE with empty registers. -/
structure AtRest (s : State) : Prop where
  state : s.pstate = .idle
  buf : s.pbuf = []
  exp : s.pexp = 0

theorem AtRest.parserInv {s : State} (h : AtRest s) : ParserInv s := by
  simp only [ParserInv, h.state]
  exact ⟨h.buf, h.exp⟩

/-- With the symbols `l` still to come on the line, the parser has the frames `fs` still to commit: it is before a
frame, before the idle 0 after one, or amid one. -/
inductive Awaits (s : State) (l : List Nib) (fs : List Frame) : Prop
  | atFrame (h : AtRest s) (hl : l = fs.flatMap lineSymbols)
  | atGap (h : AtRest s) (hl : l = 0 :: fs.flatMap lineSymbols)
  | amid (f : Frame) (k : Nat) (gs : List Frame) (h : MidFrame f k s) (hk : k ≤ f.args.length + 4)
      (hl : l = (frameBody f).drop k ++ 0 :: 0 :: gs.flatMap lineSymbols) (hfs : fs = f :: gs)

theorem Awaits.congr {s t : State} {l : List Nib} {fs : List Frame} (h : Awaits s l fs) (hp : t.pstate = s.pstate)
    (hb : t.pbuf = s.pbuf) (hx : t.pexp = s.pexp) : Awaits t l fs := by
  have rest (h : AtRest s) : AtRest t := ⟨hp.trans h.state, hb.trans h.buf, hx.trans h.exp⟩
  obtain ⟨h, hl⟩ | ⟨h, hl⟩ | ⟨f, k, gs, h, hk, hl, hfs⟩ := h
  · exact .atFrame (rest h) hl
  · exact .atGap (rest h) hl
  · exact .amid f k gs (h.congr hp hb hx) hk hl hfs

/-- With at most an idle 0 to come nothing is left to commit. -/
theorem Awaits.atRest {s : State} {l : List Nib} {fs : List Frame} (h : Awaits s l fs) (hl : l.length ≤ 1) :
    fs = [] ∧ AtRest s := by
  have short (hle : (fs.flatMap lineSymbols).length ≤ 1) : fs = [] := by
    cases fs with
    | nil => rfl
    | cons f gs =>
      rw [List.flatMap_cons, List.length_append, lineSymbols_length] at hle
      omega
  obtain ⟨h, rfl⟩ | ⟨h, rfl⟩ | ⟨f, k, gs, h, hk, rfl, hfs⟩ := h
  · exact ⟨short hl, h⟩
  · exact ⟨short (Nat.le_of_succ_le hl), h⟩
  · simp at hl
    omega

/-- What a parser step on the next symbol of the line does: a quiet step, or the commit of the next frame. -/
theorem Awaits.step {s : State} {y : Nib} {l : List Nib} {fs : List Frame} (h : Awaits s (y :: l) fs)
    (hvalid : ∀ f ∈ fs, validFrame f = true) :
    (∃ p b n, parserStep y s = .next ((s.setParser p b n).quiet) ∧ Awaits ((s.setParser p b n).quiet) l fs) ∨
    ∃ f gs, fs = f :: gs ∧ parserStep y s = .next (s.commit f) ∧ Awaits (s.commit f) l gs := by
  obtain ⟨h, hl⟩ | ⟨h, hl⟩ | ⟨f, k, gs, h, hk, hl, rfl⟩ := h
  · cases fs with
    | nil => cases hl
    | cons f gs =>
      rw [List.flatMap_cons, lineSymbols_append] at hl
      obtain ⟨rfl, rfl⟩ := List.cons.inj hl
      exact .inl ⟨_, _, _, parserStep_of_idle_sof h.state, .amid f 0 gs (.of_sof f) (Nat.zero_le _) rfl rfl⟩
  · obtain ⟨rfl, rfl⟩ := List.cons.inj hl
    exact .inl ⟨s.pstate, s.pbuf, s.pexp, parserStep_of_idle_noise h.state (by decide),
      .atFrame ⟨h.state, h.buf, h.exp⟩ rfl⟩
  · have hf := hvalid f List.mem_cons_self
    obtain rfl | hlt := Nat.eq_or_lt_of_le hk
    · rw [List.drop_of_length_le (frameBody_length f).le] at hl
      obtain ⟨rfl, rfl⟩ := List.cons.inj hl
      exact .inr ⟨f, gs, rfl, h.commit hf, .atGap ⟨rfl, rfl, rfl⟩ rfl⟩
    · rw [List.drop_eq_getElem_cons (by rwa [frameBody_length])] at hl
      obtain ⟨rfl, rfl⟩ := List.cons.inj hl
      obtain ⟨p, b, n, hstep, hmid⟩ := h.step (validFrame_length hf) (List.getElem?_eq_getElem _)
      exact .inl ⟨p, b, n, hstep, .amid f (k + 1) gs hmid hlt rfl rfl⟩

/-! ## Runs along the line -/

/-- From `s` to `t` the parser read along the line, with `l` still to come, and committed the frames `cs` of `fs`; no
framing error was counted, and no flag set unless by an ENQ. -/
structure ReadLine (enqs : Bool) (s t : State) (l : List Nib) (fs cs : List Frame) : Prop where
  awaits : ∃ gs, fs = cs ++ gs ∧ Awaits t l gs
  errors : t.framingErrors = s.framingErrors
  flags : enqs = false → t.eflags = s.eflags

/-- The operation may perform an ENQ. -/
def mayEnqueue : Instr → Bool
  | .enq _ | .tick _ _ => true
  | _ => false

theorem ReadLine.of_same {enqs : Bool} {s t : State} {l : List Nib} {fs : List Frame} (h : Awaits s l fs)
    (hp : t.pstate = s.pstate) (hb : t.pbuf = s.pbuf) (hx : t.pexp = s.pexp) (he : t.framingErrors = s.framingErrors)
    (hf : enqs = false → t.eflags = s.eflags) : ReadLine enqs s t l fs [] :=
  ⟨⟨fs, rfl, h.congr hp hb hx⟩, he, hf⟩

theorem ReadLine.parserStep {enqs : Bool} {s t : State} {y : Nib} {l : List Nib} {fs : List Frame}
    (h : Awaits s (y :: l) fs) (hvalid : ∀ f ∈ fs, validFrame f = true) (ht : parserStep y s = .next t)
    (hout : s.out = []) : ReadLine enqs s t l fs (commits [t.out]) := by
  obtain ⟨p, b, n, hstep, hnext⟩ | ⟨f, gs, rfl, hstep, hnext⟩ := h.step hvalid
  · cases hstep.symm.trans ht
    exact ⟨⟨fs, by simp [State.quiet, hout, commits, committedFrame], hnext⟩, rfl, fun _ => rfl⟩
  · cases hstep.symm.trans ht
    exact ⟨⟨gs, by simp [State.commit, State.toIdle, hout, commits, committedFrame], hnext⟩, rfl, fun _ => rfl⟩

theorem inputSymbol_of_readsOnly {i : Instr} (h : readsOnly i = true) : inputSymbol i = none := by
  revert h
  cases i <;> simp [readsOnly, inputSymbol]

theorem inputSymbol_of_emitterOp {i : Instr} (h : emitterOp i = true) : inputSymbol i = none := by
  revert h
  cases i <;> simp [emitterOp, inputSymbol]

theorem emitterStep_commits {s t : State} (h : emitterStep s = .next t) : commits [t.out] = commits [s.out] := by
  obtain ⟨y, d, hout⟩ := emitterStep_drives h
  rw [hout, commits_snoc]
  exact List.append_nil _

/-- ENQ drives neither `commit` nor `rx_sym`. -/
theorem enqueue_drives {req : Option Frame} {s t : State} (h : enqueue req s = .next t) (hout : s.out = []) :
    commits [t.out] = [] ∧ emissions [t.out] = [] := by
  obtain ⟨-, rfl⟩ | ⟨f, -, -, -, rfl⟩ | ⟨f, -, -, -, rfl⟩ | ⟨f, -, -, -, rfl⟩ := enqueue_cases h <;>
    simp [commits, emissions, committedFrame, emittedSymbol, State.drop, State.push, hout]

/-- An operation that performs no RESET reads at most its symbol of the line. -/
theorem ReadLine.exec {i : Instr} {s t : State} {l : List Nib} {fs : List Frame}
    (h : Awaits s ((inputSymbol i).toList ++ l) fs) (hvalid : ∀ f ∈ fs, validFrame f = true)
    (hr : mayReset s i = false) (ht : exec i s = .next t) : ReadLine (mayEnqueue i) s t l fs (commits [t.out]) := by
  obtain ⟨hi, o, e, rfl⟩ | ⟨-, y, p, hy, -, hstep⟩ | ⟨hi, p, -, hstep⟩ | ⟨y, acts, rfl, htick⟩ | ⟨f, req, rfl, henq⟩ |
    ⟨rfl, -⟩ := exec_cases ht
  · rw [inputSymbol_of_readsOnly hi] at h
    rw [(readsOnly_drives hi ht).1]
    exact .of_same h rfl rfl rfl rfl fun _ => rfl
  · rw [hy] at h
    obtain ⟨hnext, he, hf⟩ := ReadLine.parserStep (enqs := mayEnqueue i) (s := s.begin.setPhase p)
      (h.congr rfl rfl rfl) hvalid hstep rfl
    exact ⟨hnext, he, hf⟩
  · rw [inputSymbol_of_emitterOp hi] at h
    obtain ⟨hp, hb, hx, -, he, -, hf, -⟩ := emitterStep_frame hstep
    rw [emitterStep_commits hstep]
    exact .of_same h hp hb hx he fun _ => hf
  · obtain ⟨-, u, v, hu, hv, hemit⟩ := execTick_next_iff.1 htick
    obtain ⟨⟨gs, hgs, hnext⟩, hue, -⟩ := ReadLine.parserStep (enqs := true) (s := s.begin.setPhase .between)
      (h.congr rfl rfl rfl) hvalid hu rfl
    obtain ⟨-, hc, -, hvp, hvb, hvx, -, -, -, -, hve, -⟩ :=
      runActs_without_reset (fun hmem => ne_reset_of_mem_tickActs hr hmem rfl) hv
    obtain ⟨hp, hb, hx, -, he, -⟩ := emitterStep_frame hemit
    rw [emitterStep_commits hemit, hc]
    exact ⟨⟨gs, hgs, hnext.congr (hp.trans hvp) (hb.trans hvb) (hx.trans hvx)⟩, he.trans (hve.trans hue), nofun⟩
  · obtain ⟨hp, hb, hx, -, -, -, -, he, -⟩ := enqueue_frame henq
    rw [(enqueue_drives henq rfl).1]
    exact .of_same h hp hb hx he nofun
  · simp [mayReset] at hr

/-- A run that performs no RESET reads the line's symbols and commits its frames, whatever else it does. -/
theorem ReadLine.run {ops : List Instr} {s t : State} {outs : List (List PortOut)} {l : List Nib} {fs : List Frame}
    (hrun : runOps ops s = some (t, outs)) (h : Awaits s (ops.filterMap inputSymbol ++ l) fs)
    (hvalid : ∀ f ∈ fs, validFrame f = true) (hr : runMayReset ops s = false) :
    ReadLine (ops.any mayEnqueue) s t l fs (commits outs) := by
  induction ops generalizing s fs outs with
  | nil =>
    cases hrun
    exact .of_same h rfl rfl rfl rfl fun _ => rfl
  | cons i ops ih =>
    obtain ⟨u, rest, hu, hrest, rfl⟩ := runOps_cons_iff.1 hrun
    rw [runMayReset_cons hu, Bool.or_eq_false_iff] at hr
    obtain ⟨hri, hrops⟩ := hr
    have hsymbols : (i :: ops).filterMap inputSymbol = (inputSymbol i).toList ++ ops.filterMap inputSymbol := by
      rw [List.filterMap_cons]
      cases inputSymbol i <;> rfl
    rw [hsymbols, List.append_assoc] at h
    obtain ⟨⟨gs, rfl, hnext⟩, herrors, hflags⟩ := ReadLine.exec h hvalid hri hu
    obtain ⟨⟨gs', rfl, hend⟩, herrors', hflags'⟩ := ih hrest hnext
      (fun f hf => hvalid f (List.mem_append_right _ hf)) hrops
    refine ⟨⟨gs', ?_, hend⟩, herrors'.trans herrors, fun henqs => ?_⟩
    · rw [← List.append_assoc, ← commits_append]
      rfl
    · rw [List.any_cons, Bool.or_eq_false_iff] at henqs
      obtain ⟨hi, hops⟩ := henqs
      exact (hflags' hops).trans (hflags hi)

/-- Through a run that performs no RESET each frame committed and each `edone` is counted once (D9, D30). -/
theorem runOps_counts {ops : List Instr} {s t : State} {outs : List (List PortOut)}
    (hrun : runOps ops s = some (t, outs)) (hr : runMayReset ops s = false) :
    t.framesParsed = (ctrInc s.cfg.ctrW)^[(commits outs).length] s.framesParsed ∧
    t.framesEmitted = (ctrInc s.cfg.ctrW)^[outs.flatten.countP drivesEdone] s.framesEmitted := by
  induction ops generalizing s outs with
  | nil =>
    cases hrun
    exact ⟨rfl, rfl⟩
  | cons i ops ih =>
    obtain ⟨u, rest, hu, hrest, rfl⟩ := runOps_cons_iff.1 hrun
    rw [runMayReset_cons hu, Bool.or_eq_false_iff] at hr
    obtain ⟨hri, hrops⟩ := hr
    obtain ⟨hparsed, -, hemitted, -⟩ := countersCountTheirEvents i s u hri hu
    obtain ⟨hparsed', hemitted'⟩ := ih hrest hrops
    obtain ⟨hcfg, -⟩ := exec_frame hu
    rw [hcfg] at hparsed' hemitted'
    constructor
    · rw [hparsed', hparsed, ← Function.iterate_add_apply, Nat.add_comm, ← List.length_append, ← commits_append]
      rfl
    · rw [hemitted', hemitted, ← Function.iterate_add_apply, Nat.add_comm, List.flatten_cons, List.countP_append]
      rfl

/-! ## FEED and ticks without host actions -/

theorem runMayReset_of_forall {ops : List Instr} (h : ∀ i ∈ ops, ∀ s, mayReset s i = false) (s : State) :
    runMayReset ops s = false := by
  induction ops generalizing s with
  | nil => rfl
  | cons i ops ih =>
    rw [runMayReset, h i List.mem_cons_self, Bool.false_or]
    split
    · exact ih (fun j hj => h j (List.mem_cons_of_mem i hj)) _
    · rfl

theorem feed_mayReset (l : List Nib) (s : State) : runMayReset (feed l) s = false :=
  runMayReset_of_forall (by simp [feed, mayReset]) s

theorem feedTicks_mayReset (l : List Nib) (s : State) : runMayReset (feedTicks l) s = false := by
  refine runMayReset_of_forall (fun i hi _ => ?_) s
  obtain ⟨y, -, hi⟩ := List.mem_flatMap.1 hi
  simp only [List.mem_cons, List.not_mem_nil, or_false] at hi
  obtain rfl | rfl := hi <;> rfl

theorem feed_symbols (l : List Nib) : (feed l).filterMap inputSymbol = l := by
  induction l with
  | nil => rfl
  | cons y l ih => simp [inputSymbol, ih]

theorem feedTicks_symbols (l : List Nib) : (feedTicks l).filterMap inputSymbol = l := by
  induction l with
  | nil => rfl
  | cons y l ih => exact congrArg (y :: ·) ih

theorem feed_mayEnqueue (l : List Nib) : (feed l).any mayEnqueue = false := by
  induction l with
  | nil => rfl
  | cons y l ih => exact ih

theorem feedTicks_mayEnqueue (l : List Nib) : (feedTicks l).any mayEnqueue = false := by
  induction l with
  | nil => rfl
  | cons y l ih => exact ih

/-- A parser at rest awaits a line of frames, its last idle 0 or not. -/
theorem AtRest.awaits {s : State} (h : AtRest s) (fs : List Frame) : Awaits s (fs.flatMap lineSymbols) fs :=
  .atFrame h rfl

/-- Settles O39: the frames the parser awaits are those it commits along the line, in every run that completes. -/
theorem peerParserCommitsTheLine : Obligations.PeerParserCommitsTheLine := by
  intro fs p hvalid hp hb hx
  have hrest : AtRest p := ⟨hp, hb, hx⟩
  have line {ops : List Instr} {t : State} {outs : List (List PortOut)} (hrun : runOps ops p = some (t, outs))
      (hr : runMayReset ops p = false) (hl : ops.filterMap inputSymbol = fs.flatMap lineSymbols) :
      commits outs = fs ∧ t.pstate = .idle ∧ t.pbuf = [] ∧ t.pexp = 0 ∧ t.framingErrors = p.framingErrors ∧
        t.framesParsed = (ctrInc p.cfg.ctrW)^[fs.length] p.framesParsed := by
    have hawaits := hrest.awaits fs
    rw [← List.append_nil (fs.flatMap lineSymbols), ← hl] at hawaits
    obtain ⟨⟨gs, hgs, hend⟩, herrors, -⟩ := ReadLine.run hrun hawaits hvalid hr
    obtain ⟨rfl, hstate, hbuf, hexp⟩ := hend.atRest (Nat.zero_le 1)
    rw [List.append_nil] at hgs
    rw [hgs]
    exact ⟨rfl, hstate, hbuf, hexp, herrors, (runOps_counts hrun hr).1⟩
  refine ⟨fun hphase => ?_, fun hphase hq => ?_, fun ops t outs => line⟩
  · obtain ⟨t, outs, hrun, -⟩ := feed_completes hrest.parserInv hphase (fs.flatMap lineSymbols)
    obtain ⟨hc, hstate, hbuf, -, hrest⟩ := line hrun (feed_mayReset _ _) (feed_symbols _)
    exact ⟨t, outs, hrun, hc, hstate, hbuf, hrest⟩
  · obtain ⟨t, outs, hrun⟩ := feedTicks_completes hrest.parserInv hq hphase (fs.flatMap lineSymbols)
    obtain ⟨hc, hstate, hbuf, -, hrest⟩ := line hrun (feedTicks_mayReset _ _) (feedTicks_symbols _)
    exact ⟨t, outs, hrun, hc, hstate, hbuf, hrest⟩

/-- FEED of a Frame's encoding before the first TICK, the whole end state and every output (41_parser.md section 5). -/
theorem feed_frameSymbols {f : Frame} {s : State} (hvalid : validFrame f = true) (h : AtRest s)
    (hphase : s.phase = .unstarted) :
    runOps (feed (frameSymbols f)) s =
      some ({ s with framesParsed := ctrInc s.cfg.ctrW s.framesParsed, out := [.pstep (some f) false], events := [] },
        List.replicate ((frameSymbols f).length - 1) [.pstep none false] ++ [[.pstep (some f) false]]) := by
  have hsof : exec (.pstep 15) s = .next (parserSof s.begin) := by
    rw [exec_pstep (p := .unstarted) (by rw [hphase]; rfl), ← hphase]
    exact parserStep_of_idle_sof h.state
  have hbody := (MidFrame.of_sof (s := s.begin) f).feed hvalid (Nat.zero_le _) hphase
  have hend : ({ s with
      pstate := .idle, pbuf := [], pexp := 0, framesParsed := ctrInc s.cfg.ctrW s.framesParsed,
      out := [.pstep (some f) false], events := [] } : State) =
      { s with framesParsed := ctrInc s.cfg.ctrW s.framesParsed, out := [.pstep (some f) false], events := [] } := by
    rw [← h.state, ← h.buf, ← h.exp]
  have hlength : (frameSymbols f).length - 1 = f.args.length + 4 + 1 := by rw [frameSymbols_length]; omega
  rw [← hend, hlength]
  exact runOps_cons hsof hbody

/-- A run that performs no RESET and reads just a Frame's symbols, with or without the idle 0 after them, commits the
Frame. -/
theorem AtRest.run_frame {ops : List Instr} {f : Frame} {n : Nat} {s t : State} {outs : List (List PortOut)}
    (h : AtRest s) (hvalid : validFrame f = true) (hn : n ≤ 1) (hrun : runOps ops s = some (t, outs))
    (hr : runMayReset ops s = false)
    (hl : ops.filterMap inputSymbol = frameSymbols f ++ List.replicate n 0) (henqs : ops.any mayEnqueue = false) :
    commits outs = [f] ∧ t.pstate = .idle ∧ t.pbuf = [] ∧ t.pexp = 0 ∧ t.framingErrors = s.framingErrors ∧
      t.eflags = s.eflags ∧ t.framesParsed = (s.framesParsed + 1) % 2 ^ s.cfg.ctrW := by
  have hawaits : Awaits s (ops.filterMap inputSymbol ++ List.replicate (1 - n) 0) [f] := by
    rw [hl, List.append_assoc, List.replicate_append_replicate, Nat.add_sub_cancel' hn]
    exact .atFrame h (List.append_nil _).symm
  obtain ⟨⟨gs, hgs, hend⟩, herrors, hflags⟩ := ReadLine.run hrun hawaits (by simpa using hvalid) hr
  obtain ⟨rfl, hstate, hbuf, hexp⟩ := hend.atRest (by rw [List.length_replicate]; omega)
  rw [List.append_nil] at hgs
  obtain ⟨hparsed, -⟩ := runOps_counts hrun hr
  rw [← hgs] at hparsed
  exact ⟨hgs.symm, hstate, hbuf, hexp, herrors, hflags henqs, hparsed⟩

/-- Settles O32: before the first TICK the FEED is computed symbol by symbol; with ESTEPs between the frame awaited is
the one committed. -/
theorem parserCommitsWhatWasEncoded : Obligations.ParserCommitsWhatWasEncoded := by
  intro f l s hvalid hl hp hb hx
  obtain ⟨-, rfl⟩ := (encodeFrame_ok_iff f l).1 hl
  have hrest : AtRest s := ⟨hp, hb, hx⟩
  refine ⟨feed_frameSymbols hvalid hrest, fun hphase hq => ?_⟩
  obtain ⟨t, outs, hrun⟩ := feedTicks_completes hrest.parserInv hq hphase (frameSymbols f)
  exact ⟨t, outs, hrun, hrest.run_frame hvalid (Nat.zero_le 1) hrun (feedTicks_mayReset _ _)
    ((feedTicks_symbols _).trans (List.append_nil _).symm) (feedTicks_mayEnqueue _)⟩

/-- Settles O21: the datagram's nibbles are the Frame's symbols and at most one pad 0, which IDLE ignores. -/
theorem padIsSafeForTheParser : Obligations.PadIsSafeForTheParser := by
  intro f b s hvalid hb hphase hp hbuf hx
  have hrest : AtRest s := ⟨hp, hbuf, hx⟩
  have hpack : txDatagram f = .ok (pack (frameSymbols f)) := by simp only [txDatagram, encodeFrame_of_valid hvalid]
  obtain rfl : pack (frameSymbols f) = b := Except.ok.inj (hpack.symm.trans hb)
  have hnibbles := unpack_pack_frameSymbols f
  obtain ⟨t, outs, hrun, -⟩ := feed_completes hrest.parserInv hphase (unpack (pack (frameSymbols f)))
  obtain ⟨hc, hstate, htbuf, -, hcounts⟩ :=
    hrest.run_frame hvalid (Nat.le_of_lt_succ (Nat.mod_lt f.args.length two_pos)) hrun
    (feed_mayReset _ _) ((feed_symbols _).trans hnibbles) (feed_mayEnqueue _)
  exact ⟨t, outs, hrun, hc, hstate, htbuf, hcounts⟩

end Sys2Proof.Machine
end

section
/-! PROOFS. The emitter putting queued frames on the line (42_emitter.md section 5): what it has still to emit, symbol
by symbol, and what a run that performs no RESET emits. -/

namespace Sys2Proof.Machine

/-! ## What is still to emit -/

/-- The emitter is in IDLE with empty registers. -/
structure EmitterAtRest (s : State) : Prop where
  state : s.estate = .idle
  syms : s.esyms = []
  pos : s.epos = 0

/-- The emitter has put out the first `k` symbols of `f`, SOF among them. -/
structure MidEmission (f : Frame) (k : Nat) (s : State) : Prop where
  state : s.estate = .outputting
  syms : s.esyms = frameSymbols f
  pos : s.epos = .ofNat 9 k
  left : k ≤ (frameSymbols f).length
  encodable : f.args.length ≤ 255

/-- The emitter has the outputs `l` still to put out, for the frame in flight and the head of the queue, and then the
frames `q` in the queue. -/
inductive Sends (s : State) (l : List (Nib × Bool)) (q : List Frame) : Prop
  | atFrame (gs : List Frame) (h : EmitterAtRest s) (hq : s.queue = gs ++ q) (hgs : ∀ g ∈ gs, g.args.length ≤ 255)
      (hl : l = gs.flatMap lineOutputs)
  | amid (f : Frame) (k : Nat) (gs : List Frame) (h : MidEmission f k s) (hq : s.queue = gs ++ q)
      (hgs : ∀ g ∈ gs, g.args.length ≤ 255)
      (hl : l = ((frameSymbols f).drop k).map (fun y => (y, false)) ++ (0, true) :: gs.flatMap lineOutputs)

/-- What the emitter sends reads its registers and the queue, which may grow at its tail. -/
theorem Sends.congr {s t : State} {l : List (Nib × Bool)} {q more : List Frame} (h : Sends s l q)
    (he : t.estate = s.estate) (hs : t.esyms = s.esyms) (hp : t.epos = s.epos) (hq : t.queue = s.queue ++ more) :
    Sends t l (q ++ more) := by
  obtain ⟨gs, h, hsq, hgs, hl⟩ | ⟨f, k, gs, h, hsq, hgs, hl⟩ := h <;>
    rw [hsq, List.append_assoc] at hq
  · exact .atFrame gs ⟨he.trans h.state, hs.trans h.syms, hp.trans h.pos⟩ hq hgs hl
  · exact .amid f k gs ⟨he.trans h.state, hs.trans h.syms, hp.trans h.pos, h.left, h.encodable⟩ hq hgs hl

theorem Sends.same {s t : State} {l : List (Nib × Bool)} {q : List Frame} (h : Sends s l q)
    (he : t.estate = s.estate) (hs : t.esyms = s.esyms) (hp : t.epos = s.epos) (hq : t.queue = s.queue) :
    Sends t l q := by
  simpa using h.congr (more := []) he hs hp (by rw [hq, List.append_nil])

/-- With nothing left to put out the emitter is at rest. -/
theorem Sends.atRest {s : State} {q : List Frame} (h : Sends s [] q) : EmitterAtRest s ∧ s.queue = q := by
  obtain ⟨gs, h, hq, -, hl⟩ | ⟨f, k, gs, h, -, -, hl⟩ := h
  · cases gs with
    | nil => exact ⟨h, hq⟩
    | cons g gs => simp [lineOutputs] at hl
  · simp at hl

/-- The outputs of a frame, SOF first, before what follows. -/
theorem lineOutputs_append (f : Frame) (l : List (Nib × Bool)) :
    lineOutputs f ++ l = (15, false) :: (((frameSymbols f).drop 1).map (fun y => (y, false)) ++ (0, true) :: l) := by
  simp [lineOutputs, frameSymbols_eq_body]

/-- An emitter step puts out the next output (42_emitter.md R181 to R184). -/
theorem Sends.step {s : State} {o : Nib × Bool} {l : List (Nib × Bool)} {q : List Frame} (h : Sends s (o :: l) q) :
    ∃ t, emitterStep s = .next t ∧ t.out = s.out ++ [.estep o.1 o.2] ∧ Sends t l q := by
  obtain ⟨gs, h, hq, hgs, hl⟩ | ⟨f, k, gs, h, hq, hgs, hl⟩ := h
  · cases gs with
    | nil => cases hl
    | cons g gs =>
      rw [List.flatMap_cons, lineOutputs_append] at hl
      obtain ⟨rfl, rfl⟩ := List.cons.inj hl
      have hg := hgs g List.mem_cons_self
      refine ⟨_, emitterStep_start h.state hq hg, rfl, .amid g 1 gs ⟨rfl, rfl, rfl, ?_, hg⟩ rfl
        (fun f hf => hgs f (List.mem_cons_of_mem g hf)) rfl⟩
      rw [frameSymbols_length]
      omega
  · obtain ⟨hstate, hsyms, hpos, hleft, hf⟩ := h
    have hk : s.epos.toNat = k := by
      rw [hpos, BitVec.toNat_ofNat]
      rw [frameSymbols_length] at hleft
      omega
    obtain rfl | hlt := Nat.eq_or_lt_of_le hleft
    · rw [List.drop_length] at hl
      obtain ⟨rfl, rfl⟩ := List.cons.inj hl
      have hnone : symbolsLeft s = false := by simp [symbolsLeft, hk, hsyms]
      exact ⟨_, emitterStep_end hstate hnone, rfl, .atFrame gs ⟨rfl, rfl, rfl⟩ hq hgs rfl⟩
    · rw [List.drop_eq_getElem_cons hlt] at hl
      obtain ⟨rfl, rfl⟩ := List.cons.inj hl
      have hsome : symbolsLeft s = true := symbolsLeft_iff.2 (by rw [hk, hsyms]; exact hlt)
      refine ⟨_, emitterStep_symbol hstate hsome, ?_,
        .amid f (k + 1) gs ⟨hstate, hsyms, ?_, hlt, hf⟩ hq hgs rfl⟩
      · simp [emitterSymbol, hk, hsyms, List.getElem?_eq_getElem hlt]
      · simp [emitterSymbol, hpos, BitVec.ofNat_add]

/-! ## Runs -/

/-- The run left the emitter with `es` of the outputs `l` put out; only an ENQ put frames behind `q`. -/
def Sent (enqs : Bool) (t : State) (l es : List (Nib × Bool)) (q : List Frame) : Prop :=
  ∃ l' more, l = es ++ l' ∧ Sends t l' (q ++ more) ∧ (enqs = false → more = [])

theorem emissions_cons (o : List PortOut) (outs : List (List PortOut)) :
    emissions (o :: outs) = emissions [o] ++ emissions outs := emissions_append [o] outs

theorem Sent.of_same {enqs : Bool} {t : State} {l : List (Nib × Bool)} {q : List Frame} (h : Sends t l q) :
    Sent enqs t l [] q := ⟨l, [], rfl, by rwa [List.append_nil], fun _ => rfl⟩

theorem parserStep_emissions {y : Nib} {s t : State} (h : parserStep y s = .next t) :
    emissions [t.out] = emissions [s.out] := by
  obtain ⟨c, e, hout, -⟩ := parserStep_drives h
  simp [emissions, hout, emittedSymbol]

theorem emitterStep_emissions {s t : State} (h : emitterStep s = .next t) (hout : emissions [s.out] = []) :
    (emissions [t.out]).length = 1 := by
  obtain ⟨y, d, htout⟩ := emitterStep_drives h
  have hsplit : emissions [t.out] = emissions [s.out] ++ [(y, d)] := by simp [emissions, htout, emittedSymbol]
  rw [hsplit, hout]
  rfl

/-- An emitter step puts out the next output, where one is left. -/
theorem Sends.emitterStep {s t : State} {l : List (Nib × Bool)} {q : List Frame} (h : Sends s l q)
    (ht : emitterStep s = .next t) (hout : emissions [s.out] = []) (hl : (emissions [t.out]).length ≤ l.length) :
    ∃ l', l = emissions [t.out] ++ l' ∧ Sends t l' q := by
  rw [emitterStep_emissions ht hout] at hl
  obtain ⟨o, l, rfl⟩ := List.exists_cons_of_length_pos hl
  obtain ⟨u, hu, huout, hnext⟩ := h.step
  cases hu.symm.trans ht
  have hsplit : emissions [t.out] = emissions [s.out] ++ [o] := by simp [emissions, huout, emittedSymbol]
  exact ⟨l, by rw [hsplit, hout]; rfl, hnext⟩

theorem enqueue_queue {req : Option Frame} {s t : State} (h : enqueue req s = .next t) :
    ∃ more, t.queue = s.queue ++ more := by
  obtain ⟨-, rfl⟩ | ⟨f, -, -, -, rfl⟩ | ⟨f, -, -, -, rfl⟩ | ⟨f, -, -, -, rfl⟩ := enqueue_cases h
  · exact ⟨[], (List.append_nil _).symm⟩
  · exact ⟨[], (List.append_nil _).symm⟩
  · exact ⟨[], (List.append_nil _).symm⟩
  · exact ⟨[f], rfl⟩

/-- An operation that performs no RESET puts out at most the next output. -/
theorem Sent.exec {i : Instr} {s t : State} {l : List (Nib × Bool)} {q : List Frame} (h : Sends s l q)
    (hr : mayReset s i = false) (ht : exec i s = .next t) (hl : (emissions [t.out]).length ≤ l.length) :
    Sent (mayEnqueue i) t l (emissions [t.out]) q := by
  obtain ⟨hi, o, e, rfl⟩ | ⟨-, y, p, -, -, hstep⟩ | ⟨-, p, -, hstep⟩ | ⟨y, acts, rfl, htick⟩ | ⟨f, req, rfl, henq⟩ |
    ⟨rfl, -⟩ := exec_cases ht
  · rw [(readsOnly_drives hi ht).2]
    exact .of_same (h.same rfl rfl rfl rfl)
  · obtain ⟨he, hs, hp, hq, -⟩ := parserStep_frame hstep
    rw [parserStep_emissions hstep]
    exact .of_same (h.same he hs hp hq)
  · obtain ⟨l', hl', hnext⟩ := (h.same (t := s.begin.setPhase p) rfl rfl rfl rfl).emitterStep hstep rfl hl
    exact ⟨l', [], hl', by rwa [List.append_nil], fun _ => rfl⟩
  · obtain ⟨-, u, v, hu, hv, hemit⟩ := execTick_next_iff.1 htick
    obtain ⟨he, hs, hp, hq, -⟩ := parserStep_frame hu
    obtain ⟨⟨more, hvq⟩, -, hx, -, -, -, hve, hvs, hvp, -⟩ :=
      runActs_without_reset (fun hmem => ne_reset_of_mem_tickActs hr hmem rfl) hv
    have hsends : Sends v l (q ++ more) :=
      h.congr (hve.trans he) (hvs.trans hs) (hvp.trans hp) (hvq.trans (by rw [hq]; rfl))
    obtain ⟨l', hl', hnext⟩ := hsends.emitterStep hemit (hx.trans (parserStep_emissions hu)) hl
    exact ⟨l', more, hl', hnext, nofun⟩
  · obtain ⟨-, -, -, he, hs, hp, -⟩ := enqueue_frame henq
    obtain ⟨more, hq⟩ := enqueue_queue henq
    rw [(enqueue_drives henq rfl).2]
    exact ⟨l, more, rfl, h.congr he hs hp hq, nofun⟩
  · simp [mayReset] at hr

/-- A run that performs no RESET puts out what the emitter has to send, in order, whatever else it does. -/
theorem Sent.run {ops : List Instr} {s t : State} {outs : List (List PortOut)} {l : List (Nib × Bool)} {q : List Frame}
    (hrun : runOps ops s = some (t, outs)) (h : Sends s l q) (hr : runMayReset ops s = false)
    (hl : (emissions outs).length ≤ l.length) : Sent (ops.any mayEnqueue) t l (emissions outs) q := by
  induction ops generalizing s l q outs with
  | nil =>
    cases hrun
    exact .of_same h
  | cons i ops ih =>
    obtain ⟨u, rest, hu, hrest, rfl⟩ := runOps_cons_iff.1 hrun
    rw [runMayReset_cons hu, Bool.or_eq_false_iff] at hr
    obtain ⟨hri, hrops⟩ := hr
    rw [emissions_cons, List.length_append] at hl
    obtain ⟨l', more, rfl, hnext, hmore⟩ := Sent.exec h hri hu (by omega)
    rw [List.length_append] at hl
    obtain ⟨l'', more', rfl, hend, hmore'⟩ := ih hrest hnext hrops (by omega)
    refine ⟨l'', more ++ more', ?_, by rwa [← List.append_assoc], fun henqs => ?_⟩
    · rw [emissions_cons u.out rest, List.append_assoc]
    · rw [List.any_cons, Bool.or_eq_false_iff] at henqs
      obtain ⟨hi, hops⟩ := henqs
      rw [hmore hi, hmore' hops, List.append_nil]

/-! ## Frames counted -/

theorem countP_drivesEdone (outs : List (List PortOut)) :
    outs.flatten.countP drivesEdone = (emissions outs).countP Prod.snd := by
  rw [emissions, List.countP_filterMap]
  congr 1
  funext o
  cases o <;> rfl

theorem countP_lineOutputs (fs : List Frame) : (fs.flatMap lineOutputs).countP Prod.snd = fs.length := by
  induction fs with
  | nil => rfl
  | cons f fs ih => simp [lineOutputs, ih, Nat.add_comm]

theorem lineOutputs_length (fs : List Frame) : (fs.flatMap lineOutputs).length = (fs.flatMap lineSymbols).length := by
  simp [lineOutputs, lineSymbols, List.length_flatMap]

/-- Each frame put out whole is counted once (42_emitter.md R185). -/
theorem framesEmitted_of_emissions {ops : List Instr} {s t : State} {outs : List (List PortOut)} {fs : List Frame}
    (hrun : runOps ops s = some (t, outs)) (hr : runMayReset ops s = false)
    (houts : emissions outs = fs.flatMap lineOutputs) :
    t.framesEmitted = (ctrInc s.cfg.ctrW)^[fs.length] s.framesEmitted := by
  obtain ⟨-, hemitted⟩ := runOps_counts hrun hr
  rw [hemitted, countP_drivesEdone, houts, countP_lineOutputs]

/-! ## ESTEPs alone, and ticks without host actions -/

/-- ESTEPs before the first TICK put out the outputs in order. -/
theorem runOps_esteps {s : State} {l : List (Nib × Bool)} {q : List Frame} (h : Sends s l q)
    (hphase : s.phase = .unstarted) :
    ∃ t, runOps (List.replicate l.length .estep) s = some (t, l.map fun o => [.estep o.1 o.2]) ∧ Sends t [] q := by
  induction l generalizing s with
  | nil => exact ⟨s, rfl, h⟩
  | cons o l ih =>
    obtain ⟨u, hu, hout, hnext⟩ := (h.same (t := s.begin.setPhase .unstarted) rfl rfl rfl rfl).step
    obtain ⟨-, -, -, -, -, -, -, -, huphase, -⟩ := emitterStep_frame hu
    obtain ⟨t, ht, hend⟩ := ih hnext huphase
    have hexec : exec .estep s = .next u := (exec_estep (by rw [hphase]; rfl)).trans hu
    refine ⟨t, ?_, hend⟩
    rw [List.length_cons, List.replicate_succ, runOps_cons hexec ht, hout]
    rfl

theorem emissions_esteps (l : List (Nib × Bool)) : emissions (l.map fun o => [.estep o.1 o.2]) = l := by
  induction l with
  | nil => rfl
  | cons o l ih => exact congrArg (o :: ·) ih

theorem esteps_mayReset (n : Nat) (s : State) : runMayReset (List.replicate n .estep) s = false :=
  runMayReset_of_forall (fun i hi _ => by rw [List.eq_of_mem_replicate hi]; rfl) s

theorem feedTicks_emissions {ys : List Nib} {s t : State} {outs : List (List PortOut)}
    (hrun : runOps (feedTicks ys) s = some (t, outs)) : (emissions outs).length = ys.length := by
  induction ys generalizing s outs with
  | nil =>
    cases hrun
    rfl
  | cons y ys ih =>
    obtain ⟨u, outs, hu, htail, rfl⟩ := runOps_cons_iff.1 hrun
    obtain ⟨v, outs, hv, hrest, rfl⟩ := runOps_cons_iff.1 htail
    obtain ⟨z, p, -, -, hparser⟩ := parserStep_of_row rfl hu
    obtain ⟨p', -, hemitter⟩ := emitterStep_of_row rfl hv
    rw [emissions_cons u.out, emissions_cons v.out, List.length_append, List.length_append, ih hrest,
      parserStep_emissions hparser, emitterStep_emissions hemitter rfl, Nat.add_comm 1]
    exact Nat.zero_add _

/-- Settles O38: from IDLE the emitter has the queued frames' outputs to send, and every run that completes sends them
in order. -/
theorem emitterPutsFramesOutWhole : Obligations.EmitterPutsFramesOutWhole := by
  intro fs q s hvalid he hs hp hq
  have hsends : Sends s (fs.flatMap lineOutputs) q :=
    .atFrame fs ⟨he, hs, hp⟩ hq (fun f hf => validFrame_length (hvalid f hf)) rfl
  have line {ops : List Instr} {t : State} {outs : List (List PortOut)} (hrun : runOps ops s = some (t, outs))
      (hr : runMayReset ops s = false) (hl : (emissions outs).length = (fs.flatMap lineOutputs).length) :
      emissions outs = fs.flatMap lineOutputs ∧ EmitterAtRest t ∧
        (∃ more, t.queue = q ++ more ∧ (ops.any mayEnqueue = false → more = [])) ∧
        t.framesEmitted = (ctrInc s.cfg.ctrW)^[fs.length] s.framesEmitted := by
    obtain ⟨l', more, houts, hend, hmore⟩ := Sent.run hrun hsends hr hl.le
    obtain rfl : l' = [] := by
      rw [houts, List.length_append] at hl
      exact List.eq_nil_of_length_eq_zero (by omega)
    rw [List.append_nil] at houts
    obtain ⟨hrest, hqueue⟩ := hend.atRest
    exact ⟨houts.symm, hrest, ⟨more, hqueue, hmore⟩, framesEmitted_of_emissions hrun hr houts.symm⟩
  refine ⟨fun hphase => ?_, fun hphase hparser hqueue ys hys => ?_, fun ops t outs hrun hr hl => ?_⟩
  · obtain ⟨t, hrun, hend⟩ := runOps_esteps hsends hphase
    obtain ⟨⟨hte, hts, htp⟩, htq⟩ := hend.atRest
    have hemitted := framesEmitted_of_emissions hrun (esteps_mayReset _ _) (emissions_esteps _)
    refine ⟨t, ?_, hte, hts, htp, htq, hemitted⟩
    rw [lineOutputs_length] at hrun
    rw [hrun]
    simp [lineOutputs, List.map_flatMap, Function.comp_def]
  · obtain ⟨t, outs, hrun⟩ := feedTicks_completes hparser hqueue hphase ys
    obtain ⟨houts, ⟨hte, hts, htp⟩, ⟨more, htq, hmore⟩, hemitted⟩ := line hrun (feedTicks_mayReset _ _)
      ((feedTicks_emissions hrun).trans (hys.trans (lineOutputs_length fs).symm))
    rw [hmore (feedTicks_mayEnqueue _), List.append_nil] at htq
    exact ⟨t, outs, hrun, houts, hte, hts, htp, htq, hemitted⟩
  · obtain ⟨houts, ⟨hte, hts, htp⟩, ⟨more, htq, -⟩, hemitted⟩ := line hrun hr hl
    exact ⟨houts, hte, hts, htp, ⟨more, htq⟩, hemitted⟩

end Sys2Proof.Machine
end
